-- ==== Sys2Proof/Word.lean ====
section
/-! DEFINITION. The two word types of the machine: the 32-bit word every register, RAM word and datapath value has
(spec/00_scope.md R11, spec/40_numerics.md R180) and the byte a byte lane carries (spec/20_memory.md R105). -/

namespace Sys2Proof

/-- A 32-bit word: a register, a RAM word, a command word or a binary32 pattern (R11, R52, R180). -/
abbrev Word := BitVec 32

/-- One byte lane of a word (R105). -/
abbrev Byte := BitVec 8

end Sys2Proof
end

