-- ==== Sys2Proof/Config.lean ====
section
/-! DEFINITION. What an implementation fixes (spec/00_scope.md R9: LOG2_NMAX and CORE_BASE) and the free values:
the RAM words the spec leaves unspecified (spec/93_implementation_defined.md U1 to U3) and the direction in which a
transcendental function rounds on an operand whose rounding the model's enclosures do not settle (log entry 6). -/

namespace Sys2Proof

/-- The implementation parameters of 00_scope.md R9 that are OPEN (92 D10, D16).  They are plain data in `State`, so
that a statement about every state is a statement about every configuration; no step changes them. -/
structure Params where
  /-- LOG2_NMAX, log2 of the largest transform size (legal 2 .. 15). -/
  log2Nmax : Nat
  /-- CORE_BASE, byte address of the core's register block (legal: a multiple of 2^20). -/
  coreBase : Nat
  deriving DecidableEq, Repr

/-- NMAX = 2^LOG2_NMAX, the words of RE, IM and WIN (R9). -/
def Params.nmax (p : Params) : Nat := 2 ^ p.log2Nmax

/-- The legal parameter values of R9. -/
abbrev Params.Legal (p : Params) : Prop :=
  2 ≤ p.log2Nmax ∧ p.log2Nmax ≤ 15 ∧ p.coreBase % 2 ^ 20 = 0

/-- DESIGN CHOICE (log entry 2): the configuration of `State.reset` is the spec's reference configuration
LOG2_NMAX = 12 (92 D10), with CORE_BASE = 0. -/
def Config.reference : Params := { log2Nmax := 12, coreBase := 0 }

/-- The free value of byte address `addr` (an offset inside the core's window) in draw number `draw`: what `draw()`
of R13 gives, and what a RAM byte nothing has written since a hardware reset holds (R53, R268, R422).
No body: nothing can be proved of its values (log entries 3, 4, 5). -/
opaque Config.freeByte (draw addr : Nat) : Byte

/-- Free value: whether COSF of an operand rounds to the upper one of the two binary32 values the model's last
enclosure leaves (log entry 6). -/
opaque Config.cosRoundsUp (a : Word) : Bool

/-- Free value: as `Config.cosRoundsUp`, for ATANF (log entry 6). -/
opaque Config.atanRoundsUp (a : Word) : Bool

/-- Free value: as `Config.cosRoundsUp`, for LOG10F (log entry 6). -/
opaque Config.log10RoundsUp (a : Word) : Bool

end Sys2Proof
end

