-- ==== Sys2Proof/Syntax.lean ====
section
/-! DEFINITION. The command set SPK-CMD version 1 as syntax: one constructor for each row of spec/opcode_table.json
(spec/30_encoding.md R145), the command errors (spec/60_exceptions.md R383) and the window kinds
(spec/30_encoding.md R144). -/

namespace Sys2Proof

/-- A command.  Its operands are the fields of the command word its row uses (R141, R146): `n` is LOG2N, `c` is COUNT,
`kind` is KIND, each at its encoded width.  A field the row does not use is zero in the word (R147), so it is no
operand. -/
inductive Instr where
  /-- OP 0x0, no operation (R371). -/
  | nop
  /-- OP 0x1, the bit-reversal permutation of 2^n elements (R228). -/
  | bitrev (n : BitVec 4)
  /-- OP 0x2, forward complex FFT of size 2^n (R229). -/
  | cfftFwd (n : BitVec 4)
  /-- OP 0x3, inverse complex FFT of size 2^n (R230). -/
  | cfftInv (n : BitVec 4)
  /-- OP 0x4, forward real FFT of size 2^n (R267). -/
  | rfftFwd (n : BitVec 4)
  /-- OP 0x5, inverse real FFT of size 2^n (R268). -/
  | rfftInv (n : BitVec 4)
  /-- OP 0x6, rectangular-to-polar conversion of c elements (R290). -/
  | polar (c : BitVec 16)
  /-- OP 0x7, generate the window of a kind and size 2^n (R312). -/
  | genwin (kind : BitVec 3) (n : BitVec 4)
  /-- OP 0x8, multiply c samples by the window coefficients (R313). -/
  | winapply (c : BitVec 16)
  /-- OP 0x9, magnitude-to-dB conversion of the 2^n/2 bins of a size-2^n transform (R341). -/
  | dbconv (n : BitVec 4)
  /-- OP 0xA, the whole spectrum pipeline for a window kind and size 2^n (R342). -/
  | spectrum (kind : BitVec 3) (n : BitVec 4)
  deriving DecidableEq, Repr

/-- The command errors of R383, in the order of their codes and of their priority (R384). -/
inductive CmdError where
  /-- Code 1, E_OPCODE: OP is 0xB to 0xF. -/
  | opcode
  /-- Code 2, E_RSVD: RSVD or a field the opcode does not use is nonzero. -/
  | rsvd
  /-- Code 3, E_KIND: GENWIN or SPECTRUM with KIND 6 or 7. -/
  | kind
  /-- Code 4, E_LOG2N: LOG2N below the opcode's minimum or above LOG2_NMAX. -/
  | log2n
  /-- Code 5, E_COUNT: COUNT is 0 or above NMAX. -/
  | count
  deriving DecidableEq, Repr

/-- The six window kinds of R144. -/
inductive WindowKind where
  | rect
  | bartlett
  | hamming
  | hanning
  | blackman
  | welch
  deriving DecidableEq, Repr

end Sys2Proof
end

