-- ==== Sys2Proof/WellFormed.lean ====
section
/-! DEFINITION. Which commands are legal on a core with a given LOG2_NMAX: the table of spec/30_encoding.md R146
(the fields a row does not use are absent from `Instr`, so only the ranges remain). -/

namespace Sys2Proof

/-- nmin ≤ n ≤ LOG2_NMAX (R142, R146). -/
def legalLog2N (log2Nmax nmin : Nat) (n : BitVec 4) : Bool :=
  decide (nmin ≤ n.toNat) && decide (n.toNat ≤ log2Nmax)

/-- 1 ≤ C ≤ NMAX (R143, R146). -/
def legalCount (log2Nmax : Nat) (c : BitVec 16) : Bool :=
  decide (1 ≤ c.toNat) && decide (c.toNat ≤ 2 ^ log2Nmax)

/-- KIND is 0 .. 5 (R144, R146). -/
def legalKind (kind : BitVec 3) : Bool := decide (kind.toNat ≤ 5)

/-- R146: every field of the command is in its legal range on a core with this LOG2_NMAX. -/
def Instr.WellFormed (log2Nmax : Nat) : Instr → Bool
  | .nop => true
  | .bitrev n => legalLog2N log2Nmax 1 n
  | .cfftFwd n => legalLog2N log2Nmax 1 n
  | .cfftInv n => legalLog2N log2Nmax 1 n
  | .rfftFwd n => legalLog2N log2Nmax 2 n
  | .rfftInv n => legalLog2N log2Nmax 2 n
  | .polar c => legalCount log2Nmax c
  | .genwin kind n => legalKind kind && legalLog2N log2Nmax 2 n
  | .winapply c => legalCount log2Nmax c
  | .dbconv n => legalLog2N log2Nmax 1 n
  | .spectrum kind n => legalKind kind && legalLog2N log2Nmax 2 n

end Sys2Proof
end

