-- ==== Sys2Proof/Decode.lean ====
section
/-! DEFINITION. The fields of a command word (spec/30_encoding.md R141), the decoder, the encoder, and the decode
pseudocode of R151.  The decoder refuses by name: E_OPCODE and E_RSVD are the words that are no row of the opcode
table.  A word that is a row but has an operand out of range decodes to that row's instruction, and the
instruction's meaning raises E_KIND, E_LOG2N or E_COUNT; `classify` is R151 whole. -/

namespace Sys2Proof

/-! ## Fields (R141) -/

/-- OP, bits [3:0]. -/
def fieldOp (w : Word) : BitVec 4 := w.extractLsb' 0 4
/-- LOG2N, bits [7:4]. -/
def fieldLog2N (w : Word) : BitVec 4 := w.extractLsb' 4 4
/-- KIND, bits [10:8]. -/
def fieldKind (w : Word) : BitVec 3 := w.extractLsb' 8 3
/-- RSVD, bits [15:11]. -/
def fieldRsvd (w : Word) : BitVec 5 := w.extractLsb' 11 5
/-- COUNT, bits [31:16]. -/
def fieldCount (w : Word) : BitVec 16 := w.extractLsb' 16 16

/-- The code STATUS.ERRCODE reports for a command error (R383). -/
def CmdError.code : CmdError → BitVec 4
  | .opcode => 1
  | .rsvd => 2
  | .kind => 3
  | .log2n => 4
  | .count => 5

/-- The window kind a KIND field names; 6 and 7 are reserved (R144). -/
def WindowKind.ofField (kind : BitVec 3) : Option WindowKind :=
  match kind.toNat with
  | 0 => some .rect
  | 1 => some .bartlett
  | 2 => some .hamming
  | 3 => some .hanning
  | 4 => some .blackman
  | 5 => some .welch
  | _ => none

/-! ## Decoder (R145 to R149) -/

/-- `i` if the word's RSVD, KIND and COUNT are zero, as rows of format N ask; else E_RSVD (R147). -/
def decodeSized (w : Word) (i : Instr) : Except CmdError Instr :=
  if fieldRsvd w = 0 ∧ fieldKind w = 0 ∧ fieldCount w = 0 then .ok i else .error .rsvd

/-- `i` if the word's RSVD, LOG2N and KIND are zero, as rows of format C ask; else E_RSVD (R147). -/
def decodeCounted (w : Word) (i : Instr) : Except CmdError Instr :=
  if fieldRsvd w = 0 ∧ fieldLog2N w = 0 ∧ fieldKind w = 0 then .ok i else .error .rsvd

/-- `i` if the word's RSVD and COUNT are zero, as rows of format KN ask; else E_RSVD (R147). -/
def decodeWindowed (w : Word) (i : Instr) : Except CmdError Instr :=
  if fieldRsvd w = 0 ∧ fieldCount w = 0 then .ok i else .error .rsvd

/-- The instruction a command word encodes, or the error that says it is no row of the table (R145, R147, R148). -/
def decode (w : Word) : Except CmdError Instr :=
  match (fieldOp w).toNat with
  | 0x0 => if w = 0 then .ok .nop else .error .rsvd
  | 0x1 => decodeSized w (.bitrev (fieldLog2N w))
  | 0x2 => decodeSized w (.cfftFwd (fieldLog2N w))
  | 0x3 => decodeSized w (.cfftInv (fieldLog2N w))
  | 0x4 => decodeSized w (.rfftFwd (fieldLog2N w))
  | 0x5 => decodeSized w (.rfftInv (fieldLog2N w))
  | 0x6 => decodeCounted w (.polar (fieldCount w))
  | 0x7 => decodeWindowed w (.genwin (fieldKind w) (fieldLog2N w))
  | 0x8 => decodeCounted w (.winapply (fieldCount w))
  | 0x9 => decodeSized w (.dbconv (fieldLog2N w))
  | 0xA => decodeWindowed w (.spectrum (fieldKind w) (fieldLog2N w))
  | _ => .error .opcode

/-- The first of the checks 3 to 5 of R151 that a decoded instruction fails on a core with this LOG2_NMAX. -/
def Instr.rangeError (log2Nmax : Nat) : Instr → Option CmdError
  | .nop => none
  | .bitrev n => if legalLog2N log2Nmax 1 n then none else some .log2n
  | .cfftFwd n => if legalLog2N log2Nmax 1 n then none else some .log2n
  | .cfftInv n => if legalLog2N log2Nmax 1 n then none else some .log2n
  | .rfftFwd n => if legalLog2N log2Nmax 2 n then none else some .log2n
  | .rfftInv n => if legalLog2N log2Nmax 2 n then none else some .log2n
  | .polar c => if legalCount log2Nmax c then none else some .count
  | .genwin kind n =>
    if !legalKind kind then some .kind else if legalLog2N log2Nmax 2 n then none else some .log2n
  | .winapply c => if legalCount log2Nmax c then none else some .count
  | .dbconv n => if legalLog2N log2Nmax 1 n then none else some .log2n
  | .spectrum kind n =>
    if !legalKind kind then some .kind else if legalLog2N log2Nmax 2 n then none else some .log2n

/-! ## Encoder (R141, R152) -/

/-- The command word with these fields and RSVD = 0: COUNT, RSVD, KIND, LOG2N, OP from the top (R141). -/
def assemble (c : BitVec 16) (kind : BitVec 3) (n : BitVec 4) (op : BitVec 4) : Word :=
  c ++ 0#5 ++ kind ++ n ++ op

/-- The command word of an instruction, absent operands 0 (R145, R152). -/
def encode : Instr → Word
  | .nop => assemble 0 0 0 0x0
  | .bitrev n => assemble 0 0 n 0x1
  | .cfftFwd n => assemble 0 0 n 0x2
  | .cfftInv n => assemble 0 0 n 0x3
  | .rfftFwd n => assemble 0 0 n 0x4
  | .rfftInv n => assemble 0 0 n 0x5
  | .polar c => assemble c 0 0 0x6
  | .genwin kind n => assemble 0 kind n 0x7
  | .winapply c => assemble c 0 0 0x8
  | .dbconv n => assemble 0 0 n 0x9
  | .spectrum kind n => assemble 0 kind n 0xA

/-! ## R151 as the spec writes it -/

/-- "op uses LOG2N" (R146). -/
def opUsesLog2N (op : Nat) : Bool := op ∈ [0x1, 0x2, 0x3, 0x4, 0x5, 0x7, 0x9, 0xA]
/-- "op uses KIND" (R146). -/
def opUsesKind (op : Nat) : Bool := op ∈ [0x7, 0xA]
/-- "op uses COUNT" (R146). -/
def opUsesCount (op : Nat) : Bool := op ∈ [0x6, 0x8]
/-- nmin(op), the lower bound of R146 for an op that uses LOG2N. -/
def opNmin (op : Nat) : Nat := if op ∈ [0x4, 0x5, 0x7, 0xA] then 2 else 1

/-- R151: the first failing check of a command word on a core with this LOG2_NMAX; `none` if the command is legal. -/
def classify (log2Nmax : Nat) (w : Word) : Option CmdError :=
  let op := (fieldOp w).toNat
  let n := (fieldLog2N w).toNat
  let kind := (fieldKind w).toNat
  let c := (fieldCount w).toNat
  if 0xB ≤ op then some .opcode
  else if fieldRsvd w ≠ 0 ∨ (opUsesLog2N op = false ∧ n ≠ 0) ∨ (opUsesKind op = false ∧ kind ≠ 0) ∨
      (opUsesCount op = false ∧ c ≠ 0) then some .rsvd
  else if opUsesKind op = true ∧ 6 ≤ kind then some .kind
  else if opUsesLog2N op = true ∧ ¬ (opNmin op ≤ n ∧ n ≤ log2Nmax) then some .log2n
  else if opUsesCount op = true ∧ ¬ (1 ≤ c ∧ c ≤ 2 ^ log2Nmax) then some .count
  else none

/-! ## The host's reading of the opcode table -/

/-- The instruction the decoder reads from the command word whose low `nbits` bits are those of `w` and whose other
bits are 0.  A command is one 32-bit word (R140), bit 0 its least significant, so the word needs no laying out. -/
def decodeTableWord (nbits w : Nat) : Option Instr :=
  match decode (BitVec.ofNat 32 (w % 2 ^ nbits)) with
  | .ok i => some i
  | .error _ => none

end Sys2Proof
end

