-- ==== Sys2Proof/Machine/State.lean ====
section
/-! DEFINITION. The machine's state as plain data (spec/10_state.md R40), the reasons a step can stop, the memory in
its canonical form, and the state after hardware reset (spec/70_reset_and_hazards.md R421). -/

namespace Sys2Proof.Machine

/-- Why the machine stops.  Nothing raises the one reason there is: the core reports every error as a next state
(60_exceptions.md R380, R382, R387) and answers every transaction (70_reset_and_hazards.md R434). -/
inductive Fault where
  /-- Raised by nobody (log entry 8).  Safe: a stop that cannot happen lets no false claim be proved. -/
  | unreachable
  deriving DecidableEq, Repr

/-- Why an instruction has no meaning. -/
inductive Refusal where
  /-- Raised only by an arm of `exec` whose instruction has no meaning yet.  Safe: the model stops where the hardware
  goes on. -/
  | notModelled (mnemonic : String)
  deriving DecidableEq, Repr

/-- RAM contents: (byte offset inside the core's window, byte) pairs (20_memory.md R101, R105). -/
abbrev Memory := List Host.Cell

/-- The canonical form of a memory: addresses strictly rising.  An unlisted byte holds a free value, which no listed
byte is known to equal, so there is no entry to leave out (log entry 3). -/
abbrev Memory.wf (m : Memory) : Prop := m.Pairwise fun x y => x.1 < y.1

/-- WINTAG's fields (10_state.md R66). -/
structure WinTag where
  /-- Bit [0]: WIN[0 .. 2^LOG2N) holds the window (KIND, LOG2N). -/
  valid : Bool
  /-- Bits [6:4]. -/
  kind : BitVec 3
  /-- Bits [11:8]. -/
  log2n : BitVec 4
  deriving DecidableEq, Repr

/-- WINTAG = 0 (R66). -/
def WinTag.zero : WinTag := { valid := false, kind := 0, log2n := 0 }

/-- One turn of one of the three agents (log entry 1).  `lanes` are the transaction's byte lanes, bit k for lane k,
1 for enabled (20_memory.md R105, R107). -/
inductive Turn where
  /-- The host's Read(addr, size) (R100, R103). -/
  | read (addr size : Nat) (lanes : BitVec 4)
  /-- The host's Write(addr, size, wdata) (R100, R104). -/
  | write (addr size : Nat) (lanes : BitVec 4) (wdata : Word)
  /-- The core's EXECUTE step (R370). -/
  | execute
  /-- The platform asserts the hardware reset input (R420). -/
  | hardReset
  deriving DecidableEq, Repr

/-- What a host transaction gives back (R100): a read returns read data and a response, a write a response.
`okay` is true for OKAY and false for ERROR. -/
inductive Response where
  | read (rdata : Word) (okay : Bool)
  | write (okay : Bool)
  deriving DecidableEq, Repr

/-- The state of one core (10_state.md R40) and of the environment it runs in. -/
structure State where
  /-- LOG2_NMAX and CORE_BASE (00_scope.md R9). -/
  params : Params
  /-- CMD, the latched command word (R63). -/
  cmd : Word
  /-- STATUS.BUSY (R64). -/
  busy : Bool
  /-- STATUS.DONE (R64). -/
  done : Bool
  /-- STATUS.ERR (R64). -/
  err : Bool
  /-- STATUS.ERRCODE (R64). -/
  errcode : BitVec 4
  /-- CTRL.IE (R65). -/
  ie : Bool
  /-- WINTAG (R66). -/
  winTag : WinTag
  /-- RE, IM, WIN and DB (R50), keyed by byte offset (20_memory.md R101). -/
  mem : Memory
  /-- Model's own (log entry 3): the draw that fills the RAM bytes nothing has written since the hardware reset. -/
  powerDraw : Nat
  /-- Model's own (log entry 3): the number of the next draw of free values. -/
  draws : Nat
  /-- Model's own (log entry 1): the turns still to be taken, next one first. -/
  turns : List Turn
  /-- Model's own (log entry 1): the responses given so far, oldest first (R435). -/
  responses : List Response
  deriving DecidableEq, Repr

/-- The state right after hardware reset (R69, R421): registers at their reset values, no RAM word written. -/
def State.reset : State where
  params := Config.reference
  cmd := 0
  busy := false
  done := false
  err := false
  errcode := 0
  ie := false
  winTag := WinTag.zero
  mem := []
  powerDraw := 0
  draws := 1
  turns := []
  responses := []

end Sys2Proof.Machine
end

