-- ==== Sys2Proof/Machine/Ops.lean ====
section
/-! DEFINITION. The named operations over the state: RAM bytes and words (spec/20_memory.md R101, R105, R120), the
bounded loops of the pseudocode (spec/00_scope.md R13), draws of free words, acceptance and completion of a command
(spec/10_state.md R63, spec/46_control.md R370), the command error and the acknowledgement that follows it
(spec/60_exceptions.md R386, R388). -/

namespace Sys2Proof.Machine

/-! ## Loops (R13) -/

/-- `for i in a .. a+k-1`: the body is applied for i = a, a+1, …, in increasing order. -/
def forFrom {σ : Type} (body : Nat → σ → σ) : (a k : Nat) → σ → σ
  | _, 0, x => x
  | a, k + 1, x => forFrom body (a + 1) k (body a x)

/-! ## Bytes and words of memory (R105) -/

/-- The listed byte at an address, if there is one. -/
def Memory.readByte : Memory → Nat → Option Byte
  | [], _ => none
  | (b, v) :: m, a => if a = b then some v else Memory.readByte m a

/-- Make `v` the byte at address `a`, keeping the addresses strictly rising. -/
def Memory.writeByte : Memory → Nat → Byte → Memory
  | [], a, v => [(a, v)]
  | (b, u) :: m, a, v =>
    if a < b then (a, v) :: (b, u) :: m
    else if a = b then (a, v) :: m
    else (b, u) :: Memory.writeByte m a v

/-- Byte lane k of a word: bits [8k+7:8k] (R105). -/
def laneByte (w : Word) (k : Nat) : Byte := w.extractLsb' (8 * k) 8

/-- Write a word at byte address `a`, lane 0 at the lowest address (R105). -/
def Memory.writeWord (m : Memory) (a : Nat) (w : Word) : Memory :=
  (((m.writeByte a (laneByte w 0)).writeByte (a + 1) (laneByte w 1)).writeByte (a + 2) (laneByte w 2)).writeByte
    (a + 3) (laneByte w 3)

/-- Write the words `w 0 … w (n-1)` at byte addresses `a, a+4, …`. -/
def Memory.writeWords (m : Memory) (a : Nat) (w : Nat → Word) : Nat → Memory
  | 0 => m
  | n + 1 => (Memory.writeWords m a w n).writeWord (a + 4 * n) (w n)

/-- What an unlisted byte reads as: the free value its address was given at the last hardware reset (R53, U1;
log entry 3). -/
def State.unlistedByte (s : State) (a : Nat) : Byte := Config.freeByte s.powerDraw a

/-- The byte at a byte offset of the core's window. -/
def State.byteAt (s : State) (a : Nat) : Byte := (s.mem.readByte a).getD (s.unlistedByte a)

/-- The word at a byte offset: lane 0 at the lowest address (R105). -/
def State.wordAt (s : State) (a : Nat) : Word :=
  s.byteAt (a + 3) ++ s.byteAt (a + 2) ++ s.byteAt (a + 1) ++ s.byteAt a

/-- The free word that draw number `d` gives byte offset `a` (R13's `draw()`). -/
def freeWord (d a : Nat) : Word :=
  Config.freeByte d (a + 3) ++ Config.freeByte d (a + 2) ++ Config.freeByte d (a + 1) ++ Config.freeByte d a

/-! ## The four data RAMs (10_state.md R50, 20_memory.md R101) -/

/-- The data RAMs. -/
inductive Ram where
  | re
  | im
  | win
  | db
  deriving DecidableEq, Repr

/-- The offset of a RAM's window (R101). -/
def Ram.base : Ram → Nat
  | .re => 0x20000
  | .im => 0x40000
  | .win => 0x60000
  | .db => 0x80000

/-- The number of words of a RAM: NMAX, or NMAX/2 for DB (R50). -/
def Ram.words (log2Nmax : Nat) : Ram → Nat
  | .re => 2 ^ log2Nmax
  | .im => 2 ^ log2Nmax
  | .win => 2 ^ log2Nmax
  | .db => 2 ^ log2Nmax / 2

/-- `RAM[i]`: read word i of a RAM (R13, R120). -/
def State.ram (s : State) (r : Ram) (i : Nat) : Word := s.wordAt (r.base + 4 * i)

/-- `for i in 0 .. n-1: RAM[i] <- w i`: write the first n words of a RAM (R13, R120). -/
def State.setRam (s : State) (r : Ram) (n : Nat) (w : Nat → Word) : State :=
  { s with mem := s.mem.writeWords r.base w n }

/-- `RAM[i] <- v`: write one word (R13, R120). -/
def State.setRamWord (s : State) (r : Ram) (i : Nat) (v : Word) : State :=
  { s with mem := s.mem.writeWord (r.base + 4 * i) v }

/-- The first n words of a RAM, as a buffer. -/
def State.loadRam (s : State) (r : Ram) (n : Nat) : List Word := (List.range n).map (s.ram r)

/-- Each of the first n words of a RAM becomes a free value of the current draw (R13's `draw()`). -/
def State.drawRam (s : State) (r : Ram) (n : Nat) : State :=
  s.setRam r n fun i => freeWord s.draws (r.base + 4 * i)

/-- The current draw is used up: the next free values are new ones. -/
def State.nextDraw (s : State) : State := { s with draws := s.draws + 1 }

/-! ## Accepting, completing and rejecting a command -/

/-- An accepted CMD write (10_state.md R63, 60_exceptions.md R385). -/
def State.latchCommand (s : State) (w : Word) : State :=
  { s with cmd := w, busy := true, done := false, err := false, errcode := 0 }

/-- The end of a legal command: DONE <- 1, BUSY <- 0 (46_control.md R370, R372). -/
def State.complete (s : State) : State := { s with done := true, busy := false }

/-- Taking a command error, the machine's one exception: ERRCODE <- code, ERR <- 1, BUSY <- 0, and nothing else
(60_exceptions.md R386, R387). -/
def State.raiseCmdError (s : State) (e : CmdError) : State :=
  { s with errcode := e.code, err := true, busy := false }

/-- The return from an error, and the acknowledgement of a completion: a STATUS write clears DONE where bit 1 of the
data is 1, and ERR with ERRCODE where bit 2 is 1 (10_state.md R64, 60_exceptions.md R388). -/
def State.acknowledge (s : State) (wdata : Word) : State :=
  { s with
    done := if wdata.getLsbD 1 then false else s.done
    err := if wdata.getLsbD 2 then false else s.err
    errcode := if wdata.getLsbD 2 then 0 else s.errcode }

/-- WINTAG <- (VALID = 1, KIND = kind, LOG2N = n) (R66, R312, R342). -/
def State.setWinTag (s : State) (kind : BitVec 3) (n : BitVec 4) : State :=
  { s with winTag := { valid := true, kind := kind, log2n := n } }

/-- WINTAG <- 0 (R66). -/
def State.clearWinTag (s : State) : State := { s with winTag := WinTag.zero }

end Sys2Proof.Machine
end

