-- ==== Sys2Proof/Machine/Flags.lean ====
section
/-! DEFINITION. The registers as the host reads them and the interrupt output: ID, CONFIG, STATUS, CTRL, WINTAG
(spec/10_state.md R61 to R66) and irq (spec/10_state.md R68). Reserved bits read 0. -/

namespace Sys2Proof.Machine

/-- ID (R61): ASCII "SPK1". -/
def idWord : Word := 0x53504B31

/-- CONFIG (R62): CMDVER = 1 in [15:8], FMT = 0 in [7:4], LOG2_NMAX in [3:0]. -/
def configWord (p : Params) : Word := 0#16 ++ 1#8 ++ 0#4 ++ BitVec.ofNat 4 p.log2Nmax

/-- STATUS (R64): ERRCODE in [7:4], ERR in [2], DONE in [1], BUSY in [0]. -/
def State.statusWord (s : State) : Word :=
  0#24 ++ s.errcode ++ 0#1 ++ BitVec.ofBool s.err ++ BitVec.ofBool s.done ++ BitVec.ofBool s.busy

/-- CTRL (R65): IE in [0]; SRST always reads 0. -/
def State.ctrlWord (s : State) : Word := 0#31 ++ BitVec.ofBool s.ie

/-- WINTAG (R66): LOG2N in [11:8], KIND in [6:4], VALID in [0]. -/
def State.winTagWord (s : State) : Word :=
  0#20 ++ s.winTag.log2n ++ 0#1 ++ s.winTag.kind ++ 0#3 ++ BitVec.ofBool s.winTag.valid

/-- irq = CTRL.IE and (STATUS.DONE or STATUS.ERR) (R68, 60_exceptions.md R389). -/
def State.irq (s : State) : Bool := s.ie && (s.done || s.err)

/-- Whether WINTAG records exactly the window (kind, n): a SPECTRUM tag hit (45_db_pipeline.md R342). -/
def State.tagHit (s : State) (kind : BitVec 3) (n : BitVec 4) : Bool :=
  s.winTag.valid && (s.winTag.kind == kind) && (s.winTag.log2n == n)

end Sys2Proof.Machine
end

