-- ==== Sys2Proof/Machine/Operands.lean ====
section
/-! DEFINITION. The operand forms of a command (spec/30_encoding.md R142 to R144): how a meaning runs on a size
2^n, on a count C or on a window kind when the operand is legal, and which command error it raises when it is not
(spec/30_encoding.md R146, R151, spec/60_exceptions.md R383); and the write set of a command (spec/10_state.md R51). -/

namespace Sys2Proof.Machine

/-- Run a command on its LOG2N operand: E_LOG2N outside nmin .. LOG2_NMAX, else the body and completion (R142). -/
def State.runSized (s : State) (nmin : Nat) (n : BitVec 4) (body : State → State) :
    Host.Outcome State Fault Refusal :=
  if legalLog2N s.params.log2Nmax nmin n then .next (body s).complete else .next (s.raiseCmdError .log2n)

/-- Run a command on its COUNT operand: E_COUNT outside 1 .. NMAX, else the body and completion (R143). -/
def State.runCounted (s : State) (c : BitVec 16) (body : State → State) : Host.Outcome State Fault Refusal :=
  if legalCount s.params.log2Nmax c then .next (body s).complete else .next (s.raiseCmdError .count)

/-- Run a command on its KIND and LOG2N operands: E_KIND for a reserved kind, checked before the size (R144, R151). -/
def State.runWindowed (s : State) (kind : BitVec 3) (n : BitVec 4) (body : WindowKind → State → State) :
    Host.Outcome State Fault Refusal :=
  match WindowKind.ofField kind with
  | none => .next (s.raiseCmdError .kind)
  | some k => s.runSized 2 n (body k)

/-- The write set of a legal command: (RAM, number of its first words) pairs (R51's table).  `tagHit` says whether
WINTAG matches a SPECTRUM's (kind, n). -/
def writeSet (tagHit : Bool) : Instr → List (Ram × Nat)
  | .nop => []
  | .bitrev n => [(.re, 2 ^ n.toNat), (.im, 2 ^ n.toNat)]
  | .cfftFwd n => [(.re, 2 ^ n.toNat), (.im, 2 ^ n.toNat)]
  | .cfftInv n => [(.re, 2 ^ n.toNat), (.im, 2 ^ n.toNat)]
  | .rfftFwd n => [(.re, 2 ^ n.toNat), (.im, 2 ^ n.toNat)]
  | .rfftInv n => [(.re, 2 ^ n.toNat), (.im, 2 ^ n.toNat)]
  | .polar c => [(.re, c.toNat), (.im, c.toNat)]
  | .genwin _ n => [(.win, 2 ^ n.toNat)]
  | .winapply c => [(.re, c.toNat)]
  | .dbconv n => [(.db, 2 ^ n.toNat / 2)]
  | .spectrum _ n =>
    (if tagHit then [] else [(.win, 2 ^ n.toNat)]) ++
      [(.re, 2 ^ n.toNat), (.im, 2 ^ n.toNat), (.db, 2 ^ n.toNat / 2)]

/-- Whether WINTAG matches the window an instruction asks for (only SPECTRUM asks). -/
def State.instrTagHit (s : State) : Instr → Bool
  | .nop => false
  | .bitrev _ => false
  | .cfftFwd _ => false
  | .cfftInv _ => false
  | .rfftFwd _ => false
  | .rfftInv _ => false
  | .polar _ => false
  | .genwin _ _ => false
  | .winapply _ => false
  | .dbconv _ => false
  | .spectrum kind n => s.tagHit kind n

/-- The write set of a decoded command in a state: empty if the command is rejected (R51, R387, R422). -/
def State.writeSetOf (s : State) (i : Instr) : List (Ram × Nat) :=
  match i.rangeError s.params.log2Nmax with
  | some _ => []
  | none => writeSet (s.instrTagHit i) i

end Sys2Proof.Machine
end

