-- ==== Sys2Proof/Machine/Control.lean ====
section
/-! DEFINITION. The command without a data effect (spec/46_control.md): NOP. -/

namespace Sys2Proof.Machine

/-- NOP (R371): nothing but completion. -/
def execNop (s : State) : Host.Outcome State Fault Refusal := .next s.complete

end Sys2Proof.Machine
end

