-- ==== Sys2Proof/Machine/Float.lean ====
section
/-! DEFINITION. The binary32 primitives of spec/40_numerics.md (R180 to R190) and the constants of R195. Each
arithmetic primitive forms its exact result as a rational number and rounds it once with `RN`. -/

namespace Sys2Proof.Machine

/-! ## Format (R180) -/

/-- The sign bit s. -/
def isNeg (a : Word) : Bool := a.getLsbD 31
/-- The biased exponent E, bits [30:23]. -/
def expField (a : Word) : Nat := (a.extractLsb' 23 8).toNat
/-- The fraction F, bits [22:0]. -/
def fracField (a : Word) : Nat := (a.extractLsb' 0 23).toNat

/-- Class zero: +0 or −0. -/
def isZero (a : Word) : Bool := expField a == 0 && fracField a == 0
/-- Class infinity. -/
def isInf (a : Word) : Bool := expField a == 255 && fracField a == 0
/-- Class NaN, quiet or signalling. -/
def isNaN (a : Word) : Bool := expField a == 255 && fracField a != 0
/-- Zero, subnormal or normal. -/
def isFinite (a : Word) : Bool := expField a != 255

/-- |val(a)| for a finite a: F · 2^−149, or (2^23 + F) · 2^(E−150). -/
def magVal (a : Word) : ℚ :=
  if expField a = 0 then (fracField a : ℚ) / 2 ^ 149
  else ((2 ^ 23 + fracField a : Nat) : ℚ) * 2 ^ (expField a - 1) / 2 ^ 149

/-- val(a), the exact value of a finite a. -/
def val (a : Word) : ℚ := if isNeg a then -magVal a else magVal a

/-- The canonical NaN (R183). -/
def canonicalNaN : Word := 0x7FC00000
/-- +∞. -/
def plusInf : Word := 0x7F800000
/-- −∞. -/
def minusInf : Word := 0xFF800000
/-- −0. -/
def minusZero : Word := 0x80000000

/-- The word with sign s and the 31 bits of a magnitude pattern. -/
def pack (s : Bool) (mag : Nat) : Word := BitVec.ofNat 32 ((if s then 2 ^ 31 else 0) + mag)

/-- (−1)^s · 0. -/
def signedZero (s : Bool) : Word := pack s 0
/-- (−1)^s · ∞. -/
def signedInf (s : Bool) : Word := pack s 0x7F800000

/-! ## Rounding (R181, R182) -/

/-- The exponent k of the spacing 2^k · 2^−149 of the binary32 values around x ≥ 0, x = num/den in units of 2^−149. -/
def spacingExp (num den : Nat) : Nat := Nat.log2 (num / den) - 23

/-- num/d to the nearest integer, a tie to the even one. -/
def roundHalfEven (num d : Nat) : Nat :=
  if d < 2 * (num % d) ∨ (2 * (num % d) = d ∧ num / d % 2 = 1) then num / d + 1 else num / d

/-- The magnitude pattern of RN(x) for x = num/den ≥ 0 in units of 2^−149.  With spacing exponent k and significand t
the pattern is k · 2^23 + t, for subnormal and normal results alike; a carry of t into 2^24 lands on the next
exponent, and every pattern from 0x7F800000 up is infinity, which is the overflow threshold 2^128 − 2^103. -/
def roundMag (num den : Nat) : Nat :=
  min (spacingExp num den * 2 ^ 23 + roundHalfEven num (den * 2 ^ spacingExp num den)) 0x7F800000

/-- The magnitude pattern of RN(|x|). -/
def rnMag (x : ℚ) : Nat := roundMag (x.num.natAbs * 2 ^ 149) x.den

/-- RN(x): x rounded to binary32, to nearest, ties to even, with the sign of x (R181).  RN(0) = +0. -/
def RN (x : ℚ) : Word := pack (decide (x < 0)) (rnMag x)

/-! ## Arithmetic (R184 to R190) -/

/-- fneg(a): bit 31 inverted, every other bit kept (R189). -/
def fneg (a : Word) : Word := a ^^^ 0x80000000

/-- fadd(a, b) (R184). -/
def fadd (a b : Word) : Word :=
  if isNaN a || isNaN b then canonicalNaN
  else if (a = plusInf ∧ b = minusInf) ∨ (a = minusInf ∧ b = plusInf) then canonicalNaN
  else if isInf a then a
  else if isInf b then b
  else if val a + val b = 0 then (if a = minusZero ∧ b = minusZero then minusZero else 0)
  else RN (val a + val b)

/-- fsub(a, b) = fadd(a, fneg(b)) (R184). -/
def fsub (a b : Word) : Word := fadd a (fneg b)

/-- fmul(a, b) (R185). -/
def fmul (a b : Word) : Word :=
  let s := isNeg a ^^ isNeg b
  if isNaN a || isNaN b then canonicalNaN
  else if (isInf a && isZero b) || (isZero a && isInf b) then canonicalNaN
  else if isInf a || isInf b then signedInf s
  else if val a * val b = 0 ∨ rnMag (val a * val b) = 0 then signedZero s
  else RN (val a * val b)

/-- fdiv(a, b) (R186). -/
def fdiv (a b : Word) : Word :=
  let s := isNeg a ^^ isNeg b
  if isNaN a || isNaN b then canonicalNaN
  else if (isInf a && isInf b) || (isZero a && isZero b) then canonicalNaN
  else if isInf a then signedInf s
  else if isInf b then signedZero s
  else if isZero b then signedInf s
  else if val a / val b = 0 ∨ rnMag (val a / val b) = 0 then signedZero s
  else RN (val a / val b)

/-- The bits i-1 … 0 of the integer square root of n, below a root r found so far. -/
def isqrtFrom (n : Nat) : Nat → Nat → Nat
  | 0, r => r
  | i + 1, r => if (r + 2 ^ i) * (r + 2 ^ i) ≤ n then isqrtFrom n i (r + 2 ^ i) else isqrtFrom n i r

/-- ⌊√n⌋. -/
def isqrt (n : Nat) : Nat := isqrtFrom n (Nat.log2 n / 2 + 1) 0

/-- RN(√x) for a binary32 x > 0.  In units of 2^−149 the root is √m with m = x · 2^298, an integer.  With q = ⌊√m⌋ the
root is q or lies strictly between q and q + 1; every rounding boundary near it is an integer, so the root rounds as q
or as q + 1/2 does. -/
def rnSqrt (x : ℚ) : Word :=
  let m := (x * 2 ^ 298).num.natAbs
  let q := isqrt m
  pack false (roundMag (2 * q + (if q * q = m then 0 else 1)) 2)

/-- fsqrt(a) (R187). -/
def fsqrt (a : Word) : Word :=
  if isNaN a then canonicalNaN
  else if isZero a then a
  else if isNeg a then canonicalNaN
  else if isInf a then plusInf
  else rnSqrt (val a)

/-- i2f(k): RN(k), and +0 for k = 0 (R188). -/
def i2f (k : Int) : Word := RN k

/-- flt(a, b): the quiet comparison a < b (R190). -/
def flt (a b : Word) : Bool :=
  if isNaN a || isNaN b then false
  else if isInf a then isNeg a && !(isInf b && isNeg b)
  else if isInf b then !isNeg b
  else decide (val a < val b)

/-! ## Constants (R195) -/

/-- 0. -/
def ZERO : Word := 0x00000000
/-- 1. -/
def ONE : Word := 0x3F800000
/-- 2. -/
def TWO : Word := 0x40000000
/-- 0.5. -/
def HALF : Word := 0x3F000000
/-- 20. -/
def TWENTY : Word := 0x41A00000
/-- −100. -/
def M100 : Word := 0xC2C80000
/-- RN(π). -/
def PI_F : Word := 0x40490FDB
/-- RN(−π). -/
def NEG_PI_F : Word := 0xC0490FDB
/-- RN(2π). -/
def TWO_PI_F : Word := 0x40C90FDB
/-- RN(4π). -/
def FOUR_PI_F : Word := 0x41490FDB
/-- RN(0.54). -/
def C054 : Word := 0x3F0A3D71
/-- RN(0.46). -/
def C046 : Word := 0x3EEB851F
/-- RN(0.42). -/
def C042 : Word := 0x3ED70A3D
/-- RN(0.08). -/
def C008 : Word := 0x3DA3D70A

end Sys2Proof.Machine
end

