-- ==== Sys2Proof/Machine/Transcendental.lean ====
section
/-! DEFINITION. COSF, ATANF and LOG10F (spec/40_numerics.md R191 to R193): the exact mathematical function of the exact
argument, rounded once with RN. The exact value is enclosed between two rationals, at a growing precision, until both
ends round to the same binary32; that binary32 is then RN of the exact value. Where no tried precision settles the
rounding, which of the two ends is rounded is a free value of the operand (log entry 6). How the hardware computes the functions is not
architectural (spec/93_implementation_defined.md U6). -/

namespace Sys2Proof.Machine

/-- A closed rational interval that holds a real number. -/
structure Enclosure where
  lo : ℚ
  hi : ℚ
  deriving DecidableEq, Repr

/-- The enclosure of −x for an x in e. -/
def Enclosure.neg (e : Enclosure) : Enclosure := ⟨-e.hi, -e.lo⟩

/-- The enclosure of x + y. -/
def Enclosure.add (e f : Enclosure) : Enclosure := ⟨e.lo + f.lo, e.hi + f.hi⟩

/-- The enclosure of c · x, for a rational c of either sign. -/
def Enclosure.scale (c : ℚ) (e : Enclosure) : Enclosure :=
  if 0 ≤ c then ⟨c * e.lo, c * e.hi⟩ else ⟨c * e.hi, c * e.lo⟩

/-- The enclosure of x / y for a y in f, where f.lo > 0. -/
def Enclosure.divPos (e f : Enclosure) : Enclosure :=
  ⟨if 0 ≤ e.lo then e.lo / f.hi else e.lo / f.lo, if 0 ≤ e.hi then e.hi / f.lo else e.hi / f.hi⟩

/-- The enclosure widened by w ≥ 0 on both sides. -/
def Enclosure.widen (w : ℚ) (e : Enclosure) : Enclosure := ⟨e.lo - w, e.hi + w⟩

/-- The ends moved outwards to multiples of 2^−p. -/
def Enclosure.coarsen (p : Nat) (e : Enclosure) : Enclosure :=
  ⟨(⌊e.lo * 2 ^ p⌋ : ℚ) / 2 ^ p, (⌈e.hi * 2 ^ p⌉ : ℚ) / 2 ^ p⟩

/-- RN of every number of the enclosure, if the ends have the same sign and round alike. -/
def Enclosure.rounded (e : Enclosure) : Option Word :=
  if (0 < e.lo ∨ e.hi < 0) ∧ RN e.lo = RN e.hi then some (RN e.lo) else none

/-- The result at the first precision that settles the rounding. -/
def firstRounded (f : Nat → Enclosure) : List Nat → Option Word
  | [] => none
  | p :: ps =>
    match (f p).rounded with
    | some w => some w
    | none => firstRounded f ps

/-- The precisions tried, in bits. -/
def precisions : List Nat := [80, 160]

/-- The precision tried last, in bits. -/
def lastPrecision : Nat := 320

/-- The rounded value of what `f` encloses: settled at some precision, or else one of the last enclosure's rounded
ends, the upper one if `up`. -/
def roundEnclosed (up : Bool) (f : Nat → Enclosure) : Word :=
  match firstRounded f (precisions ++ [lastPrecision]) with
  | some w => w
  | none => if up then RN (f lastPrecision).hi else RN (f lastPrecision).lo

/-! ## Arctangent and π -/

/-- (−1)^k. -/
def altSign (k : Nat) : ℚ := if k % 2 = 0 then 1 else -1

/-- The first n terms of z − z³/3 + z⁵/5 − … . -/
def atanSum (z : ℚ) : Nat → ℚ
  | 0 => 0
  | n + 1 => atanSum z n + altSign n * z ^ (2 * n + 1) / (2 * n + 1 : Nat)

/-- arctan z for 0 ≤ z ≤ 1: between an even and the next odd number of terms of the alternating series. -/
def atanSeries (z : ℚ) (m : Nat) : Enclosure := ⟨atanSum z (2 * m), atanSum z (2 * m + 1)⟩

/-- arctan z for |z| ≤ 1, by oddness. -/
def atanSmall (z : ℚ) (m : Nat) : Enclosure := if 0 ≤ z then atanSeries z m else (atanSeries (-z) m).neg

/-- π = 16 arctan(1/5) − 4 arctan(1/239), to about p bits. -/
def piEnclosure (p : Nat) : Enclosure :=
  (((atanSeries (1 / 5) (p / 8 + 1)).scale 16).add ((atanSeries (1 / 239) (p / 16 + 1)).scale (-4))).coarsen p

/-- arctan x for x ≥ 0: the series, or π/4 + arctan((x−1)/(x+1)), or π/2 − arctan(1/x). -/
def atanNonneg (p : Nat) (x : ℚ) : Enclosure :=
  if x ≤ 1 / 2 then atanSeries x (p / 4 + 1)
  else if x ≤ 2 then ((piEnclosure p).scale (1 / 4)).add (atanSmall ((x - 1) / (x + 1)) (p / 6 + 1))
  else ((piEnclosure p).scale (1 / 2)).add (atanSeries (1 / x) (p / 4 + 1)).neg

/-- arctan x, to about p bits. -/
def atanEnclosure (p : Nat) (x : ℚ) : Enclosure :=
  if 0 ≤ x then atanNonneg p x else (atanNonneg p (-x)).neg

/-- ATANF(a) (R192). -/
def ATANF (a : Word) : Word :=
  if isNaN a then canonicalNaN
  else if isZero a then a
  else if a = plusInf then 0x3FC90FDB
  else if a = minusInf then 0xBFC90FDB
  else roundEnclosed (Config.atanRoundsUp a) fun p => atanEnclosure p (val a)

/-! ## Cosine -/

/-- The first n terms of 1 − r²/2! + r⁴/4! − … . -/
def cosSum (r : ℚ) : Nat → ℚ
  | 0 => 0
  | n + 1 => cosSum r n + altSign n * r ^ (2 * n) / ((2 * n).factorial : Nat)

/-- The first n terms of r − r³/3! + r⁵/5! − … . -/
def sinSum (r : ℚ) : Nat → ℚ
  | 0 => 0
  | n + 1 => sinSum r n + altSign n * r ^ (2 * n + 1) / ((2 * n + 1).factorial : Nat)

/-- cos r for r ≥ 0: between an even and the next odd number of terms. -/
def cosSeries (r : ℚ) (m : Nat) : Enclosure := ⟨cosSum r (2 * m), cosSum r (2 * m + 1)⟩

/-- sin r for r ≥ 0: between an even and the next odd number of terms. -/
def sinSeries (r : ℚ) (m : Nat) : Enclosure := ⟨sinSum r (2 * m), sinSum r (2 * m + 1)⟩

/-- cos x for x ≥ 0, to about p bits.  x = k · π/2 + ρ with ρ in the coarsened enclosure r of x − k · π/2; the series
are taken at r.lo and widened by the enclosure's width, since sine and cosine move by at most that much. -/
def cosEnclosure (p : Nat) (x : ℚ) : Enclosure :=
  let q := p + Nat.log2 x.num.natAbs + 2
  let pi := piEnclosure q
  let k := ⌊x * 2 / pi.hi⌋.toNat
  let r := (Enclosure.mk (x - k * pi.hi / 2) (x - k * pi.lo / 2)).coarsen p
  let c := (cosSeries r.lo (p / 8 + 2)).widen (r.hi - r.lo)
  let s := (sinSeries r.lo (p / 8 + 2)).widen (r.hi - r.lo)
  if k % 4 = 0 then c else if k % 4 = 1 then s.neg else if k % 4 = 2 then c.neg else s

/-- COSF(a) (R191); cosine is even, so only |val(a)| counts. -/
def COSF (a : Word) : Word :=
  if isNaN a || isInf a then canonicalNaN
  else if isZero a then 0x3F800000
  else roundEnclosed (Config.cosRoundsUp a) fun p => cosEnclosure p (magVal a)

/-! ## Decimal logarithm -/

/-- The first n terms of z + z³/3 + z⁵/5 + … . -/
def atanhSum (z : ℚ) : Nat → ℚ
  | 0 => 0
  | n + 1 => atanhSum z n + z ^ (2 * n + 1) / (2 * n + 1 : Nat)

/-- artanh z for 0 ≤ z < 1: n terms, and n terms with a bound on the rest. -/
def atanhSeries (z : ℚ) (n : Nat) : Enclosure :=
  ⟨atanhSum z n, atanhSum z n + z ^ (2 * n + 1) / ((2 * n + 1 : Nat) * (1 - z ^ 2))⟩

/-- artanh z for |z| < 1, by oddness. -/
def atanhSmall (z : ℚ) (n : Nat) : Enclosure := if 0 ≤ z then atanhSeries z n else (atanhSeries (-z) n).neg

/-- ln y = 2 artanh((y−1)/(y+1)) for y > 0. -/
def lnNearOne (p : Nat) (y : ℚ) : Enclosure := (atanhSmall ((y - 1) / (y + 1)) (p / 4 + 2)).scale 2

/-- The exponent of the largest power of two at most x, for a multiple x > 0 of 2^−149. -/
def binaryExponent (x : ℚ) : Int := (Nat.log2 (x * 2 ^ 149).num.natAbs : Int) - 149

/-- The exponent e for which x · 2^−e lies in (2/3, 4/3]. -/
def logExponent (x : ℚ) : Int :=
  if x / 2 ^ binaryExponent x ≤ 4 / 3 then binaryExponent x else binaryExponent x + 1

/-- ln x = e · ln 2 + ln(x · 2^−e), to about p bits. -/
def lnEnclosure (p : Nat) (x : ℚ) : Enclosure :=
  ((lnNearOne p 2).scale (logExponent x)).add (lnNearOne p (x / 2 ^ logExponent x))

/-- ln 10 = 3 ln 2 + ln(5/4). -/
def ln10Enclosure (p : Nat) : Enclosure := ((lnNearOne p 2).scale 3).add (lnNearOne p (5 / 4))

/-- log10 x = ln x / ln 10 for x > 0. -/
def log10Enclosure (p : Nat) (x : ℚ) : Enclosure := (lnEnclosure p x).divPos (ln10Enclosure p)

/-- LOG10F(a) (R193). -/
def LOG10F (a : Word) : Word :=
  if isNaN a then canonicalNaN
  else if isZero a then minusInf
  else if isNeg a then canonicalNaN
  else if a = plusInf then plusInf
  else if a = 0x3F800000 then 0
  else roundEnclosed (Config.log10RoundsUp a) fun p => log10Enclosure p (val a)

end Sys2Proof.Machine
end

