-- ==== Sys2Proof/Machine/Polar.lean ====
section
/-! DEFINITION. The rectangular-to-polar converter (spec/43_polar.md): POLAR_ELEM and the command POLAR. -/

namespace Sys2Proof.Machine

/-- The magnitude of POLAR_ELEM(r, x) (R291). -/
def polarMag (r x : Word) : Word := fsqrt (fadd (fmul r r) (fmul x x))

/-- The phase of POLAR_ELEM(r, x) (R291), quadrant-corrected. -/
def polarPhase (r x : Word) : Word :=
  let ph := ATANF (fdiv x r)
  if flt r ZERO then (if flt x ZERO then fadd ph NEG_PI_F else fadd ph PI_F) else ph

/-- POLAR_ELEM on elements 0 .. C−1 (R290): both outputs from the inputs before either is overwritten (R291). -/
def State.toPolar (C : Nat) (s : State) : State :=
  (s.setRam .re C fun i => polarMag (s.ram .re i) (s.ram .im i)).setRam .im C fun i =>
    polarPhase (s.ram .re i) (s.ram .im i)

/-- POLAR (R290). -/
def execPolar (c : BitVec 16) (s : State) : Host.Outcome State Fault Refusal :=
  s.runCounted c (State.toPolar c.toNat)

end Sys2Proof.Machine
end

