-- ==== Sys2Proof/Machine/Twiddle.lean ====
section
/-! DEFINITION. The twiddle-step ROM (spec/10_state.md R56, R57): for stage s the step (cos(π/2^(s−1)), −sin(π/2^(s−1)))
rounded to binary32. Constant: no step reads or writes it but through `romSr` and `romSi`. -/

namespace Sys2Proof.Machine

/-- Rows s = 1 .. 15 of R56's table: (ROM_SR[s], ROM_SI[s]). -/
def romTable : List (Word × Word) :=
  [(0xBF800000, 0x00000000), (0x00000000, 0xBF800000), (0x3F3504F3, 0xBF3504F3), (0x3F6C835E, 0xBEC3EF15),
   (0x3F7B14BE, 0xBE47C5C2), (0x3F7EC46D, 0xBDC8BD36), (0x3F7FB10F, 0xBD48FB30), (0x3F7FEC43, 0xBCC90AB0)] ++
  [(0x3F7FFB11, 0xBC490E90), (0x3F7FFEC4, 0xBBC90F88), (0x3F7FFFB1, 0xBB490FC6), (0x3F7FFFEC, 0xBAC90FD5),
   (0x3F7FFFFB, 0xBA490FD9), (0x3F7FFFFF, 0xB9C90FDA), (0x3F800000, 0xB9490FDB)]

/-- ROM_SR[s] (R56). -/
def romSr (s : Nat) : Word := (romTable.getD (s - 1) (0, 0)).1

/-- ROM_SI[s] (R56). -/
def romSi (s : Nat) : Word := (romTable.getD (s - 1) (0, 0)).2

end Sys2Proof.Machine
end

