-- ==== Sys2Proof/Machine/ComplexFft.lean ====
section
/-! DEFINITION. The complex FFT family (spec/41_complex_fft.md): the bit-reversal walk, the butterfly, the twiddle
recurrence, a stage, the forward engine, and the commands BITREV, CFFT_FWD and CFFT_INV. A command loads its words
into a buffer, runs the pseudocode on the buffer and writes the buffer back, which is R120's rule for accesses inside
one command. -/

namespace Sys2Proof.Machine

/-- The complex buffer of a command: words 0 .. N−1 of RE and of IM (R220). -/
structure Cplx where
  re : List Word
  im : List Word
  deriving DecidableEq, Repr

/-- Read word i of a buffer; every index of the pseudocode is inside it (R120). -/
def rd (x : List Word) (i : Nat) : Word := x.getD i 0

/-- RE[0..N) and IM[0..N) as a buffer. -/
def State.loadCplx (s : State) (N : Nat) : Cplx := ⟨s.loadRam .re N, s.loadRam .im N⟩

/-- Write a buffer back to RE[0..N) and IM[0..N). -/
def State.storeCplx (s : State) (N : Nat) (b : Cplx) : State :=
  (s.setRam .re N fun i => rd b.re i).setRam .im N fun i => rd b.im i

/-- Run a buffer procedure in place on RE[0..N) and IM[0..N). -/
def State.onCplx (s : State) (N : Nat) (f : Cplx → Cplx) : State := s.storeCplx N (f (s.loadCplx N))

/-! ## Bit reversal (R221) -/

/-- Exchange elements i and j of both RAMs: moves, every bit kept (R197). -/
def swapElems (i j : Nat) (b : Cplx) : Cplx :=
  ⟨(b.re.set j (rd b.re i)).set i (rd b.re j), (b.im.set j (rd b.im i)).set i (rd b.im j)⟩

/-- `while k <= j: j <- j - k; k <- k div 2`, at most `fuel` times: clear the leading one-bits of j. -/
def clearLeadingOnes : (fuel j k : Nat) → Nat × Nat
  | 0, j, k => (j, k)
  | fuel + 1, j, k => if k ≤ j then clearLeadingOnes fuel (j - k) (k / 2) else (j, k)

/-- j becomes rev_n(i+1) from rev_n(i), the counting step of R221. -/
def nextReversed (n j : Nat) : Nat :=
  (clearLeadingOnes n j (2 ^ n / 2)).1 + (clearLeadingOnes n j (2 ^ n / 2)).2

/-- One pass of R221's loop over i: swap with j = rev_n(i) when i < j, then step j. -/
def bitrevPass (n i : Nat) (bj : Cplx × Nat) : Cplx × Nat :=
  (if i < bj.2 then swapElems i bj.2 bj.1 else bj.1, nextReversed n bj.2)

/-- BITREV_WALK(2^n) (R221): i = 1 .. N−2, starting from j = N/2. -/
def bitrevWalk (n : Nat) (b : Cplx) : Cplx := (forFrom (bitrevPass n) 1 (2 ^ n - 2) (b, 2 ^ n / 2)).1

/-! ## Butterfly, recurrence, stage (R223 to R227) -/

/-- RECUR: U advanced by the stage's step (R223). -/
def recur (sr si : Word) (u : Word × Word) : Word × Word :=
  (fsub (fmul u.1 sr) (fmul u.2 si), fadd (fmul u.1 si) (fmul u.2 sr))

/-- BFLY(i, ip, ur, ui) (R224). -/
def bfly (i ip : Nat) (u : Word × Word) (b : Cplx) : Cplx :=
  let tr := fsub (fmul (rd b.re ip) u.1) (fmul (rd b.im ip) u.2)
  let ti := fadd (fmul (rd b.re ip) u.2) (fmul (rd b.im ip) u.1)
  ⟨(b.re.set ip (fsub (rd b.re i) tr)).set i (fadd (rd b.re i) tr),
   (b.im.set ip (fsub (rd b.im i) ti)).set i (fadd (rd b.im i) ti)⟩

/-- The butterflies of offset j in stage s: i = j, j + 2^s, … below 2^n (R225). -/
def stageOffset (s n j : Nat) (u : Word × Word) (b : Cplx) : Cplx :=
  forFrom (fun g b => bfly (j + g * 2 ^ s) (j + g * 2 ^ s + 2 ^ (s - 1)) u b) 0 (2 ^ n / 2 ^ s) b

/-- STAGE(s, 2^n) (R225): offsets j = 0 .. 2^(s−1)−1, the twiddle advanced after each. -/
def stage (s n : Nat) (b : Cplx) : Cplx :=
  (forFrom (fun j (bu : Cplx × (Word × Word)) => (stageOffset s n j bu.2 bu.1, recur (romSr s) (romSi s) bu.2))
    0 (2 ^ (s - 1)) (b, (ONE, ZERO))).1

/-- CFFT_CORE(2^m) (R227): the walk, then stages 1 .. m. -/
def cfftCore (m : Nat) (b : Cplx) : Cplx := forFrom (fun s b => stage s m b) 1 m (bitrevWalk m b)

/-- `for k in 0 .. N-1: IM[k] <- fneg(IM[k])` (R230). -/
def negateIm (N : Nat) (b : Cplx) : Cplx :=
  forFrom (fun k b => { b with im := b.im.set k (fneg (rd b.im k)) }) 0 N b

/-- `for i in 0 .. N-1: RE[i] <- fdiv(RE[i], nf); IM[i] <- fdiv(fneg(IM[i]), nf)` (R230). -/
def scaleConjugate (N : Nat) (b : Cplx) : Cplx :=
  forFrom (fun i b => ⟨b.re.set i (fdiv (rd b.re i) (i2f N)), b.im.set i (fdiv (fneg (rd b.im i)) (i2f N))⟩) 0 N b

/-- The buffer procedure of CFFT_INV (R230). -/
def cfftInverse (n : Nat) (b : Cplx) : Cplx := scaleConjugate (2 ^ n) (cfftCore n (negateIm (2 ^ n) b))

/-! ## Commands -/

/-- BITREV (R228). -/
def execBitrev (n : BitVec 4) (s : State) : Host.Outcome State Fault Refusal :=
  s.runSized 1 n fun s => s.onCplx (2 ^ n.toNat) (bitrevWalk n.toNat)

/-- CFFT_FWD (R229). -/
def execCfftFwd (n : BitVec 4) (s : State) : Host.Outcome State Fault Refusal :=
  s.runSized 1 n fun s => s.onCplx (2 ^ n.toNat) (cfftCore n.toNat)

/-- CFFT_INV (R230). -/
def execCfftInv (n : BitVec 4) (s : State) : Host.Outcome State Fault Refusal :=
  s.runSized 1 n fun s => s.onCplx (2 ^ n.toNat) (cfftInverse n.toNat)

end Sys2Proof.Machine
end

