-- ==== Sys2Proof/Machine/RealFft.lean ====
section
/-! DEFINITION. The real FFT family (spec/42_real_fft.md): the five steps of RFFT_CORE and the commands RFFT_FWD and
RFFT_INV. -/

namespace Sys2Proof.Machine

/-- Step 1 (R261): RE[i] <- RE[2i]; IM[i] <- RE[2i+1], for i = 0 .. nd2−1. -/
def packPairs (nd2 : Nat) (b : Cplx) : Cplx :=
  forFrom (fun i b =>
    let re := b.re.set i (rd b.re (2 * i))
    ⟨re, b.im.set i (rd re (2 * i + 1))⟩) 0 nd2 b

/-- Step 2 (R262): CFFT_CORE(2^m) on the first 2^m words only. -/
def halfTransform (m : Nat) (b : Cplx) : Cplx :=
  let h := cfftCore m ⟨b.re.take (2 ^ m), b.im.take (2 ^ m)⟩
  ⟨h.re ++ b.re.drop (2 ^ m), h.im ++ b.im.drop (2 ^ m)⟩

/-- One pass of step 3 (R263) for bin i, with its mirror mi = ND2 − i; the statements in R263's order. -/
def splitBin (nd2 i : Nat) (b : Cplx) : Cplx :=
  let mi := nd2 - i
  let ip2 := i + nd2
  let ipm := mi + nd2
  let re := b.re.set ip2 (fdiv (fadd (rd b.im i) (rd b.im mi)) TWO)
  let re := re.set ipm (rd re ip2)
  let im := b.im.set ip2 (fdiv (fneg (fsub (rd re i) (rd re mi))) TWO)
  let im := im.set ipm (fneg (rd im ip2))
  let re := re.set i (fdiv (fadd (rd re i) (rd re mi)) TWO)
  let re := re.set mi (rd re i)
  let im := im.set i (fdiv (fsub (rd im i) (rd im mi)) TWO)
  let im := im.set mi (fneg (rd im i))
  ⟨re, im⟩

/-- Step 3 (R263): bins i = 1 .. N/4−1. -/
def splitBins (nd2 n4 : Nat) (b : Cplx) : Cplx := forFrom (splitBin nd2) 1 (n4 - 1) b

/-- Step 4 (R264): the DC, Nyquist and quarter-point bins, in R264's order. -/
def specialBins (nd2 n4 n34 : Nat) (b : Cplx) : Cplx :=
  let re := (b.re.set n34 (rd b.im n4)).set nd2 (rd b.im 0)
  let im := (((b.im.set n34 ZERO).set nd2 ZERO).set n4 ZERO).set 0 ZERO
  ⟨re, im⟩

/-- RFFT_CORE(2^n) (R266), with ND2 = N/2, N4 = N/4 and N34 = 3N/4 (R260); step 5 is STAGE(n, N) (R265). -/
def rfftCore (n : Nat) (b : Cplx) : Cplx :=
  let N := 2 ^ n
  let nd2 := N / 2
  let n4 := N / 4
  let n34 := 3 * N / 4
  stage n n (specialBins nd2 n4 n34 (splitBins nd2 n4 (halfTransform (n - 1) (packPairs nd2 b))))

/-- RFFT_INV's mirror (R268): bins N/2+1 .. N−1 become the conjugates of bins N/2−1 .. 1. -/
def mirrorBins (N : Nat) (b : Cplx) : Cplx :=
  forFrom (fun k b => ⟨b.re.set k (rd b.re (N - k)), b.im.set k (fneg (rd b.im (N - k)))⟩) (N / 2 + 1) (N / 2 - 1) b

/-- RFFT_INV's sum (R268): RE[k] <- fadd(RE[k], IM[k]). -/
def sumReIm (N : Nat) (b : Cplx) : Cplx :=
  forFrom (fun k b => { b with re := b.re.set k (fadd (rd b.re k) (rd b.im k)) }) 0 N b

/-- RFFT_INV's last loop (R268), its RE half: RE[i] <- fdiv(fadd(RE[i], IM[i]), nf). -/
def sumAndScale (N : Nat) (b : Cplx) : Cplx :=
  forFrom (fun i b => { b with re := b.re.set i (fdiv (fadd (rd b.re i) (rd b.im i)) (i2f N)) }) 0 N b

/-- The RE result of RFFT_INV (R268). -/
def rfftInverse (n : Nat) (b : Cplx) : Cplx :=
  sumAndScale (2 ^ n) (rfftCore n (sumReIm (2 ^ n) (mirrorBins (2 ^ n) b)))

/-- RFFT_FWD's effect on the RAMs (R267). -/
def State.realForward (n : Nat) (s : State) : State := s.onCplx (2 ^ n) (rfftCore n)

/-- RFFT_INV's effect on the RAMs (R268): RE as computed; each IM word is a draw (U2, log entry 4). -/
def State.realInverse (n : Nat) (s : State) : State :=
  ((s.onCplx (2 ^ n) (rfftInverse n)).drawRam .im (2 ^ n)).nextDraw

/-! ## Commands -/

/-- RFFT_FWD (R267). -/
def execRfftFwd (n : BitVec 4) (s : State) : Host.Outcome State Fault Refusal :=
  s.runSized 2 n (State.realForward n.toNat)

/-- RFFT_INV (R268). -/
def execRfftInv (n : BitVec 4) (s : State) : Host.Outcome State Fault Refusal :=
  s.runSized 2 n (State.realInverse n.toNat)

end Sys2Proof.Machine
end

