-- ==== Sys2Proof/Machine/Window.lean ====
section
/-! DEFINITION. The window generator and the windowing multiplier array (spec/44_window.md): WINDOW and the commands
GENWIN and WINAPPLY. -/

namespace Sys2Proof.Machine

/-- half = (N − 1) div 2 (R310). -/
def windowHalf (N : Nat) : Nat := (N - 1) / 2

/-- k = 1/half in binary32 (R310). -/
def windowK (N : Nat) : Word := fdiv ONE (i2f (windowHalf N))

/-- |i − half| as a binary32 (R310). -/
def windowAbs (N i : Nat) : Word := i2f (((i : Int) - windowHalf N).natAbs : Nat)

/-- a2 = (2π · i) · k (R311). -/
def windowArg2 (N i : Nat) : Word := fmul (fmul TWO_PI_F (i2f i)) (windowK N)

/-- a4 = (4π · i) · k (R311). -/
def windowArg4 (N i : Nat) : Word := fmul (fmul FOUR_PI_F (i2f i)) (windowK N)

/-- WINDOW(kind, N, i) (R311). -/
def window (kind : WindowKind) (N i : Nat) : Word :=
  match kind with
  | .rect => ONE
  | .bartlett => fsub ONE (fmul (windowK N) (windowAbs N i))
  | .hamming => fsub C054 (fmul C046 (COSF (windowArg2 N i)))
  | .hanning => fsub HALF (fmul HALF (COSF (windowArg2 N i)))
  | .blackman => fadd (fsub C042 (fmul HALF (COSF (windowArg2 N i)))) (fmul C008 (COSF (windowArg4 N i)))
  | .welch => fsub ONE (fsqrt (fmul (windowK N) (windowAbs N i)))

/-- Write WIN[0..2^n) and WINTAG (R312). -/
def State.generateWindow (k : WindowKind) (kind : BitVec 3) (n : BitVec 4) (s : State) : State :=
  (s.setRam .win (2 ^ n.toNat) (window k (2 ^ n.toNat))).setWinTag kind n

/-- RE[i] <- fmul(RE[i], WIN[i]) for i = 0 .. C−1 (R313). -/
def State.applyWindow (C : Nat) (s : State) : State :=
  s.setRam .re C fun i => fmul (s.ram .re i) (s.ram .win i)

/-- GENWIN (R312). -/
def execGenwin (kind : BitVec 3) (n : BitVec 4) (s : State) : Host.Outcome State Fault Refusal :=
  s.runWindowed kind n fun k => State.generateWindow k kind n

/-- WINAPPLY (R313). -/
def execWinapply (c : BitVec 16) (s : State) : Host.Outcome State Fault Refusal :=
  s.runCounted c (State.applyWindow c.toNat)

end Sys2Proof.Machine
end

