-- ==== Sys2Proof/Machine/Decibel.lean ====
section
/-! DEFINITION. The magnitude-to-dB unit and the spectrum pipeline (spec/45_db_pipeline.md): DB_ELEM and the commands
DBCONV and SPECTRUM. -/

namespace Sys2Proof.Machine

/-- The unclamped value of DB_ELEM(m, N) (R340). -/
def dbRaw (m : Word) (N : Nat) : Word := fmul TWENTY (LOG10F (fdiv (fmul m TWO) (i2f N)))

/-- DB_ELEM(m, N) (R340), clamped to the floor −100. -/
def dbElem (m : Word) (N : Nat) : Word := if flt (dbRaw m N) M100 then M100 else dbRaw m N

/-- DB[i] <- DB_ELEM(RE[i], 2^n) for i = 0 .. N/2−1 (R341). -/
def State.toDecibel (n : Nat) (s : State) : State :=
  s.setRam .db (2 ^ n / 2) fun i => dbElem (s.ram .re i) (2 ^ n)

/-- The window of SPECTRUM's step 1 (R342): kept on a tag hit, generated on a miss. -/
def State.ensureWindow (k : WindowKind) (kind : BitVec 3) (n : BitVec 4) (s : State) : State :=
  if s.tagHit kind n then s else s.generateWindow k kind n

/-- SPECTRUM's four steps (R342). -/
def State.spectrum (k : WindowKind) (kind : BitVec 3) (n : BitVec 4) (s : State) : State :=
  ((((s.ensureWindow k kind n).applyWindow (2 ^ n.toNat)).realForward n.toNat).toPolar (2 ^ n.toNat / 2)).toDecibel
    n.toNat

/-- DBCONV (R341). -/
def execDbconv (n : BitVec 4) (s : State) : Host.Outcome State Fault Refusal :=
  s.runSized 1 n (State.toDecibel n.toNat)

/-- SPECTRUM (R342). -/
def execSpectrum (kind : BitVec 3) (n : BitVec 4) (s : State) : Host.Outcome State Fault Refusal :=
  s.runWindowed kind n fun k => State.spectrum k kind n

end Sys2Proof.Machine
end

