-- ==== Sys2Proof/Machine/Dispatch.lean ====
section
/-! DEFINITION. One arm per command: the meaning of a decoded command (spec/30_encoding.md R145). -/

namespace Sys2Proof.Machine

/-- The semantics of a decoded command, with its completion or its command error (spec/46_control.md R370). -/
def exec (i : Instr) (s : State) : Host.Outcome State Fault Refusal :=
  match i with
  | .nop => Sys2Proof.Machine.execNop s
  | .bitrev n => Sys2Proof.Machine.execBitrev n s
  | .cfftFwd n => Sys2Proof.Machine.execCfftFwd n s
  | .cfftInv n => Sys2Proof.Machine.execCfftInv n s
  | .rfftFwd n => Sys2Proof.Machine.execRfftFwd n s
  | .rfftInv n => Sys2Proof.Machine.execRfftInv n s
  | .polar c => Sys2Proof.Machine.execPolar c s
  | .genwin kind n => Sys2Proof.Machine.execGenwin kind n s
  | .winapply c => Sys2Proof.Machine.execWinapply c s
  | .dbconv n => Sys2Proof.Machine.execDbconv n s
  | .spectrum kind n => Sys2Proof.Machine.execSpectrum kind n s

end Sys2Proof.Machine
end

