-- ==== Sys2Proof/Machine/Reset.lean ====
section
/-! DEFINITION. Reset (spec/70_reset_and_hazards.md R420 to R422): the hardware reset input and the soft reset, which
aborts a command in flight. -/

namespace Sys2Proof.Machine

/-- Every register at its reset value (R421). -/
def State.resetRegisters (s : State) : State :=
  { s with
    cmd := 0, busy := false, done := false, err := false, errcode := 0, ie := false, winTag := WinTag.zero }

/-- Hardware reset (R420): registers reset, every RAM word unspecified anew (R53; log entry 3). -/
def State.hardReset (s : State) : State :=
  { s.resetRegisters with mem := [], powerDraw := s.draws, draws := s.draws + 1 }

/-- The write set of the latched command word: empty if the word is illegal (R422, R51). -/
def State.latchedWriteSet (s : State) : List (Ram × Nat) :=
  match decode s.cmd with
  | .ok i => s.writeSetOf i
  | .error _ => []

/-- Every word of these blocks becomes a free value of the current draw (U3; log entry 5). -/
def State.drawBlocks (s : State) : List (Ram × Nat) → State
  | [] => s
  | (r, n) :: bs => (s.drawRam r n).drawBlocks bs

/-- The RAMs after the command in flight is aborted (R422). -/
def State.abortCommand (s : State) : State := (s.drawBlocks s.latchedWriteSet).nextDraw

/-- Soft reset (R420, R422): an idle core keeps its RAMs, a busy one aborts its command; then registers reset. -/
def State.softReset (s : State) : State :=
  if s.busy then s.abortCommand.resetRegisters else s.resetRegisters

end Sys2Proof.Machine
end

