-- ==== Sys2Proof/Machine/HostPort.lean ====
section
/-! DEFINITION. The host port (spec/20_memory.md): the address map (R101), host reads (R103), host writes (R104), the
TWROM window (R111) and the ERROR response (spec/60_exceptions.md R381, R382). -/

namespace Sys2Proof.Machine

/-- What an aligned offset of the core's window names (R101). -/
inductive Target where
  | id
  | config
  | cmd
  | status
  | ctrl
  | winTag
  /-- Entry `stage` of the twiddle-step ROM, its SI word if `imag`. -/
  | rom (stage : Nat) (imag : Bool)
  | ram (r : Ram) (i : Nat)
  | reserved
  deriving DecidableEq, Repr

/-- The word of a RAM window at an offset: reserved at or above the RAM's size (R101, R110). -/
def ramTarget (log2Nmax off : Nat) (r : Ram) : Target :=
  if (off - r.base) / 4 < r.words log2Nmax then .ram r ((off - r.base) / 4) else .reserved

/-- The address map (R101, 10_state.md R60) at a 4-byte aligned offset. -/
def decodeOffset (log2Nmax off : Nat) : Target :=
  if off = 0x000 then .id
  else if off = 0x004 then .config
  else if off = 0x008 then .cmd
  else if off = 0x00C then .status
  else if off = 0x010 then .ctrl
  else if off = 0x014 then .winTag
  else if 0x200 ≤ off ∧ off < 0x280 then .rom ((off - 0x200) / 8 + 1) (decide (off / 4 % 2 = 1))
  else if 0x20000 ≤ off ∧ off < 0x40000 then ramTarget log2Nmax off .re
  else if 0x40000 ≤ off ∧ off < 0x60000 then ramTarget log2Nmax off .im
  else if 0x60000 ≤ off ∧ off < 0x80000 then ramTarget log2Nmax off .win
  else if 0x80000 ≤ off ∧ off < 0xA0000 then ramTarget log2Nmax off .db
  else .reserved

/-- A TWROM word as the host reads it: 0 for stages above LOG2_NMAX (R111). -/
def romRead (log2Nmax stage : Nat) (imag : Bool) : Word :=
  if stage ≤ log2Nmax then (if imag then romSi stage else romSr stage) else 0

/-- The form every transaction must have: 4 bytes, aligned, all four byte lanes enabled (R106, R107). -/
def wellFormedAccess (off size : Nat) (lanes : BitVec 4) : Bool :=
  decide (size = 4) && decide (off % 4 = 0) && (lanes == 0xF#4)

/-- The read data of a host read, `none` for an ERROR response (R103). -/
def State.readData (s : State) (off size : Nat) (lanes : BitVec 4) : Option Word :=
  if wellFormedAccess off size lanes then
    match decodeOffset s.params.log2Nmax off with
    | .id => some idWord
    | .config => some (configWord s.params)
    | .cmd => some s.cmd
    | .status => some s.statusWord
    | .ctrl => some s.ctrlWord
    | .winTag => some s.winTagWord
    | .rom stage imag => some (romRead s.params.log2Nmax stage imag)
    | .ram r i => if s.busy then none else some (s.ram r i)
    | .reserved => none
  else none

/-- A RAM word written by the host; a write to WIN clears WINTAG (R104, R110). -/
def State.hostRamWrite (s : State) (r : Ram) (i : Nat) (wdata : Word) : State :=
  match r with
  | .win => (s.setRamWord .win i wdata).clearWinTag
  | r => s.setRamWord r i wdata

/-- A CTRL write (10_state.md R65): soft reset if bit 31 is 1, else IE <- bit 0. -/
def State.writeCtrl (s : State) (wdata : Word) : State :=
  if wdata.getLsbD 31 then s.softReset else { s with ie := wdata.getLsbD 0 }

/-- The state a host write leaves, `none` for an ERROR response (R104). -/
def State.writeEffect (s : State) (off size : Nat) (lanes : BitVec 4) (wdata : Word) : Option State :=
  if wellFormedAccess off size lanes then
    match decodeOffset s.params.log2Nmax off with
    | .cmd => if s.busy then none else some (s.latchCommand wdata)
    | .status => some (s.acknowledge wdata)
    | .ctrl => some (s.writeCtrl wdata)
    | .ram r i => if s.busy then none else some (s.hostRamWrite r i wdata)
    | .id => none
    | .config => none
    | .winTag => none
    | .rom _ _ => none
    | .reserved => none
  else none

/-- Record a response (R435). -/
def State.respond (s : State) (r : Response) : State := { s with responses := s.responses ++ [r] }

/-- Whether the platform routes an address to this core (R101). -/
def Params.routes (p : Params) (addr : Nat) : Bool :=
  decide (p.coreBase ≤ addr) && decide (addr < p.coreBase + 0x100000)

/-- The host's Read transaction (R100, R103): ERROR returns 0 and changes nothing (R382). -/
def State.hostRead (s : State) (addr size : Nat) (lanes : BitVec 4) : State :=
  if Params.routes s.params addr then
    match s.readData (addr - s.params.coreBase) size lanes with
    | some w => s.respond (.read w true)
    | none => s.respond (.read 0 false)
  else s

/-- The host's Write transaction (R100, R104): ERROR changes nothing (R382). -/
def State.hostWrite (s : State) (addr size : Nat) (lanes : BitVec 4) (wdata : Word) : State :=
  if Params.routes s.params addr then
    match s.writeEffect (addr - s.params.coreBase) size lanes wdata with
    | some t => t.respond (.write true)
    | none => s.respond (.write false)
  else s

end Sys2Proof.Machine
end

