-- ==== Sys2Proof/Machine/Turns.lean ====
section
/-! DEFINITION. The core's EXECUTE step (spec/46_control.md R370) and the turns of the three agents
(spec/00_scope.md R7; log entry 1). -/

namespace Sys2Proof.Machine

/-- EXECUTE on the latched word (R370): a word that is no command raises its error, a command has its semantics. -/
def State.execute (s : State) : Host.Outcome State Fault Refusal :=
  match decode s.cmd with
  | .error e => .next (s.raiseCmdError e)
  | .ok i => exec i s

/-- The core's turn: EXECUTE is enabled exactly when BUSY = 1 (R370); an idle core keeps its state (60 R399). -/
def State.coreTurn (s : State) : Host.Outcome State Fault Refusal := if s.busy then s.execute else .next s

/-- One turn, already taken off the list. -/
def State.takeTurn (s : State) : Turn → Host.Outcome State Fault Refusal
  | .read addr size lanes => .next (s.hostRead addr size lanes)
  | .write addr size lanes wdata => .next (s.hostWrite addr size lanes wdata)
  | .execute => s.coreTurn
  | .hardReset => .next s.hardReset

/-- The next turn of the list; with none left the host is silent and the core has every turn (70 R432's fairness). -/
def State.advance (s : State) : Host.Outcome State Fault Refusal :=
  match s.turns with
  | [] => s.coreTurn
  | t :: ts => State.takeTurn { s with turns := ts } t

/-- The state in which the command word of `nbits` bits `w` has been accepted by a CMD write (R63) and EXECUTE has the
next turn. -/
def State.withCommand (s : State) (nbits w : Nat) : State :=
  { s.latchCommand (BitVec.ofNat 32 (w % 2 ^ nbits)) with turns := .execute :: s.turns }

end Sys2Proof.Machine
end

