-- ==== Sys2Proof/Machine/Step.lean ====
section
/-! DEFINITION. One step of the machine, and the host's way to place an instruction where the next step runs it. The
core fetches nothing (spec/10_state.md R42): a command is the word an accepted CMD write latched (R63). -/

namespace Sys2Proof.Machine

/-- One step: the next turn of the host, the core or the platform. -/
def step (s : State) : Host.Outcome State Fault Refusal := s.advance

/-- `s` with the command word latched as an accepted CMD write latches it, the core's turn next (log entry 9). -/
def State.withFetchWord (s : State) (nbits w : Nat) : State := s.withCommand nbits w

end Sys2Proof.Machine
end

