-- ==== Sys2Proof/Safety.lean ====
section
/-! DEFINITION. The terms claims use: the invariants of the spec (STATUS: spec/10_state.md R64; WINTAG: R66, R70; the
memory's canonical form; the parameters: spec/00_scope.md R9), what a command leaves alone, the n-bit reversal
(spec/00_scope.md R13), the twiddle of an offset (spec/41_complex_fft.md R226) and what RN means for a real number
(spec/40_numerics.md R181). -/

namespace Sys2Proof.Machine

/-! ## Invariants -/

/-- R64: at most one of DONE and ERR is 1, both are 0 while BUSY = 1, ERRCODE is 0 while ERR = 0 and one of the codes
1 .. 5 of R383 while ERR = 1. -/
abbrev State.StatusOk (s : State) : Prop :=
  ¬ (s.done = true ∧ s.err = true) ∧
  (s.busy = true → s.done = false ∧ s.err = false) ∧
  (s.err = false → s.errcode = 0) ∧
  (s.err = true → 1 ≤ s.errcode.toNat ∧ s.errcode.toNat ≤ 5)

/-- R66: KIND and LOG2N are 0 while VALID = 0; while VALID = 1 they are a window GENWIN accepts. -/
abbrev State.TagOk (s : State) : Prop :=
  (s.winTag.valid = false → s.winTag.kind = 0 ∧ s.winTag.log2n = 0) ∧
  (s.winTag.valid = true → legalKind s.winTag.kind = true ∧ legalLog2N s.params.log2Nmax 2 s.winTag.log2n = true)

/-- R70: whenever VALID = 1, WIN[0 .. 2^LOG2N) holds the window (KIND, 2^LOG2N). -/
def State.WindowHeld (s : State) : Prop :=
  s.winTag.valid = true → ∀ k, WindowKind.ofField s.winTag.kind = some k →
    ∀ i, i < 2 ^ s.winTag.log2n.toNat → s.ram .win i = window k (2 ^ s.winTag.log2n.toNat) i

/-- Every draw made so far is older than the next one: the number of the draw behind unwritten RAM lies below the next
draw's (log entry 3). -/
abbrev State.DrawsFresh (s : State) : Prop := s.powerDraw < s.draws

/-! ## Resets -/

/-- The next turn resets the core (R420): the hardware reset input, or a CTRL write with SRST = 1 (R65). -/
def State.ResetsNext (s : State) : Prop :=
  (∃ ts, s.turns = .hardReset :: ts) ∨
  ∃ ts w, s.turns = .write (s.params.coreBase + 0x010) 4 0xF w :: ts ∧ w.getLsbD 31 = true

/-! ## Frames -/

/-- Byte offset `a` lies in none of the blocks (each the first words of a RAM). -/
def outsideBlocks (blocks : List (Ram × Nat)) (a : Nat) : Prop :=
  ∀ b ∈ blocks, ¬ (b.1.base ≤ a ∧ a < b.1.base + 4 * b.2)

/-- Every byte outside these blocks reads in `t` as in `s`. -/
def SameBytesOutside (blocks : List (Ram × Nat)) (s t : State) : Prop :=
  ∀ a, outsideBlocks blocks a → t.byteAt a = s.byteAt a

/-- The read set of a legal command: (RAM, number of its first words) pairs (R51's table).  `tagHit` as in
`writeSet`. -/
def readSet (tagHit : Bool) : Instr → List (Ram × Nat)
  | .nop => []
  | .bitrev n => [(.re, 2 ^ n.toNat), (.im, 2 ^ n.toNat)]
  | .cfftFwd n => [(.re, 2 ^ n.toNat), (.im, 2 ^ n.toNat)]
  | .cfftInv n => [(.re, 2 ^ n.toNat), (.im, 2 ^ n.toNat)]
  | .rfftFwd n => [(.re, 2 ^ n.toNat)]
  | .rfftInv n => [(.re, 2 ^ n.toNat / 2 + 1), (.im, 2 ^ n.toNat / 2 + 1)]
  | .polar c => [(.re, c.toNat), (.im, c.toNat)]
  | .genwin _ _ => []
  | .winapply c => [(.re, c.toNat), (.win, c.toNat)]
  | .dbconv n => [(.re, 2 ^ n.toNat / 2)]
  | .spectrum _ n => (.re, 2 ^ n.toNat) :: (if tagHit then [(.win, 2 ^ n.toNat)] else [])

/-- The words of these blocks are the same in both states. -/
def SameWordsIn (blocks : List (Ram × Nat)) (s t : State) : Prop :=
  ∀ b ∈ blocks, ∀ i, i < b.2 → t.ram b.1 i = s.ram b.1 i

/-- What no command touches: the parameters, CMD, CTRL.IE, the free values of unwritten RAM, and the environment. -/
def SameOutsideStatus (s t : State) : Prop :=
  t.params = s.params ∧ t.cmd = s.cmd ∧ t.ie = s.ie ∧ t.powerDraw = s.powerDraw ∧ t.turns = s.turns ∧
    t.responses = s.responses

/-- STATUS after a legal command: BUSY = 0, DONE = 1, ERR and ERRCODE as they were (R370, R372). -/
def CompletedFrom (s t : State) : Prop :=
  t.busy = false ∧ t.done = true ∧ t.err = s.err ∧ t.errcode = s.errcode

/-! ## The address map (20_memory.md R101) -/

/-- A RAM word that exists, at its offset (R101, R110). -/
def MappedRam (log2Nmax off : Nat) : Prop :=
  ∃ (r : Ram) (i : Nat), off = r.base + 4 * i ∧ i < r.words log2Nmax ∧ i < 2 ^ 15

/-- An offset of the TWROM window (R111). -/
def InRomWindow (off : Nat) : Prop := 0x200 ≤ off ∧ off < 0x280

/-- An aligned offset that names something (R101, 10_state.md R67). -/
def Mapped (log2Nmax off : Nat) : Prop := off < 0x18 ∨ InRomWindow off ∨ MappedRam log2Nmax off

/-- R381's table, reads. -/
def ReadFails (s : State) (off size : Nat) (lanes : BitVec 4) : Prop :=
  size ≠ 4 ∨ lanes ≠ 0xF ∨ off % 4 ≠ 0 ∨ ¬ Mapped s.params.log2Nmax off ∨
    (MappedRam s.params.log2Nmax off ∧ s.busy = true)

/-- R381's table, writes. -/
def WriteFails (s : State) (off size : Nat) (lanes : BitVec 4) : Prop :=
  ReadFails s off size lanes ∨ off = 0x000 ∨ off = 0x004 ∨ off = 0x014 ∨ InRomWindow off ∨
    (off = 0x008 ∧ s.busy = true)

/-! ## Mathematics of the rules -/

/-- rev_n(i): bit k of rev_n(i) is bit n−1−k of i (R13). -/
def revBits : (n i : Nat) → Nat
  | 0, _ => 0
  | n + 1, i => 2 ^ n * (i % 2) + revBits n (i / 2)

/-- U_{s,j}: j steps of the recurrence from (ONE, ZERO) (R226). -/
def twiddleAt (s : Nat) : Nat → Word × Word
  | 0 => (ONE, ZERO)
  | j + 1 => recur (romSr s) (romSi s) (twiddleAt s j)

/-- CFFT_CORE(2^n) takes the words `re`, `im` to `b` (R227): the words at their bit-reversed places (R222), then stages
1 .. n in order. -/
def ComplexTransform (n : Nat) (re im : Nat → Word) (b : Cplx) : Prop :=
  ∃ c : Nat → Cplx,
    (c 0).re.length = 2 ^ n ∧ (c 0).im.length = 2 ^ n ∧
    (∀ i, i < 2 ^ n → rd (c 0).re (revBits n i) = re i ∧ rd (c 0).im (revBits n i) = im i) ∧
    (∀ k, k < n → c (k + 1) = stage (k + 1) n (c k)) ∧ b = c n

/-- R263's eight values for bin i of `z` and its mirror nd2 − i, in `e`. -/
def SplitOf (nd2 i : Nat) (z e : Cplx) : Prop :=
  let mi := nd2 - i
  rd e.re i = fdiv (fadd (rd z.re i) (rd z.re mi)) TWO ∧
  rd e.re mi = fdiv (fadd (rd z.re i) (rd z.re mi)) TWO ∧
  rd e.im i = fdiv (fsub (rd z.im i) (rd z.im mi)) TWO ∧
  rd e.im mi = fneg (fdiv (fsub (rd z.im i) (rd z.im mi)) TWO) ∧
  rd e.re (i + nd2) = fdiv (fadd (rd z.im i) (rd z.im mi)) TWO ∧
  rd e.re (mi + nd2) = fdiv (fadd (rd z.im i) (rd z.im mi)) TWO ∧
  rd e.im (i + nd2) = fdiv (fneg (fsub (rd z.re i) (rd z.re mi))) TWO ∧
  rd e.im (mi + nd2) = fneg (fdiv (fneg (fsub (rd z.re i) (rd z.re mi))) TWO)

/-- R264's special bins of `z`, in `e`: DC, Nyquist and the two quarter points, and the two words of RE that keep the
half transform's values. -/
def SpecialOf (nd2 n4 n34 : Nat) (z e : Cplx) : Prop :=
  rd e.re 0 = rd z.re 0 ∧ rd e.re n4 = rd z.re n4 ∧ rd e.re nd2 = rd z.im 0 ∧ rd e.re n34 = rd z.im n4 ∧
  rd e.im 0 = ZERO ∧ rd e.im n4 = ZERO ∧ rd e.im nd2 = ZERO ∧ rd e.im n34 = ZERO

/-- RFFT_CORE(2^n) takes the samples `x` to `b` (R266): pack pairs (R261), CFFT_CORE of size N/2 (R262), the bins
1 .. N/4−1 with their mirrors (R263), the special bins (R264), the last stage (R265). -/
def RealTransform (n : Nat) (x : Nat → Word) (b : Cplx) : Prop :=
  ∃ z e : Cplx,
    ComplexTransform (n - 1) (fun i => x (2 * i)) (fun i => x (2 * i + 1)) z ∧
    e.re.length = 2 ^ n ∧ e.im.length = 2 ^ n ∧
    (∀ i, 1 ≤ i → i < 2 ^ n / 4 → SplitOf (2 ^ n / 2) i z e) ∧
    SpecialOf (2 ^ n / 2) (2 ^ n / 4) (3 * 2 ^ n / 4) z e ∧
    b = stage n n e

/-- `w` is x rounded to binary32 (R181): infinite with the sign of x if |x| ≥ 2^128 − 2^103, else a nearest finite
binary32, on a tie the one whose last fraction bit is 0; the sign bit is the sign of x. -/
def IsRN (x : ℝ) (w : Word) : Prop :=
  (isNeg w = true ↔ x < 0) ∧
  ((2 : ℝ) ^ 128 - 2 ^ 103 ≤ |x| → isInf w = true) ∧
  (|x| < (2 : ℝ) ^ 128 - 2 ^ 103 →
    isFinite w = true ∧
    (∀ v : Word, isFinite v = true → |x - (val w : ℝ)| ≤ |x - (val v : ℝ)|) ∧
    (∀ v : Word, isFinite v = true → val v ≠ val w → |x - (val v : ℝ)| = |x - (val w : ℝ)| →
      w.getLsbD 0 = false))

end Sys2Proof.Machine
end

