-- ==== Sys2Proof/Certificates/Slice0/Obligations.lean ====
section
/-! DEFINITION. The statements for the provers, each a named proposition about the machine, with the rule of spec/ it
formalises. -/

open Sys2Proof Sys2Proof.Machine

/-! ## Encoding -/

/-- R141, R152: the decoder reads back every instruction from its command word, whatever its operands. -/
def Obligations.DecodeInvertsEncode : Prop := ∀ i : Instr, decode (encode i) = .ok i

/-- R145, R147, R149: a word the decoder accepts is exactly the word of the instruction it gives; no bit is ignored. -/
def Obligations.EncodeInvertsDecode : Prop := ∀ (w : Word) (i : Instr), decode w = .ok i → encode i = w

/-- R151: the decoder's errors, then the decoded instruction's range error, are the first failing check of the spec's
decode order. -/
def Obligations.DecodeAndRangeChecksFollowDecodeOrder : Prop :=
  ∀ (log2Nmax : Nat) (w : Word),
    (match decode w with
      | .error e => some e
      | .ok i => i.rangeError log2Nmax) = classify log2Nmax w

/-- R146: an instruction is well-formed exactly when R151 finds no fault in its word. -/
def Obligations.WellFormedIsLegalWord : Prop :=
  ∀ (log2Nmax : Nat) (i : Instr), i.WellFormed log2Nmax = true ↔ classify log2Nmax (encode i) = none

/-- Words of 95_test_vectors.md sections 3.1 and 4 decode to the commands they stand for, or to the error they name. -/
def Obligations.WorkedCommandWordsDecode : Prop :=
  decode 0x00000000 = .ok .nop ∧ decode 0x00000011 = .ok (.bitrev 1) ∧ decode 0x00000022 = .ok (.cfftFwd 2) ∧
  decode 0x00000023 = .ok (.cfftInv 2) ∧ decode 0x00000034 = .ok (.rfftFwd 3) ∧ decode 0x00000035 = .ok (.rfftInv 3) ∧
  decode 0x00040006 = .ok (.polar 4) ∧ decode 0x00000027 = .ok (.genwin 0 2) ∧ decode 0x00080008 = .ok (.winapply 8) ∧
  decode 0x00000039 = .ok (.dbconv 3) ∧ decode 0x0000003A = .ok (.spectrum 0 3) ∧
  decode 0x00000817 = .error .rsvd ∧ decode 0x0000080B = .error .opcode

/-! ## The step -/

/-- R370: on the core's turn with BUSY = 1 a step is `exec` of the instruction the CMD word decodes to (the turn taken
off the list); with BUSY = 0 EXECUTE is not enabled and the turn changes nothing.  An empty list of turns is the core's
turn too (log entry 1). -/
def Obligations.StepRunsDecodedInstruction : Prop :=
  (∀ (s : State) (i : Instr), s.busy = true → decode s.cmd = .ok i →
    (s.turns = [] → step s = exec i s) ∧
    (∀ ts, s.turns = .execute :: ts → step s = exec i { s with turns := ts })) ∧
  (∀ s : State, s.busy = false →
    (s.turns = [] → step s = .next s) ∧ (∀ ts, s.turns = .execute :: ts → step s = .next { s with turns := ts }))

/-- R386: a command error performs exactly ERRCODE <- code, ERR <- 1, BUSY <- 0: EXECUTE on a latched word R151
rejects, with the code of its first failing check, and likewise `exec` of an instruction with an operand out of range.
irq then is IE. -/
def Obligations.CommandErrorWritesStatusOnly : Prop :=
  (∀ (s : State) (ts : List Turn) (e : CmdError), s.turns = .execute :: ts → s.busy = true →
    classify s.params.log2Nmax s.cmd = some e →
    ∃ t, step s = .next t ∧ t = { s with turns := ts, errcode := e.code, err := true, busy := false } ∧ t.irq = s.ie) ∧
  (∀ (i : Instr) (s : State) (e : CmdError), i.rangeError s.params.log2Nmax = some e →
    exec i s = .next { s with errcode := e.code, err := true, busy := false })

/-- R372: EXECUTE on an accepted command ends with BUSY = 0 and exactly one of DONE (a legal word; ERR = 0 and
ERRCODE = 0) and ERR (a rejected word; DONE = 0 and ERRCODE the code of the first failing check). -/
def Obligations.ExecuteEndsWithDoneOrErr : Prop :=
  ∀ (s : State) (ts : List Turn), s.turns = .execute :: ts → s.busy = true → s.done = false → s.err = false →
    s.errcode = 0 →
    ∃ t, step s = .next t ∧ t.busy = false ∧
      match classify s.params.log2Nmax s.cmd with
      | none => t.done = true ∧ t.err = false ∧ t.errcode = 0
      | some e => t.done = false ∧ t.err = true ∧ t.errcode = e.code

/-- 60 R387, 70 R434: no step of the machine stops, whatever the state. -/
def Obligations.NoStepStops : Prop := ∀ s : State, ∃ t, step s = .next t

/-- R44: while BUSY = 1 every step leaves the CMD word as it is unless its turn is a reset; a reset leaves CMD, BUSY and
WINTAG 0. -/
def Obligations.CommandHeldWhileBusy : Prop :=
  ∀ s t : State, s.busy = true → step s = .next t →
    (¬ s.ResetsNext → t.cmd = s.cmd) ∧ (s.ResetsNext → t.cmd = 0 ∧ t.busy = false ∧ t.winTag = WinTag.zero)

/-! ## What each command does -/

/-- R371: NOP only completes; and 0x00000000 is the only word with OP = 0 that is no error. -/
def Obligations.NopOnlyCompletes : Prop :=
  (∀ s : State, exec .nop s = .next { s with busy := false, done := true }) ∧
  (∀ w : Word, fieldOp w = 0 → decode w = if w = 0 then .ok .nop else .error .rsvd)

/-- R370, R372: every well-formed command completes: BUSY = 0 and DONE = 1, with ERR, ERRCODE, CMD, CTRL, the
parameters and the environment untouched. -/
def Obligations.WellFormedCommandCompletes : Prop :=
  ∀ (i : Instr) (s : State), i.WellFormed s.params.log2Nmax = true →
    ∃ t, exec i s = .next t ∧ CompletedFrom s t ∧ SameOutsideStatus s t

/-- R222: BITREV moves every word of RE and IM to its bit-reversed index; rev_n is an involution on 0 .. 2^n−1, so the
walk done twice restores the buffer; for n = 1 it is the identity. -/
def Obligations.BitrevMovesEveryWordToItsReversal : Prop :=
  (∀ (s : State) (n : BitVec 4), legalLog2N s.params.log2Nmax 1 n = true →
    ∃ t, exec (.bitrev n) s = .next t ∧ CompletedFrom s t ∧
      ∀ i, i < 2 ^ n.toNat →
        t.ram .re (revBits n.toNat i) = s.ram .re i ∧ t.ram .im (revBits n.toNat i) = s.ram .im i) ∧
  (∀ n i : Nat, i < 2 ^ n → revBits n i < 2 ^ n ∧ revBits n (revBits n i) = i) ∧
  (∀ (n : Nat) (b : Cplx), 1 ≤ n → b.re.length = 2 ^ n → b.im.length = 2 ^ n →
    bitrevWalk n (bitrevWalk n b) = b) ∧
  ∀ i, i < 2 → revBits 1 i = i

/-- R225, R226: a stage is the parallel application of its butterflies: the pair of group g at offset j is combined
with the twiddle U_{s,j}, from the values before the stage. -/
def Obligations.StageIsParallelButterflies : Prop :=
  ∀ (s n : Nat) (b : Cplx), 1 ≤ s → s ≤ n → b.re.length = 2 ^ n → b.im.length = 2 ^ n →
    ∀ g j, j < 2 ^ (s - 1) → g < 2 ^ (n - s) →
      let i := j + g * 2 ^ s
      let ip := i + 2 ^ (s - 1)
      let u := twiddleAt s j
      let tr := fsub (fmul (rd b.re ip) u.1) (fmul (rd b.im ip) u.2)
      let ti := fadd (fmul (rd b.re ip) u.2) (fmul (rd b.im ip) u.1)
      rd (stage s n b).re i = fadd (rd b.re i) tr ∧ rd (stage s n b).im i = fadd (rd b.im i) ti ∧
      rd (stage s n b).re ip = fsub (rd b.re i) tr ∧ rd (stage s n b).im ip = fsub (rd b.im i) ti

/-- R227, R229: CFFT_FWD leaves in RE and IM the words CFFT_CORE computes from them: the bit-reversed words, then
stages 1 .. n in order. -/
def Obligations.CfftFwdRunsWalkThenStages : Prop :=
  ∀ (s : State) (n : BitVec 4), legalLog2N s.params.log2Nmax 1 n = true →
    ∃ t, exec (.cfftFwd n) s = .next t ∧ CompletedFrom s t ∧
      ∃ b, ComplexTransform n.toNat (s.ram .re) (s.ram .im) b ∧
        ∀ i, i < 2 ^ n.toNat → t.ram .re i = rd b.re i ∧ t.ram .im i = rd b.im i

/-- R230: CFFT_INV negates IM, runs CFFT_CORE, and divides by N with IM negated first. -/
def Obligations.CfftInvIsConjugateIdentity : Prop :=
  ∀ (s : State) (n : BitVec 4), legalLog2N s.params.log2Nmax 1 n = true →
    ∃ t, exec (.cfftInv n) s = .next t ∧ CompletedFrom s t ∧
      ∃ b, ComplexTransform n.toNat (s.ram .re) (fun i => fneg (s.ram .im i)) b ∧
        ∀ i, i < 2 ^ n.toNat →
          t.ram .re i = fdiv (rd b.re i) (i2f (2 ^ n.toNat : Nat)) ∧
          t.ram .im i = fdiv (fneg (rd b.im i)) (i2f (2 ^ n.toNat : Nat))

/-- R261 to R267: RFFT_FWD leaves in RE and IM what the five steps of RFFT_CORE make of the samples in RE: pairs packed,
CFFT_CORE of size N/2, R263's eight values for each bin 1 .. N/4−1, R264's special bins, and the last stage.  No word of
IM takes part. -/
def Obligations.RfftFwdResultIgnoresIm : Prop :=
  ∀ (s : State) (n : BitVec 4), legalLog2N s.params.log2Nmax 2 n = true →
    ∃ t, exec (.rfftFwd n) s = .next t ∧ CompletedFrom s t ∧
      ∃ b, RealTransform n.toNat (s.ram .re) b ∧
        ∀ i, i < 2 ^ n.toNat → t.ram .re i = rd b.re i ∧ t.ram .im i = rd b.im i

/-- R268: RFFT_INV leaves in RE the sums (RE + IM)/N of the five steps' result on y, where y[k] = RE[k] + IM[k] up to
N/2 and the conjugate bin's above.  IM becomes free words of a new draw: nothing is known of them (U2, log entry 4). -/
def Obligations.RfftInvResult : Prop :=
  ∀ (s : State) (n : BitVec 4), legalLog2N s.params.log2Nmax 2 n = true →
    ∃ t, exec (.rfftInv n) s = .next t ∧ CompletedFrom s t ∧ t.draws = s.draws + 1 ∧
      let N := 2 ^ n.toNat
      let y := fun k => if k ≤ N / 2 then fadd (s.ram .re k) (s.ram .im k)
        else fadd (s.ram .re (N - k)) (fneg (s.ram .im (N - k)))
      (∃ b, RealTransform n.toNat y b ∧ ∀ i, i < N → t.ram .re i = fdiv (fadd (rd b.re i) (rd b.im i)) (i2f N)) ∧
      ∀ i, i < N → t.ram .im i = freeWord s.draws (Ram.im.base + 4 * i)

/-- R290, R291: POLAR replaces each of the first C elements by its magnitude and its quadrant-corrected phase, both
from the values before. -/
def Obligations.PolarConvertsEachElement : Prop :=
  ∀ (s : State) (c : BitVec 16), s.params.Legal → legalCount s.params.log2Nmax c = true →
    ∃ t, exec (.polar c) s = .next t ∧ CompletedFrom s t ∧
      ∀ i, i < c.toNat →
        let r := s.ram .re i
        let x := s.ram .im i
        let ph := ATANF (fdiv x r)
        t.ram .re i = fsqrt (fadd (fmul r r) (fmul x x)) ∧
        t.ram .im i = if flt r ZERO = true then (if flt x ZERO = true then fadd ph NEG_PI_F else fadd ph PI_F) else ph

/-- R293: POLAR's magnitude never has its sign bit set, so it is never −0. -/
def Obligations.PolarMagnitudeHasNoSign : Prop := ∀ r x : Word, isNeg (polarMag r x) = false

/-- R312: GENWIN writes WINDOW(kind, N, i) to WIN[0 .. N) and sets WINTAG to (1, kind, n). -/
def Obligations.GenwinWritesWindowAndTag : Prop :=
  ∀ (s : State) (kind : BitVec 3) (n : BitVec 4) (k : WindowKind), WindowKind.ofField kind = some k →
    legalLog2N s.params.log2Nmax 2 n = true →
    ∃ t, exec (.genwin kind n) s = .next t ∧ CompletedFrom s t ∧
      t.winTag = { valid := true, kind := kind, log2n := n } ∧
      ∀ i, i < 2 ^ n.toNat → t.ram .win i = window k (2 ^ n.toNat) i

/-- R310, R311: the window coefficients by kind, with half = (N−1) div 2, k = 1/half, n = i − half, and the products
of the cosine's argument taken left to right. -/
def Obligations.WindowFormulas : Prop :=
  ∀ N i : Nat,
    let half := (N - 1) / 2
    let k := fdiv ONE (i2f half)
    let an := i2f (if half ≤ i then (i - half : Nat) else (half - i : Nat))
    let a2 := fmul (fmul TWO_PI_F (i2f i)) k
    let a4 := fmul (fmul FOUR_PI_F (i2f i)) k
    window .rect N i = ONE ∧
    window .bartlett N i = fsub ONE (fmul k an) ∧
    window .hamming N i = fsub C054 (fmul C046 (COSF a2)) ∧
    window .hanning N i = fsub HALF (fmul HALF (COSF a2)) ∧
    window .blackman N i = fadd (fsub C042 (fmul HALF (COSF a2))) (fmul C008 (COSF a4)) ∧
    window .welch N i = fsub ONE (fsqrt (fmul k an))

/-- R313: WINAPPLY multiplies each of the first C samples by its coefficient and leaves WINTAG and WIN as they are. -/
def Obligations.WinapplyMultipliesEachSample : Prop :=
  ∀ (s : State) (c : BitVec 16), s.params.Legal → legalCount s.params.log2Nmax c = true →
    ∃ t, exec (.winapply c) s = .next t ∧ CompletedFrom s t ∧ t.winTag = s.winTag ∧
      (∀ i, i < c.toNat → t.ram .re i = fmul (s.ram .re i) (s.ram .win i)) ∧
      (∀ i, i < 2 ^ 15 → t.ram .win i = s.ram .win i)

/-- R340, R341: DBCONV writes to DB[0 .. N/2) the clamped 20·log10(m·2/N) of RE and leaves RE and IM as they are. -/
def Obligations.DbconvConvertsHalfTheBins : Prop :=
  ∀ (s : State) (n : BitVec 4), legalLog2N s.params.log2Nmax 1 n = true →
    ∃ t, exec (.dbconv n) s = .next t ∧ CompletedFrom s t ∧
      (∀ i, i < 2 ^ n.toNat / 2 →
        let d := fmul TWENTY (LOG10F (fdiv (fmul (s.ram .re i) TWO) (i2f (2 ^ n.toNat : Nat))))
        t.ram .db i = if flt d M100 = true then M100 else d) ∧
      (∀ i, i < 2 ^ 15 → t.ram .re i = s.ram .re i ∧ t.ram .im i = s.ram .im i)

/-- R340: no dB value is below −100: a NaN is not below, and everything below is clamped to exactly −100. -/
def Obligations.DecibelNeverBelowFloor : Prop := ∀ (m : Word) (N : Nat), flt (dbElem m N) M100 = false

/-- R342, 95_test_vectors.md P5: SPECTRUM is exactly GENWIN (on a tag miss only), WINAPPLY N, RFFT_FWD, POLAR N/2 and
DBCONV, one after the other: the same final state. -/
def Obligations.SpectrumIsItsFiveCommands : Prop :=
  ∀ (s : State) (kind : BitVec 3) (n : BitVec 4),
    legalKind kind = true → legalLog2N s.params.log2Nmax 2 n = true →
    ∃ s1 s2 s3 s4 s5,
      (if s.tagHit kind n = true then s1 = s else exec (.genwin kind n) s = .next s1) ∧
      exec (.winapply (BitVec.ofNat 16 (2 ^ n.toNat))) s1 = .next s2 ∧
      exec (.rfftFwd n) s2 = .next s3 ∧
      exec (.polar (BitVec.ofNat 16 (2 ^ n.toNat / 2))) s3 = .next s4 ∧
      exec (.dbconv n) s4 = .next s5 ∧
      exec (.spectrum kind n) s = .next s5

/-- R343: where WINTAG tells the truth, SPECTRUM's outputs are a function of kind, n and RE[0 .. N) alone, whatever
WINTAG, WIN, IM and DB held before; and WINTAG ends (1, kind, n). -/
def Obligations.SpectrumDependsOnSamplesAlone : Prop :=
  ∀ (s1 s2 : State) (kind : BitVec 3) (n : BitVec 4),
    legalKind kind = true → legalLog2N s1.params.log2Nmax 2 n = true → legalLog2N s2.params.log2Nmax 2 n = true →
    s1.WindowHeld → s2.WindowHeld → SameWordsIn [(.re, 2 ^ n.toNat)] s1 s2 →
    ∃ t1 t2, exec (.spectrum kind n) s1 = .next t1 ∧ exec (.spectrum kind n) s2 = .next t2 ∧
      CompletedFrom s1 t1 ∧
      SameWordsIn [(.win, 2 ^ n.toNat), (.re, 2 ^ n.toNat), (.im, 2 ^ n.toNat), (.db, 2 ^ n.toNat / 2)] t1 t2 ∧
      t1.winTag = { valid := true, kind := kind, log2n := n } ∧ t2.winTag = t1.winTag

/-! ## Frames -/

/-- R51, write half: every byte outside a command's write set reads after it as before; a rejected command's write
set is empty (R387). -/
def Obligations.CommandsWriteOnlyTheirWriteSet : Prop :=
  ∀ (i : Instr) (s t : State), exec i s = .next t → SameBytesOutside (s.writeSetOf i) s t

/-- R51, read half: what a command leaves in its write set is a function of the words of its read set, of WINTAG, of
the parameters and, for RFFT_INV's unspecified IM, of the draw. -/
def Obligations.CommandsReadOnlyTheirReadSet : Prop :=
  ∀ (i : Instr) (s1 s2 t1 t2 : State), s2.params = s1.params → s2.winTag = s1.winTag → s2.draws = s1.draws →
    SameWordsIn (readSet (s1.instrTagHit i) i) s1 s2 → exec i s1 = .next t1 → exec i s2 = .next t2 →
    SameWordsIn (s1.writeSetOf i) t1 t2

/-- The frame of the registers: every command, legal or not, leaves CMD, CTRL.IE, the parameters, the responses and
the turns alone; only GENWIN and SPECTRUM change WINTAG (R66); only RFFT_INV uses up a draw. -/
def Obligations.CommandsLeaveOtherRegistersAlone : Prop :=
  ∀ (i : Instr) (s t : State), exec i s = .next t →
    SameOutsideStatus s t ∧
    ((∀ kind n, i ≠ .genwin kind n ∧ i ≠ .spectrum kind n) → t.winTag = s.winTag) ∧
    ((∀ n, i ≠ .rfftInv n) → t.draws = s.draws) ∧ t.busy = false

/-! ## The host port -/

/-- R109, R382: a read changes nothing but the recorded responses, of which it adds at most one. -/
def Obligations.ReadsHaveNoSideEffect : Prop :=
  ∀ (s : State) (ts : List Turn) (addr size : Nat) (lanes : BitVec 4), s.turns = .read addr size lanes :: ts →
    ∃ rs : List Response, rs.length ≤ 1 ∧
      step s = .next { s with turns := ts, responses := s.responses ++ rs }

/-- R61 to R66, R103: the six registers read, busy or idle, as the words of their field tables. -/
def Obligations.RegistersReadAsTheirFields : Prop :=
  ∀ (s : State) (ts : List Turn),
    let reads := fun (off : Nat) (w : Word) =>
      s.turns = .read (s.params.coreBase + off) 4 0xF :: ts →
        step s = .next { s with turns := ts, responses := s.responses ++ [.read w true] }
    reads 0x000 0x53504B31 ∧
    reads 0x004 (BitVec.ofNat 32 (0x100 + s.params.log2Nmax % 16)) ∧
    reads 0x008 s.cmd ∧
    reads 0x00C (BitVec.ofNat 32 (s.errcode.toNat * 16 + s.err.toNat * 4 + s.done.toNat * 2 + s.busy.toNat)) ∧
    reads 0x010 (BitVec.ofNat 32 s.ie.toNat) ∧
    reads 0x014 (BitVec.ofNat 32 (s.winTag.log2n.toNat * 256 + s.winTag.kind.toNat * 16 + s.winTag.valid.toNat))

/-- R111: the TWROM window reads the ROM's words up to LOG2_NMAX and 0 above, busy or idle, and refuses writes. -/
def Obligations.RomWindowIsReadOnly : Prop :=
  ∀ (s : State) (ts : List Turn) (stage : Nat), 1 ≤ stage → stage ≤ 16 →
    let base := s.params.coreBase + 0x200 + 8 * (stage - 1)
    let shown := fun (w : Word) => if stage ≤ s.params.log2Nmax then w else 0
    (s.turns = .read base 4 0xF :: ts →
      step s = .next { s with turns := ts, responses := s.responses ++ [.read (shown (romSr stage)) true] }) ∧
    (s.turns = .read (base + 4) 4 0xF :: ts →
      step s = .next { s with turns := ts, responses := s.responses ++ [.read (shown (romSi stage)) true] }) ∧
    (∀ v, s.turns = .write base 4 0xF v :: ts ∨ s.turns = .write (base + 4) 4 0xF v :: ts →
      step s = .next { s with turns := ts, responses := s.responses ++ [.write false] })

/-- R63: an idle core accepts any CMD word, which sets BUSY and clears DONE, ERR and ERRCODE; a busy one answers
ERROR and changes nothing; CMD reads back the last accepted word; after reset it is 0 and is not executed. -/
def Obligations.CmdWriteIsAcceptedOnlyWhenIdle : Prop :=
  (∀ (s : State) (ts : List Turn) (w : Word), s.turns = .write (s.params.coreBase + 0x008) 4 0xF w :: ts →
    (s.busy = false →
      step s = .next { s with
        turns := ts, cmd := w, busy := true, done := false, err := false, errcode := 0,
        responses := s.responses ++ [.write true] }) ∧
    (s.busy = true → step s = .next { s with turns := ts, responses := s.responses ++ [.write false] })) ∧
  (∀ (s : State) (ts : List Turn), s.turns = .read (s.params.coreBase + 0x008) 4 0xF :: ts →
    step s = .next { s with turns := ts, responses := s.responses ++ [.read s.cmd true] }) ∧
  State.reset.cmd = 0 ∧ step State.reset = .next State.reset

/-- R64: a STATUS write answers OKAY, busy or idle; it clears DONE where bit 1 is 1 and ERR with ERRCODE where bit 2
is 1, and changes nothing else (60 R388). -/
def Obligations.StatusWriteClearsWhatItNames : Prop :=
  ∀ (s : State) (ts : List Turn) (w : Word), s.turns = .write (s.params.coreBase + 0x00C) 4 0xF w :: ts →
    step s = .next { s with
      turns := ts
      done := s.done && !(w.getLsbD 1)
      err := s.err && !(w.getLsbD 2)
      errcode := if w.getLsbD 2 = true then 0 else s.errcode
      responses := s.responses ++ [.write true] }

/-- R65: a CTRL write answers OKAY, busy or idle; with bit 31 it performs the soft reset, which leaves every register
at its reset value, and IE ends 0 whatever bit 0 is; else IE becomes bit 0 and nothing else changes.  A read gives IE
in bit 0 and 0 in every other bit. -/
def Obligations.CtrlWriteSetsIeOrResets : Prop :=
  (∀ (s : State) (ts : List Turn) (w : Word), s.turns = .write (s.params.coreBase + 0x010) 4 0xF w :: ts →
    ∃ t, step s = .next t ∧ t.responses = s.responses ++ [.write true] ∧
      (w.getLsbD 31 = false →
        t = { s with turns := ts, ie := w.getLsbD 0, responses := s.responses ++ [.write true] }) ∧
      (w.getLsbD 31 = true →
        t.ie = false ∧ t.cmd = 0 ∧ t.statusWord = 0 ∧ t.ctrlWord = 0 ∧ t.winTagWord = 0 ∧ t.irq = false)) ∧
  (∀ (s : State) (ts : List Turn), s.turns = .read (s.params.coreBase + 0x010) 4 0xF :: ts →
    step s = .next { s with
      turns := ts, responses := s.responses ++ [.read (if s.ie = true then 1 else 0) true] })

/-- R422: a soft reset of an idle core keeps every RAM byte; of a busy core it aborts the command: every byte outside
the write set of the latched word keeps its value (none is lost if the word is illegal), every word inside becomes a
free word of a new draw (U3, log entry 5), and BUSY, DONE and ERR end 0. -/
def Obligations.SoftResetKeepsOrAborts : Prop :=
  ∀ (s : State) (ts : List Turn) (w : Word), s.turns = .write (s.params.coreBase + 0x010) 4 0xF w :: ts →
    w.getLsbD 31 = true →
    ∃ t, step s = .next t ∧ t.responses = s.responses ++ [.write true] ∧
      t.cmd = 0 ∧ t.busy = false ∧ t.done = false ∧ t.err = false ∧ t.errcode = 0 ∧ t.ie = false ∧
      t.winTag = WinTag.zero ∧ t.params = s.params ∧
      (s.busy = false → t.draws = s.draws ∧ ∀ a, t.byteAt a = s.byteAt a) ∧
      (s.busy = true → t.draws = s.draws + 1) ∧
      (s.busy = true → ∀ i, decode s.cmd = .ok i →
        SameBytesOutside (s.writeSetOf i) s t ∧
        (∀ b ∈ s.writeSetOf i, ∀ k, k < b.2 → t.ram b.1 k = freeWord s.draws (b.1.base + 4 * k))) ∧
      (s.busy = true → classify s.params.log2Nmax s.cmd ≠ none → ∀ a, t.byteAt a = s.byteAt a)

/-- R420, R421: a hardware reset sets every register to its reset value, from any state, and leaves every RAM byte a
free value of a new draw (R53). -/
def Obligations.HardResetFromAnyState : Prop :=
  ∀ (s : State) (ts : List Turn), s.turns = .hardReset :: ts →
    ∃ t, step s = .next t ∧ t.cmd = 0 ∧ t.statusWord = 0 ∧ t.ctrlWord = 0 ∧ t.winTagWord = 0 ∧ t.irq = false ∧
      t.params = s.params ∧ t.turns = ts ∧ t.responses = s.responses ∧ t.draws = s.draws + 1 ∧
      ∀ a, t.byteAt a = Config.freeByte s.draws a

/-- R104, R110: while BUSY = 0 a host write to an existing RAM word answers OKAY, the word reads back as written,
every other byte keeps its value, and WINTAG is cleared if the RAM is WIN and kept if not. -/
def Obligations.HostRamWriteStoresOneWord : Prop :=
  ∀ (s : State) (ts : List Turn) (r : Ram) (i : Nat) (w : Word), s.busy = false → i < r.words s.params.log2Nmax →
    i < 2 ^ 15 → s.turns = .write (s.params.coreBase + r.base + 4 * i) 4 0xF w :: ts →
    ∃ t, step s = .next t ∧ t.responses = s.responses ++ [.write true] ∧ t.ram r i = w ∧
      (∀ a, ¬ (r.base + 4 * i ≤ a ∧ a < r.base + 4 * i + 4) → t.byteAt a = s.byteAt a) ∧
      t.winTag = (if r = .win then WinTag.zero else s.winTag) ∧
      t.cmd = s.cmd ∧ t.busy = s.busy ∧ t.done = s.done ∧ t.err = s.err ∧ t.errcode = s.errcode ∧ t.ie = s.ie

/-- R103, R110: while BUSY = 0 a host read of an existing RAM word gives the word. -/
def Obligations.HostRamReadGivesTheWord : Prop :=
  ∀ (s : State) (ts : List Turn) (r : Ram) (i : Nat), s.busy = false → i < r.words s.params.log2Nmax →
    i < 2 ^ 15 → s.turns = .read (s.params.coreBase + r.base + 4 * i) 4 0xF :: ts →
    step s = .next { s with turns := ts, responses := s.responses ++ [.read (s.ram r i) true] }

/-- R425: while BUSY = 1 every access to a RAM window gets ERROR: a read returns 0 and a write is dropped. -/
def Obligations.RamIsClosedWhileBusy : Prop :=
  ∀ (s : State) (ts : List Turn) (off size : Nat) (lanes : BitVec 4) (w : Word), s.busy = true →
    0x20000 ≤ off → off < 0xA0000 →
    (s.turns = .read (s.params.coreBase + off) size lanes :: ts →
      step s = .next { s with turns := ts, responses := s.responses ++ [.read 0 false] }) ∧
    (s.turns = .write (s.params.coreBase + off) size lanes w :: ts →
      step s = .next { s with turns := ts, responses := s.responses ++ [.write false] })

/-- R381, R382: a transaction gets ERROR exactly for the causes of R381's table; it then changes nothing but the
recorded response, and a read returns 0. -/
def Obligations.BusErrorsHaveExactlyTheListedCauses : Prop :=
  ∀ (s : State) (ts : List Turn) (off size : Nat) (lanes : BitVec 4), off < 0x100000 →
    (s.turns = .read (s.params.coreBase + off) size lanes :: ts →
      (ReadFails s off size lanes →
        step s = .next { s with turns := ts, responses := s.responses ++ [.read 0 false] }) ∧
      (¬ ReadFails s off size lanes →
        ∃ w, step s = .next { s with turns := ts, responses := s.responses ++ [.read w true] })) ∧
    (∀ v, s.turns = .write (s.params.coreBase + off) size lanes v :: ts →
      (WriteFails s off size lanes →
        step s = .next { s with turns := ts, responses := s.responses ++ [.write false] }) ∧
      (¬ WriteFails s off size lanes →
        ∃ t, step s = .next t ∧ t.responses = s.responses ++ [.write true]))

/-- R68: irq is CTRL.IE and (DONE or ERR), a function of the registers; so EXECUTE on an accepted command leaves it
equal to IE (60 R386, R389), and it is 0 after both bits are cleared by a STATUS write of 6 (R388). -/
def Obligations.IrqFollowsStatusAndEnable : Prop :=
  (∀ s : State, s.irq = true ↔ s.ie = true ∧ (s.done = true ∨ s.err = true)) ∧
  (∀ (s t : State) (ts : List Turn), s.turns = .execute :: ts → s.busy = true → step s = .next t → t.irq = s.ie) ∧
  (∀ (s t : State) (ts : List Turn), s.turns = .write (s.params.coreBase + 0x00C) 4 0xF 6 :: ts → step s = .next t →
    t.irq = false)

/-! ## Invariants -/

/-- R64: at most one of DONE and ERR is 1, both are 0 while BUSY = 1, and ERRCODE is 0 exactly while ERR is 0, else
1 .. 5: every step keeps it. -/
def Obligations.StatusInvariantIsKept : Prop :=
  ∀ s t : State, s.StatusOk → step s = .next t → t.StatusOk

/-- R66: WINTAG's KIND and LOG2N are 0 while VALID = 0 and a legal window while VALID = 1: every step keeps it. -/
def Obligations.WinTagFieldsAreKept : Prop := ∀ s t : State, s.TagOk → step s = .next t → t.TagOk

/-- R70: whenever WINTAG.VALID = 1, WIN holds the window WINTAG names: every step keeps it, on a core with legal
parameters. -/
def Obligations.WindowInvariantIsKept : Prop :=
  ∀ s t : State, s.params.Legal → s.WindowHeld → step s = .next t → t.WindowHeld

/-- The memory keeps its canonical form in every step (addresses strictly rising), and the next draw stays newer than the
one behind unwritten RAM, so that every draw is a new one (log entry 3). -/
def Obligations.CanonicalMemoryIsKept : Prop :=
  (∀ s t : State, s.mem.wf → step s = .next t → t.mem.wf) ∧
  (∀ s t : State, s.DrawsFresh → step s = .next t → t.DrawsFresh)

/-- R9: no step changes LOG2_NMAX or CORE_BASE. -/
def Obligations.ParametersNeverChange : Prop := ∀ s t : State, step s = .next t → t.params = s.params

/-- The invariants hold right after reset, in the reference configuration (log entry 2). -/
def Obligations.InvariantsHoldAtReset : Prop :=
  State.reset.StatusOk ∧ State.reset.TagOk ∧ State.reset.WindowHeld ∧ State.reset.mem.wf ∧ State.reset.DrawsFresh ∧
    State.reset.params.Legal

/-- R69, R421: the registers right after reset, as the host reads them, in the reference configuration (log entry 2);
every RAM byte is a free value (R53). -/
def Obligations.ResetRegisterValues : Prop :=
  idWord = 0x53504B31 ∧ configWord State.reset.params = 0x0000010C ∧ State.reset.cmd = 0 ∧
  State.reset.statusWord = 0 ∧ State.reset.ctrlWord = 0 ∧ State.reset.winTagWord = 0 ∧ State.reset.irq = false ∧
  ∀ a, State.reset.byteAt a = Config.freeByte State.reset.powerDraw a

/-! ## Numerics -/

/-- R181: RN of a nonzero rational is the nearest binary32, ties to even, infinite from the overflow threshold on. -/
def Obligations.RnIsNearestTiesToEven : Prop := ∀ x : ℚ, x ≠ 0 → IsRN (x : ℝ) (RN x)

/-- R184: fadd of a NaN or of opposite infinities is the canonical NaN, an infinite operand else is the sum, an exact
zero sum is −0 for two −0 and else +0, and any other sum is the exact one rounded once; fsub adds the negated operand. -/
def Obligations.SumFollowsItsRule : Prop :=
  (∀ a b : Word,
    (isNaN a = true ∨ isNaN b = true → fadd a b = 0x7FC00000) ∧
    (isNaN b = false → isInf a = true → fadd a b = if isInf b = true ∧ b ≠ a then 0x7FC00000 else a) ∧
    (isFinite a = true → isInf b = true → fadd a b = b) ∧
    (isFinite a = true → isFinite b = true →
      (val a + val b = 0 → fadd a b = if a = 0x80000000 ∧ b = 0x80000000 then 0x80000000 else 0) ∧
      (val a + val b ≠ 0 → IsRN ((val a + val b : ℚ) : ℝ) (fadd a b)))) ∧
  ∀ a b : Word, fsub a b = fadd a (b ^^^ 0x80000000)

/-- R185, R186: the special cases of fmul and fdiv (`neg` is the sign of the result, the two signs' exclusive or), and
any other exact result rounded once, a result that rounds to zero keeping its sign. -/
def Obligations.ProductAndQuotientFollowTheirRules : Prop :=
  ∀ a b : Word,
    let neg := isNeg a ^^ isNeg b
    let zero : Word := if neg = true then 0x80000000 else 0
    let inf : Word := if neg = true then 0xFF800000 else 0x7F800000
    (isNaN a = true ∨ isNaN b = true → fmul a b = 0x7FC00000 ∧ fdiv a b = 0x7FC00000) ∧
    (isInf a = true → isZero b = true → fmul a b = 0x7FC00000 ∧ fmul b a = 0x7FC00000 ∧ fdiv a b = inf) ∧
    (isInf a = true → isInf b = true → fmul a b = inf ∧ fdiv a b = 0x7FC00000) ∧
    (isInf a = true → isFinite b = true → isZero b = false → fmul a b = inf ∧ fmul b a = inf ∧ fdiv a b = inf) ∧
    (isFinite a = true → isInf b = true → fdiv a b = zero) ∧
    (isZero a = true → isZero b = true → fdiv a b = 0x7FC00000) ∧
    (isFinite a = true → isZero a = false → isZero b = true → fdiv a b = inf) ∧
    (isFinite a = true → isFinite b = true →
      (val a * val b = 0 → fmul a b = zero) ∧
      (val a * val b ≠ 0 → IsRN ((val a * val b : ℚ) : ℝ) (fmul a b)) ∧
      (isZero a = true → isZero b = false → fdiv a b = zero) ∧
      (isZero a = false → isZero b = false → IsRN ((val a / val b : ℚ) : ℝ) (fdiv a b)))

/-- R187: fsqrt of a NaN and of a negative operand is the canonical NaN, of ±0 the operand, of +∞ +∞, and of any other
operand the exact square root rounded once. -/
def Obligations.SqrtFollowsItsRule : Prop :=
  ∀ a : Word,
    (isNaN a = true → fsqrt a = 0x7FC00000) ∧
    (isZero a = true → fsqrt a = a) ∧
    (isNaN a = false → isZero a = false → isNeg a = true → fsqrt a = 0x7FC00000) ∧
    (fsqrt 0x7F800000 = 0x7F800000) ∧
    (isFinite a = true → isNeg a = false → isZero a = false → IsRN (Real.sqrt (val a : ℝ)) (fsqrt a))

/-- R183, R189: an arithmetic primitive that returns a NaN returns 0x7FC00000; fneg inverts bit 31 and no other. -/
def Obligations.NaNResultsAreCanonical : Prop :=
  (∀ a b : Word,
    (isNaN (fadd a b) = true → fadd a b = 0x7FC00000) ∧ (isNaN (fsub a b) = true → fsub a b = 0x7FC00000) ∧
    (isNaN (fmul a b) = true → fmul a b = 0x7FC00000) ∧ (isNaN (fdiv a b) = true → fdiv a b = 0x7FC00000)) ∧
  (∀ a : Word,
    (isNaN (fsqrt a) = true → fsqrt a = 0x7FC00000) ∧ (isNaN (COSF a) = true → COSF a = 0x7FC00000) ∧
    (isNaN (ATANF a) = true → ATANF a = 0x7FC00000) ∧ (isNaN (LOG10F a) = true → LOG10F a = 0x7FC00000) ∧
    ∀ i, i < 32 → (fneg a).getLsbD i = if i = 31 then !(a.getLsbD 31) else a.getLsbD i)

/-- R188: i2f rounds an integer to binary32, gives +0 for 0, and is exact on integers of magnitude at most 2^24. -/
def Obligations.IntegersConvertExactly : Prop :=
  (∀ k : Int, k ≠ 0 → IsRN (k : ℝ) (i2f k)) ∧ i2f 0 = 0 ∧
  ∀ k : Int, -2 ^ 24 ≤ k → k ≤ 2 ^ 24 → isFinite (i2f k) = true ∧ val (i2f k) = k

/-- R191 to R193: COSF, ATANF and LOG10F are correctly rounded wherever a precision the model tries settles the
rounding (log entry 6 says why that is every operand). -/
def Obligations.TranscendentalsAreCorrectlyRounded : Prop :=
  ∀ a : Word, isFinite a = true → isZero a = false →
    ((firstRounded (fun p => cosEnclosure p (magVal a)) (precisions ++ [lastPrecision])).isSome = true →
      IsRN (Real.cos (val a : ℝ)) (COSF a)) ∧
    ((firstRounded (fun p => atanEnclosure p (val a)) (precisions ++ [lastPrecision])).isSome = true →
      IsRN (Real.arctan (val a : ℝ)) (ATANF a)) ∧
    (isNeg a = false → a ≠ 0x3F800000 →
      (firstRounded (fun p => log10Enclosure p (val a)) (precisions ++ [lastPrecision])).isSome = true →
      IsRN (Real.logb 10 (val a : ℝ)) (LOG10F a))

/-- R191 to R193: the special cases of the three functions. -/
def Obligations.TranscendentalSpecialCases : Prop :=
  ∀ a : Word,
    (isNaN a = true → COSF a = 0x7FC00000 ∧ ATANF a = 0x7FC00000 ∧ LOG10F a = 0x7FC00000) ∧
    (isInf a = true → COSF a = 0x7FC00000 ∧ ATANF a = (if isNeg a = true then 0xBFC90FDB else 0x3FC90FDB) ∧
      LOG10F a = if isNeg a = true then 0x7FC00000 else 0x7F800000) ∧
    (isZero a = true → COSF a = 0x3F800000 ∧ ATANF a = a ∧ LOG10F a = 0xFF800000) ∧
    (isNeg a = true → isZero a = false → LOG10F a = 0x7FC00000) ∧
    LOG10F 0x3F800000 = 0

/-- R190: flt is false on a NaN, takes −0 and +0 as equal, and otherwise orders −∞, the finite values and +∞. -/
def Obligations.QuietComparisonOrdersValues : Prop :=
  ∀ a b : Word,
    (isNaN a = true ∨ isNaN b = true → flt a b = false) ∧
    (isFinite a = true → isFinite b = true → (flt a b = true ↔ val a < val b)) ∧
    (isFinite b = true → flt 0xFF800000 b = true ∧ flt b 0xFF800000 = false ∧
      flt b 0x7F800000 = true ∧ flt 0x7F800000 b = false) ∧
    flt 0x80000000 0x00000000 = false ∧ flt 0xFF800000 0x7F800000 = true ∧ flt 0x7F800000 0xFF800000 = false ∧
    flt a a = false

/-- R56: each ROM word is the stage's cosine or minus sine, rounded to binary32 (+0 for −sin π). -/
def Obligations.RomHoldsRoundedSteps : Prop :=
  ∀ s : Nat, 1 ≤ s → s ≤ 15 →
    IsRN (Real.cos (Real.pi / 2 ^ (s - 1))) (romSr s) ∧ IsRN (-Real.sin (Real.pi / 2 ^ (s - 1))) (romSi s)
end

