-- ==== Sys2Proof/Laws/State.lean ====
section
/-! SUPPORT. Every field of the state after every named update, one lemma each, all true by rfl; and the two reads of
memory that see only `mem` and `powerDraw`. -/

namespace Sys2Proof.Machine

/-! ## setRam -/

@[simp] theorem State.setRam_params (s : State) (r : Ram) (n : Nat) (w : Nat → Word) :
    (s.setRam r n w).params = s.params := rfl
@[simp] theorem State.setRam_cmd (s : State) (r : Ram) (n : Nat) (w : Nat → Word) :
    (s.setRam r n w).cmd = s.cmd := rfl
@[simp] theorem State.setRam_busy (s : State) (r : Ram) (n : Nat) (w : Nat → Word) :
    (s.setRam r n w).busy = s.busy := rfl
@[simp] theorem State.setRam_done (s : State) (r : Ram) (n : Nat) (w : Nat → Word) :
    (s.setRam r n w).done = s.done := rfl
@[simp] theorem State.setRam_err (s : State) (r : Ram) (n : Nat) (w : Nat → Word) :
    (s.setRam r n w).err = s.err := rfl
@[simp] theorem State.setRam_errcode (s : State) (r : Ram) (n : Nat) (w : Nat → Word) :
    (s.setRam r n w).errcode = s.errcode := rfl
@[simp] theorem State.setRam_ie (s : State) (r : Ram) (n : Nat) (w : Nat → Word) :
    (s.setRam r n w).ie = s.ie := rfl
@[simp] theorem State.setRam_winTag (s : State) (r : Ram) (n : Nat) (w : Nat → Word) :
    (s.setRam r n w).winTag = s.winTag := rfl
@[simp] theorem State.setRam_mem (s : State) (r : Ram) (n : Nat) (w : Nat → Word) :
    (s.setRam r n w).mem = s.mem.writeWords r.base w n := rfl
@[simp] theorem State.setRam_powerDraw (s : State) (r : Ram) (n : Nat) (w : Nat → Word) :
    (s.setRam r n w).powerDraw = s.powerDraw := rfl
@[simp] theorem State.setRam_draws (s : State) (r : Ram) (n : Nat) (w : Nat → Word) :
    (s.setRam r n w).draws = s.draws := rfl
@[simp] theorem State.setRam_turns (s : State) (r : Ram) (n : Nat) (w : Nat → Word) :
    (s.setRam r n w).turns = s.turns := rfl
@[simp] theorem State.setRam_responses (s : State) (r : Ram) (n : Nat) (w : Nat → Word) :
    (s.setRam r n w).responses = s.responses := rfl

/-! ## setRamWord -/

@[simp] theorem State.setRamWord_params (s : State) (r : Ram) (i : Nat) (v : Word) :
    (s.setRamWord r i v).params = s.params := rfl
@[simp] theorem State.setRamWord_cmd (s : State) (r : Ram) (i : Nat) (v : Word) :
    (s.setRamWord r i v).cmd = s.cmd := rfl
@[simp] theorem State.setRamWord_busy (s : State) (r : Ram) (i : Nat) (v : Word) :
    (s.setRamWord r i v).busy = s.busy := rfl
@[simp] theorem State.setRamWord_done (s : State) (r : Ram) (i : Nat) (v : Word) :
    (s.setRamWord r i v).done = s.done := rfl
@[simp] theorem State.setRamWord_err (s : State) (r : Ram) (i : Nat) (v : Word) :
    (s.setRamWord r i v).err = s.err := rfl
@[simp] theorem State.setRamWord_errcode (s : State) (r : Ram) (i : Nat) (v : Word) :
    (s.setRamWord r i v).errcode = s.errcode := rfl
@[simp] theorem State.setRamWord_ie (s : State) (r : Ram) (i : Nat) (v : Word) :
    (s.setRamWord r i v).ie = s.ie := rfl
@[simp] theorem State.setRamWord_winTag (s : State) (r : Ram) (i : Nat) (v : Word) :
    (s.setRamWord r i v).winTag = s.winTag := rfl
@[simp] theorem State.setRamWord_mem (s : State) (r : Ram) (i : Nat) (v : Word) :
    (s.setRamWord r i v).mem = s.mem.writeWord (r.base + 4 * i) v := rfl
@[simp] theorem State.setRamWord_powerDraw (s : State) (r : Ram) (i : Nat) (v : Word) :
    (s.setRamWord r i v).powerDraw = s.powerDraw := rfl
@[simp] theorem State.setRamWord_draws (s : State) (r : Ram) (i : Nat) (v : Word) :
    (s.setRamWord r i v).draws = s.draws := rfl
@[simp] theorem State.setRamWord_turns (s : State) (r : Ram) (i : Nat) (v : Word) :
    (s.setRamWord r i v).turns = s.turns := rfl
@[simp] theorem State.setRamWord_responses (s : State) (r : Ram) (i : Nat) (v : Word) :
    (s.setRamWord r i v).responses = s.responses := rfl

/-! ## nextDraw -/

@[simp] theorem State.nextDraw_params (s : State) :
    (s.nextDraw).params = s.params := rfl
@[simp] theorem State.nextDraw_cmd (s : State) :
    (s.nextDraw).cmd = s.cmd := rfl
@[simp] theorem State.nextDraw_busy (s : State) :
    (s.nextDraw).busy = s.busy := rfl
@[simp] theorem State.nextDraw_done (s : State) :
    (s.nextDraw).done = s.done := rfl
@[simp] theorem State.nextDraw_err (s : State) :
    (s.nextDraw).err = s.err := rfl
@[simp] theorem State.nextDraw_errcode (s : State) :
    (s.nextDraw).errcode = s.errcode := rfl
@[simp] theorem State.nextDraw_ie (s : State) :
    (s.nextDraw).ie = s.ie := rfl
@[simp] theorem State.nextDraw_winTag (s : State) :
    (s.nextDraw).winTag = s.winTag := rfl
@[simp] theorem State.nextDraw_mem (s : State) :
    (s.nextDraw).mem = s.mem := rfl
@[simp] theorem State.nextDraw_powerDraw (s : State) :
    (s.nextDraw).powerDraw = s.powerDraw := rfl
@[simp] theorem State.nextDraw_draws (s : State) :
    (s.nextDraw).draws = s.draws + 1 := rfl
@[simp] theorem State.nextDraw_turns (s : State) :
    (s.nextDraw).turns = s.turns := rfl
@[simp] theorem State.nextDraw_responses (s : State) :
    (s.nextDraw).responses = s.responses := rfl

/-! ## latchCommand -/

@[simp] theorem State.latchCommand_params (s : State) (w : Word) :
    (s.latchCommand w).params = s.params := rfl
@[simp] theorem State.latchCommand_cmd (s : State) (w : Word) :
    (s.latchCommand w).cmd = w := rfl
@[simp] theorem State.latchCommand_busy (s : State) (w : Word) :
    (s.latchCommand w).busy = true := rfl
@[simp] theorem State.latchCommand_done (s : State) (w : Word) :
    (s.latchCommand w).done = false := rfl
@[simp] theorem State.latchCommand_err (s : State) (w : Word) :
    (s.latchCommand w).err = false := rfl
@[simp] theorem State.latchCommand_errcode (s : State) (w : Word) :
    (s.latchCommand w).errcode = 0 := rfl
@[simp] theorem State.latchCommand_ie (s : State) (w : Word) :
    (s.latchCommand w).ie = s.ie := rfl
@[simp] theorem State.latchCommand_winTag (s : State) (w : Word) :
    (s.latchCommand w).winTag = s.winTag := rfl
@[simp] theorem State.latchCommand_mem (s : State) (w : Word) :
    (s.latchCommand w).mem = s.mem := rfl
@[simp] theorem State.latchCommand_powerDraw (s : State) (w : Word) :
    (s.latchCommand w).powerDraw = s.powerDraw := rfl
@[simp] theorem State.latchCommand_draws (s : State) (w : Word) :
    (s.latchCommand w).draws = s.draws := rfl
@[simp] theorem State.latchCommand_turns (s : State) (w : Word) :
    (s.latchCommand w).turns = s.turns := rfl
@[simp] theorem State.latchCommand_responses (s : State) (w : Word) :
    (s.latchCommand w).responses = s.responses := rfl

/-! ## complete -/

@[simp] theorem State.complete_params (s : State) :
    (s.complete).params = s.params := rfl
@[simp] theorem State.complete_cmd (s : State) :
    (s.complete).cmd = s.cmd := rfl
@[simp] theorem State.complete_busy (s : State) :
    (s.complete).busy = false := rfl
@[simp] theorem State.complete_done (s : State) :
    (s.complete).done = true := rfl
@[simp] theorem State.complete_err (s : State) :
    (s.complete).err = s.err := rfl
@[simp] theorem State.complete_errcode (s : State) :
    (s.complete).errcode = s.errcode := rfl
@[simp] theorem State.complete_ie (s : State) :
    (s.complete).ie = s.ie := rfl
@[simp] theorem State.complete_winTag (s : State) :
    (s.complete).winTag = s.winTag := rfl
@[simp] theorem State.complete_mem (s : State) :
    (s.complete).mem = s.mem := rfl
@[simp] theorem State.complete_powerDraw (s : State) :
    (s.complete).powerDraw = s.powerDraw := rfl
@[simp] theorem State.complete_draws (s : State) :
    (s.complete).draws = s.draws := rfl
@[simp] theorem State.complete_turns (s : State) :
    (s.complete).turns = s.turns := rfl
@[simp] theorem State.complete_responses (s : State) :
    (s.complete).responses = s.responses := rfl

/-! ## raiseCmdError -/

@[simp] theorem State.raiseCmdError_params (s : State) (e : CmdError) :
    (s.raiseCmdError e).params = s.params := rfl
@[simp] theorem State.raiseCmdError_cmd (s : State) (e : CmdError) :
    (s.raiseCmdError e).cmd = s.cmd := rfl
@[simp] theorem State.raiseCmdError_busy (s : State) (e : CmdError) :
    (s.raiseCmdError e).busy = false := rfl
@[simp] theorem State.raiseCmdError_done (s : State) (e : CmdError) :
    (s.raiseCmdError e).done = s.done := rfl
@[simp] theorem State.raiseCmdError_err (s : State) (e : CmdError) :
    (s.raiseCmdError e).err = true := rfl
@[simp] theorem State.raiseCmdError_errcode (s : State) (e : CmdError) :
    (s.raiseCmdError e).errcode = e.code := rfl
@[simp] theorem State.raiseCmdError_ie (s : State) (e : CmdError) :
    (s.raiseCmdError e).ie = s.ie := rfl
@[simp] theorem State.raiseCmdError_winTag (s : State) (e : CmdError) :
    (s.raiseCmdError e).winTag = s.winTag := rfl
@[simp] theorem State.raiseCmdError_mem (s : State) (e : CmdError) :
    (s.raiseCmdError e).mem = s.mem := rfl
@[simp] theorem State.raiseCmdError_powerDraw (s : State) (e : CmdError) :
    (s.raiseCmdError e).powerDraw = s.powerDraw := rfl
@[simp] theorem State.raiseCmdError_draws (s : State) (e : CmdError) :
    (s.raiseCmdError e).draws = s.draws := rfl
@[simp] theorem State.raiseCmdError_turns (s : State) (e : CmdError) :
    (s.raiseCmdError e).turns = s.turns := rfl
@[simp] theorem State.raiseCmdError_responses (s : State) (e : CmdError) :
    (s.raiseCmdError e).responses = s.responses := rfl

/-! ## acknowledge -/

@[simp] theorem State.acknowledge_params (s : State) (w : Word) :
    (s.acknowledge w).params = s.params := rfl
@[simp] theorem State.acknowledge_cmd (s : State) (w : Word) :
    (s.acknowledge w).cmd = s.cmd := rfl
@[simp] theorem State.acknowledge_busy (s : State) (w : Word) :
    (s.acknowledge w).busy = s.busy := rfl
@[simp] theorem State.acknowledge_done (s : State) (w : Word) :
    (s.acknowledge w).done = if w.getLsbD 1 then false else s.done := rfl
@[simp] theorem State.acknowledge_err (s : State) (w : Word) :
    (s.acknowledge w).err = if w.getLsbD 2 then false else s.err := rfl
@[simp] theorem State.acknowledge_errcode (s : State) (w : Word) :
    (s.acknowledge w).errcode = if w.getLsbD 2 then 0 else s.errcode := rfl
@[simp] theorem State.acknowledge_ie (s : State) (w : Word) :
    (s.acknowledge w).ie = s.ie := rfl
@[simp] theorem State.acknowledge_winTag (s : State) (w : Word) :
    (s.acknowledge w).winTag = s.winTag := rfl
@[simp] theorem State.acknowledge_mem (s : State) (w : Word) :
    (s.acknowledge w).mem = s.mem := rfl
@[simp] theorem State.acknowledge_powerDraw (s : State) (w : Word) :
    (s.acknowledge w).powerDraw = s.powerDraw := rfl
@[simp] theorem State.acknowledge_draws (s : State) (w : Word) :
    (s.acknowledge w).draws = s.draws := rfl
@[simp] theorem State.acknowledge_turns (s : State) (w : Word) :
    (s.acknowledge w).turns = s.turns := rfl
@[simp] theorem State.acknowledge_responses (s : State) (w : Word) :
    (s.acknowledge w).responses = s.responses := rfl

/-! ## setWinTag -/

@[simp] theorem State.setWinTag_params (s : State) (kind : BitVec 3) (n : BitVec 4) :
    (s.setWinTag kind n).params = s.params := rfl
@[simp] theorem State.setWinTag_cmd (s : State) (kind : BitVec 3) (n : BitVec 4) :
    (s.setWinTag kind n).cmd = s.cmd := rfl
@[simp] theorem State.setWinTag_busy (s : State) (kind : BitVec 3) (n : BitVec 4) :
    (s.setWinTag kind n).busy = s.busy := rfl
@[simp] theorem State.setWinTag_done (s : State) (kind : BitVec 3) (n : BitVec 4) :
    (s.setWinTag kind n).done = s.done := rfl
@[simp] theorem State.setWinTag_err (s : State) (kind : BitVec 3) (n : BitVec 4) :
    (s.setWinTag kind n).err = s.err := rfl
@[simp] theorem State.setWinTag_errcode (s : State) (kind : BitVec 3) (n : BitVec 4) :
    (s.setWinTag kind n).errcode = s.errcode := rfl
@[simp] theorem State.setWinTag_ie (s : State) (kind : BitVec 3) (n : BitVec 4) :
    (s.setWinTag kind n).ie = s.ie := rfl
@[simp] theorem State.setWinTag_winTag (s : State) (kind : BitVec 3) (n : BitVec 4) :
    (s.setWinTag kind n).winTag = WinTag.mk true kind n := rfl
@[simp] theorem State.setWinTag_mem (s : State) (kind : BitVec 3) (n : BitVec 4) :
    (s.setWinTag kind n).mem = s.mem := rfl
@[simp] theorem State.setWinTag_powerDraw (s : State) (kind : BitVec 3) (n : BitVec 4) :
    (s.setWinTag kind n).powerDraw = s.powerDraw := rfl
@[simp] theorem State.setWinTag_draws (s : State) (kind : BitVec 3) (n : BitVec 4) :
    (s.setWinTag kind n).draws = s.draws := rfl
@[simp] theorem State.setWinTag_turns (s : State) (kind : BitVec 3) (n : BitVec 4) :
    (s.setWinTag kind n).turns = s.turns := rfl
@[simp] theorem State.setWinTag_responses (s : State) (kind : BitVec 3) (n : BitVec 4) :
    (s.setWinTag kind n).responses = s.responses := rfl

/-! ## clearWinTag -/

@[simp] theorem State.clearWinTag_params (s : State) :
    (s.clearWinTag).params = s.params := rfl
@[simp] theorem State.clearWinTag_cmd (s : State) :
    (s.clearWinTag).cmd = s.cmd := rfl
@[simp] theorem State.clearWinTag_busy (s : State) :
    (s.clearWinTag).busy = s.busy := rfl
@[simp] theorem State.clearWinTag_done (s : State) :
    (s.clearWinTag).done = s.done := rfl
@[simp] theorem State.clearWinTag_err (s : State) :
    (s.clearWinTag).err = s.err := rfl
@[simp] theorem State.clearWinTag_errcode (s : State) :
    (s.clearWinTag).errcode = s.errcode := rfl
@[simp] theorem State.clearWinTag_ie (s : State) :
    (s.clearWinTag).ie = s.ie := rfl
@[simp] theorem State.clearWinTag_winTag (s : State) :
    (s.clearWinTag).winTag = WinTag.zero := rfl
@[simp] theorem State.clearWinTag_mem (s : State) :
    (s.clearWinTag).mem = s.mem := rfl
@[simp] theorem State.clearWinTag_powerDraw (s : State) :
    (s.clearWinTag).powerDraw = s.powerDraw := rfl
@[simp] theorem State.clearWinTag_draws (s : State) :
    (s.clearWinTag).draws = s.draws := rfl
@[simp] theorem State.clearWinTag_turns (s : State) :
    (s.clearWinTag).turns = s.turns := rfl
@[simp] theorem State.clearWinTag_responses (s : State) :
    (s.clearWinTag).responses = s.responses := rfl

/-! ## resetRegisters -/

@[simp] theorem State.resetRegisters_params (s : State) :
    (s.resetRegisters).params = s.params := rfl
@[simp] theorem State.resetRegisters_cmd (s : State) :
    (s.resetRegisters).cmd = 0 := rfl
@[simp] theorem State.resetRegisters_busy (s : State) :
    (s.resetRegisters).busy = false := rfl
@[simp] theorem State.resetRegisters_done (s : State) :
    (s.resetRegisters).done = false := rfl
@[simp] theorem State.resetRegisters_err (s : State) :
    (s.resetRegisters).err = false := rfl
@[simp] theorem State.resetRegisters_errcode (s : State) :
    (s.resetRegisters).errcode = 0 := rfl
@[simp] theorem State.resetRegisters_ie (s : State) :
    (s.resetRegisters).ie = false := rfl
@[simp] theorem State.resetRegisters_winTag (s : State) :
    (s.resetRegisters).winTag = WinTag.zero := rfl
@[simp] theorem State.resetRegisters_mem (s : State) :
    (s.resetRegisters).mem = s.mem := rfl
@[simp] theorem State.resetRegisters_powerDraw (s : State) :
    (s.resetRegisters).powerDraw = s.powerDraw := rfl
@[simp] theorem State.resetRegisters_draws (s : State) :
    (s.resetRegisters).draws = s.draws := rfl
@[simp] theorem State.resetRegisters_turns (s : State) :
    (s.resetRegisters).turns = s.turns := rfl
@[simp] theorem State.resetRegisters_responses (s : State) :
    (s.resetRegisters).responses = s.responses := rfl

/-! ## hardReset -/

@[simp] theorem State.hardReset_params (s : State) :
    (s.hardReset).params = s.params := rfl
@[simp] theorem State.hardReset_cmd (s : State) :
    (s.hardReset).cmd = 0 := rfl
@[simp] theorem State.hardReset_busy (s : State) :
    (s.hardReset).busy = false := rfl
@[simp] theorem State.hardReset_done (s : State) :
    (s.hardReset).done = false := rfl
@[simp] theorem State.hardReset_err (s : State) :
    (s.hardReset).err = false := rfl
@[simp] theorem State.hardReset_errcode (s : State) :
    (s.hardReset).errcode = 0 := rfl
@[simp] theorem State.hardReset_ie (s : State) :
    (s.hardReset).ie = false := rfl
@[simp] theorem State.hardReset_winTag (s : State) :
    (s.hardReset).winTag = WinTag.zero := rfl
@[simp] theorem State.hardReset_mem (s : State) :
    (s.hardReset).mem = [] := rfl
@[simp] theorem State.hardReset_powerDraw (s : State) :
    (s.hardReset).powerDraw = s.draws := rfl
@[simp] theorem State.hardReset_draws (s : State) :
    (s.hardReset).draws = s.draws + 1 := rfl
@[simp] theorem State.hardReset_turns (s : State) :
    (s.hardReset).turns = s.turns := rfl
@[simp] theorem State.hardReset_responses (s : State) :
    (s.hardReset).responses = s.responses := rfl

/-! ## respond -/

@[simp] theorem State.respond_params (s : State) (r : Response) :
    (s.respond r).params = s.params := rfl
@[simp] theorem State.respond_cmd (s : State) (r : Response) :
    (s.respond r).cmd = s.cmd := rfl
@[simp] theorem State.respond_busy (s : State) (r : Response) :
    (s.respond r).busy = s.busy := rfl
@[simp] theorem State.respond_done (s : State) (r : Response) :
    (s.respond r).done = s.done := rfl
@[simp] theorem State.respond_err (s : State) (r : Response) :
    (s.respond r).err = s.err := rfl
@[simp] theorem State.respond_errcode (s : State) (r : Response) :
    (s.respond r).errcode = s.errcode := rfl
@[simp] theorem State.respond_ie (s : State) (r : Response) :
    (s.respond r).ie = s.ie := rfl
@[simp] theorem State.respond_winTag (s : State) (r : Response) :
    (s.respond r).winTag = s.winTag := rfl
@[simp] theorem State.respond_mem (s : State) (r : Response) :
    (s.respond r).mem = s.mem := rfl
@[simp] theorem State.respond_powerDraw (s : State) (r : Response) :
    (s.respond r).powerDraw = s.powerDraw := rfl
@[simp] theorem State.respond_draws (s : State) (r : Response) :
    (s.respond r).draws = s.draws := rfl
@[simp] theorem State.respond_turns (s : State) (r : Response) :
    (s.respond r).turns = s.turns := rfl
@[simp] theorem State.respond_responses (s : State) (r : Response) :
    (s.respond r).responses = s.responses ++ [r] := rfl

/-! ## Reads of memory -/

/-- A byte read sees only the memory and the number of the draw behind unlisted bytes. -/
theorem State.byteAt_congr {s t : State} (hm : t.mem = s.mem) (hd : t.powerDraw = s.powerDraw) (a : Nat) :
    t.byteAt a = s.byteAt a := by
  simp [State.byteAt, State.unlistedByte, hm, hd]

/-- A word read sees only its four bytes. -/
theorem State.wordAt_congr {s t : State} {a : Nat} (h : ∀ k, k < 4 → t.byteAt (a + k) = s.byteAt (a + k)) :
    t.wordAt a = s.wordAt a := by
  have h0 := h 0 (by omega)
  have h1 := h 1 (by omega)
  have h2 := h 2 (by omega)
  have h3 := h 3 (by omega)
  simp only [Nat.add_zero] at h0
  simp [State.wordAt, h0, h1, h2, h3]

/-- A RAM read sees only the memory and the number of the draw behind unlisted bytes. -/
theorem State.ram_congr {s t : State} (hm : t.mem = s.mem) (hd : t.powerDraw = s.powerDraw) (r : Ram) (i : Nat) :
    t.ram r i = s.ram r i :=
  State.wordAt_congr fun _ _ => State.byteAt_congr hm hd _

end Sys2Proof.Machine
end

