-- ==== Sys2Proof/Laws/Memory.lean ====
section
/-! SUPPORT. Memory: what a read gives after a write, at the byte, at the word and at the RAM, and that every memory
operation keeps the canonical form. -/

namespace Sys2Proof.Machine

/-! ## Bytes -/

/-- A byte read where a byte was written gives the byte written. -/
@[simp] theorem Memory.readByte_writeByte_same (m : Memory) (a : Nat) (v : Byte) :
    (m.writeByte a v).readByte a = some v := by
  induction m with
  | nil => simp [Memory.writeByte, Memory.readByte]
  | cons c m ih =>
    obtain ⟨b, u⟩ := c
    simp only [Memory.writeByte]
    split
    · simp [Memory.readByte]
    · split
      · simp [Memory.readByte]
      · simp [Memory.readByte, *]

/-- A byte write leaves every other byte alone. -/
theorem Memory.readByte_writeByte_other (m : Memory) {a b : Nat} (v : Byte) (h : b ≠ a) :
    (m.writeByte a v).readByte b = m.readByte b := by
  induction m with
  | nil => simp [Memory.writeByte, Memory.readByte, h]
  | cons c m ih =>
    obtain ⟨d, u⟩ := c
    simp only [Memory.writeByte]
    split
    · simp [Memory.readByte, h]
    · split
      · rename_i h1 h2
        subst h2
        simp [Memory.readByte, h]
      · simp [Memory.readByte, ih]

/-- The addresses of a memory after a byte write are the old ones and the written one. -/
theorem Memory.mem_writeByte {m : Memory} {a : Nat} {v : Byte} {c : Host.Cell} (h : c ∈ m.writeByte a v) :
    c = (a, v) ∨ c ∈ m := by
  induction m with
  | nil => simpa [Memory.writeByte] using h
  | cons d m ih =>
    obtain ⟨b, u⟩ := d
    simp only [Memory.writeByte] at h
    split at h
    · simpa using h
    · split at h
      · simp only [List.mem_cons] at h ⊢
        tauto
      · simp only [List.mem_cons] at h ⊢
        rcases h with h | h
        · exact .inr (.inl h)
        · exact (ih h).imp_right .inr

/-- A byte write keeps the canonical form. -/
theorem Memory.wf_writeByte {m : Memory} (h : m.wf) (a : Nat) (v : Byte) : (m.writeByte a v).wf := by
  induction m with
  | nil => simp [Memory.writeByte, Memory.wf]
  | cons c m ih =>
    obtain ⟨b, u⟩ := c
    obtain ⟨hb, hm⟩ := List.pairwise_cons.1 h
    simp only [Memory.writeByte]
    split
    · rename_i hab
      refine List.pairwise_cons.2 ⟨fun c hc => ?_, h⟩
      rcases List.mem_cons.1 hc with rfl | hc
      · exact hab
      · exact Nat.lt_trans hab (hb c hc)
    · split
      · rename_i _ hab
        subst hab
        exact List.pairwise_cons.2 ⟨hb, hm⟩
      · refine List.pairwise_cons.2 ⟨fun c hc => ?_, ih hm⟩
        rcases Memory.mem_writeByte hc with rfl | hc
        · simp only
          omega
        · exact hb c hc

/-! ## Words -/

/-- Writing a word keeps the canonical form. -/
theorem Memory.wf_writeWord {m : Memory} (h : m.wf) (a : Nat) (w : Word) : (m.writeWord a w).wf :=
  Memory.wf_writeByte (Memory.wf_writeByte (Memory.wf_writeByte (Memory.wf_writeByte h _ _) _ _) _ _) _ _

/-- Writing a run of words keeps the canonical form. -/
theorem Memory.wf_writeWords {m : Memory} (h : m.wf) (a : Nat) (w : Nat → Word) (n : Nat) :
    (m.writeWords a w n).wf := by
  induction n with
  | zero => exact h
  | succ n ih => exact Memory.wf_writeWord ih _ _

/-- Byte k of a word written at `a` is lane k (R105). -/
theorem Memory.readByte_writeWord_lane (m : Memory) (a : Nat) (w : Word) {k : Nat} (hk : k < 4) :
    (m.writeWord a w).readByte (a + k) = some (laneByte w k) := by
  unfold Memory.writeWord
  rcases (by omega : k = 0 ∨ k = 1 ∨ k = 2 ∨ k = 3) with rfl | rfl | rfl | rfl
  · rw [readByte_writeByte_other _ _ (by omega), readByte_writeByte_other _ _ (by omega),
      readByte_writeByte_other _ _ (by omega)]
    simp
  · rw [readByte_writeByte_other _ _ (by omega), readByte_writeByte_other _ _ (by omega)]
    simp
  · rw [readByte_writeByte_other _ _ (by omega)]
    simp
  · simp

/-- Writing a word leaves every byte outside it alone. -/
theorem Memory.readByte_writeWord_other (m : Memory) {a b : Nat} (w : Word) (h : ¬ (a ≤ b ∧ b < a + 4)) :
    (m.writeWord a w).readByte b = m.readByte b := by
  unfold Memory.writeWord
  rw [readByte_writeByte_other _ _ (by omega), readByte_writeByte_other _ _ (by omega),
    readByte_writeByte_other _ _ (by omega), readByte_writeByte_other _ _ (by omega)]

/-- Byte k of word i of a run of words is lane k of that word. -/
theorem Memory.readByte_writeWords_lane (m : Memory) (a : Nat) (w : Nat → Word) {n i k : Nat} (hi : i < n)
    (hk : k < 4) : (m.writeWords a w n).readByte (a + 4 * i + k) = some (laneByte (w i) k) := by
  induction n with
  | zero => omega
  | succ n ih =>
    rcases Nat.lt_succ_iff_lt_or_eq.1 hi with h | rfl
    · rw [Memory.writeWords, Memory.readByte_writeWord_other _ _ (by omega), ih h]
    · rw [Memory.writeWords, Memory.readByte_writeWord_lane _ _ _ hk]

/-- Writing a run of words leaves every byte outside it alone. -/
theorem Memory.readByte_writeWords_other (m : Memory) {a b : Nat} (w : Nat → Word) {n : Nat}
    (h : ¬ (a ≤ b ∧ b < a + 4 * n)) : (m.writeWords a w n).readByte b = m.readByte b := by
  induction n with
  | zero => rfl
  | succ n ih => rw [Memory.writeWords, Memory.readByte_writeWord_other _ _ (by omega), ih (by omega)]

/-- The four lanes of a word, put together, are the word. -/
theorem laneByte_append (w : Word) : laneByte w 3 ++ laneByte w 2 ++ laneByte w 1 ++ laneByte w 0 = w := by
  apply BitVec.eq_of_getLsbD_eq
  intro i hi
  simp only [laneByte, BitVec.getLsbD_append, BitVec.getLsbD_extractLsb']
  rcases (by omega : i < 8 ∨ (8 ≤ i ∧ i < 16) ∨ (16 ≤ i ∧ i < 24) ∨ 24 ≤ i) with h | h | h | h
  · simp [h]
  · simp [show ¬ i < 8 by omega, show i - 8 < 8 by omega, show 8 + (i - 8) = i by omega]
  · simp [show ¬ i < 8 by omega, show ¬ i - 8 < 8 by omega, show i - 8 - 8 < 8 by omega,
      show 16 + (i - 8 - 8) = i by omega]
  · simp [show ¬ i < 8 by omega, show ¬ i - 8 < 8 by omega, show ¬ i - 8 - 8 < 8 by omega,
      show i - 8 - 8 - 8 < 8 by omega, show 24 + (i - 8 - 8 - 8) = i by omega]

/-! ## RAM words -/

/-- A word whose four bytes are listed reads as those bytes. -/
theorem State.wordAt_of_lanes {s : State} {a : Nat} {w : Word}
    (h : ∀ k, k < 4 → s.mem.readByte (a + k) = some (laneByte w k)) : s.wordAt a = w := by
  have h0 := h 0 (by omega)
  have h1 := h 1 (by omega)
  have h2 := h 2 (by omega)
  have h3 := h 3 (by omega)
  simp only [Nat.add_zero] at h0
  simp only [State.wordAt, State.byteAt, h0, h1, h2, h3, Option.getD_some]
  exact laneByte_append w

/-- Word i of a RAM whose first n words were written, for i < n. -/
theorem State.ram_setRam_same (s : State) (r : Ram) {n : Nat} (w : Nat → Word) {i : Nat} (hi : i < n) :
    (s.setRam r n w).ram r i = w i :=
  State.wordAt_of_lanes fun _ hk => Memory.readByte_writeWords_lane _ _ _ hi hk

/-- Writing the first n words of a RAM leaves every byte outside them alone. -/
theorem State.byteAt_setRam_other (s : State) (r : Ram) {n : Nat} (w : Nat → Word) {a : Nat}
    (h : ¬ (r.base ≤ a ∧ a < r.base + 4 * n)) : (s.setRam r n w).byteAt a = s.byteAt a := by
  simp only [State.byteAt, State.unlistedByte, State.setRam_mem, State.setRam_powerDraw]
  rw [Memory.readByte_writeWords_other _ _ h]

/-- Word i of a RAM whose first n words were written, for i ≥ n. -/
theorem State.ram_setRam_above (s : State) (r : Ram) {n : Nat} (w : Nat → Word) {i : Nat} (hi : n ≤ i) :
    (s.setRam r n w).ram r i = s.ram r i :=
  State.wordAt_congr fun _ hk => State.byteAt_setRam_other _ _ _ (by omega)

/-- Two different RAMs lie 0x20000 bytes apart at least (R101). -/
theorem Ram.base_apart {r q : Ram} (h : q ≠ r) : q.base + 0x20000 ≤ r.base ∨ r.base + 0x20000 ≤ q.base := by
  cases r <;> cases q <;> simp_all [Ram.base]

/-- Writing words of one RAM leaves every word of another alone; a RAM window has room for 2^15 words (R101). -/
theorem State.ram_setRam_other (s : State) {r q : Ram} {n : Nat} (w : Nat → Word) {i : Nat} (hq : q ≠ r)
    (hn : n ≤ 2 ^ 15) (hi : i < 2 ^ 15) : (s.setRam r n w).ram q i = s.ram q i := by
  refine State.wordAt_congr fun k hk => State.byteAt_setRam_other _ _ _ ?_
  have := Ram.base_apart hq
  omega

/-- The word the host wrote. -/
theorem State.ram_setRamWord_same (s : State) (r : Ram) (i : Nat) (v : Word) : (s.setRamWord r i v).ram r i = v :=
  State.wordAt_of_lanes fun _ hk => Memory.readByte_writeWord_lane _ _ _ hk

/-- Writing one word leaves every byte outside it alone. -/
theorem State.byteAt_setRamWord_other (s : State) (r : Ram) (i : Nat) (v : Word) {a : Nat}
    (h : ¬ (r.base + 4 * i ≤ a ∧ a < r.base + 4 * i + 4)) : (s.setRamWord r i v).byteAt a = s.byteAt a := by
  simp only [State.byteAt, State.unlistedByte, State.setRamWord_mem, State.setRamWord_powerDraw]
  rw [Memory.readByte_writeWord_other _ _ h]

/-- Word i of a loaded buffer. -/
theorem State.loadRam_getElem? (s : State) (r : Ram) {n i : Nat} (h : i < n) :
    (s.loadRam r n)[i]? = some (s.ram r i) := by
  simp [State.loadRam, h]

/-- A loaded buffer has as many words as were asked for. -/
@[simp] theorem State.loadRam_length (s : State) (r : Ram) (n : Nat) : (s.loadRam r n).length = n := by
  simp [State.loadRam]

end Sys2Proof.Machine
end

