-- ==== Sys2Proof/Laws/Ops.lean ====
section
/-! SUPPORT. What each shared operation of the meanings can do, said once: the loops, the operand forms, the command
buffer, the draws, the resets. -/

namespace Sys2Proof.Machine

/-! ## Loops -/

@[simp] theorem forFrom_zero {σ : Type} (f : Nat → σ → σ) (a : Nat) (x : σ) : forFrom f a 0 x = x := rfl

theorem forFrom_succ {σ : Type} (f : Nat → σ → σ) (a k : Nat) (x : σ) :
    forFrom f a (k + 1) x = forFrom f (a + 1) k (f a x) := rfl

/-- A loop run for j and then for k more passes. -/
theorem forFrom_add {σ : Type} (f : Nat → σ → σ) (a j k : Nat) (x : σ) :
    forFrom f a (j + k) x = forFrom f (a + j) k (forFrom f a j x) := by
  induction j generalizing a x with
  | zero => simp
  | succ j ih =>
    rw [show j + 1 + k = (j + k) + 1 by omega, forFrom_succ, ih, forFrom_succ]
    rw [show a + 1 + j = a + (j + 1) by omega]

/-- The last pass of a loop. -/
theorem forFrom_last {σ : Type} (f : Nat → σ → σ) (a k : Nat) (x : σ) :
    forFrom f a (k + 1) x = f (a + k) (forFrom f a k x) := by
  rw [forFrom_add]; rfl

/-- An invariant of a loop: it holds before, each pass keeps it, so it holds after. -/
theorem forFrom_induct {σ : Type} {f : Nat → σ → σ} {P : Nat → σ → Prop} {a k : Nat} {x : σ} (h0 : P a x)
    (hs : ∀ i y, a ≤ i → i < a + k → P i y → P (i + 1) (f i y)) : P (a + k) (forFrom f a k x) := by
  induction k with
  | zero => exact h0
  | succ k ih =>
    rw [forFrom_last]
    exact hs (a + k) _ (by omega) (by omega) (ih fun i y h1 h2 => hs i y h1 (by omega))

/-! ## Operand forms -/

/-- A sized command completes its body, or raises E_LOG2N. -/
theorem State.runSized_cases (s : State) (nmin : Nat) (n : BitVec 4) (body : State → State) :
    (legalLog2N s.params.log2Nmax nmin n = true ∧ s.runSized nmin n body = .next (body s).complete) ∨
    (legalLog2N s.params.log2Nmax nmin n = false ∧ s.runSized nmin n body = .next (s.raiseCmdError .log2n)) := by
  unfold State.runSized
  cases h : legalLog2N s.params.log2Nmax nmin n <;> simp

theorem State.runSized_legal {s : State} {nmin : Nat} {n : BitVec 4} (body : State → State)
    (h : legalLog2N s.params.log2Nmax nmin n = true) : s.runSized nmin n body = .next (body s).complete := by
  simp [State.runSized, h]

/-- A counted command completes its body, or raises E_COUNT. -/
theorem State.runCounted_cases (s : State) (c : BitVec 16) (body : State → State) :
    (legalCount s.params.log2Nmax c = true ∧ s.runCounted c body = .next (body s).complete) ∨
    (legalCount s.params.log2Nmax c = false ∧ s.runCounted c body = .next (s.raiseCmdError .count)) := by
  unfold State.runCounted
  cases h : legalCount s.params.log2Nmax c <;> simp

theorem State.runCounted_legal {s : State} {c : BitVec 16} (body : State → State)
    (h : legalCount s.params.log2Nmax c = true) : s.runCounted c body = .next (body s).complete := by
  simp [State.runCounted, h]

/-- A KIND field names a window exactly when it is legal (R144). -/
theorem WindowKind.ofField_isSome (kind : BitVec 3) : (WindowKind.ofField kind).isSome = legalKind kind := by
  revert kind
  decide

/-- A windowed command completes its body for the named kind, or raises E_KIND, or raises E_LOG2N. -/
theorem State.runWindowed_cases (s : State) (kind : BitVec 3) (n : BitVec 4) (body : WindowKind → State → State) :
    (legalKind kind = false ∧ s.runWindowed kind n body = .next (s.raiseCmdError .kind)) ∨
    (legalKind kind = true ∧ legalLog2N s.params.log2Nmax 2 n = false ∧
      s.runWindowed kind n body = .next (s.raiseCmdError .log2n)) ∨
    (legalKind kind = true ∧ legalLog2N s.params.log2Nmax 2 n = true ∧
      ∃ k, WindowKind.ofField kind = some k ∧ s.runWindowed kind n body = .next (body k s).complete) := by
  have hk := WindowKind.ofField_isSome kind
  unfold State.runWindowed
  cases h : WindowKind.ofField kind with
  | none =>
    rw [h] at hk
    exact .inl ⟨hk.symm, rfl⟩
  | some k =>
    rw [h] at hk
    rcases s.runSized_cases 2 n (body k) with ⟨hl, he⟩ | ⟨hl, he⟩
    · exact .inr (.inr ⟨hk.symm, hl, k, rfl, he⟩)
    · exact .inr (.inl ⟨hk.symm, hl, he⟩)

theorem State.runWindowed_legal {s : State} {kind : BitVec 3} {n : BitVec 4} {k : WindowKind}
    (body : WindowKind → State → State) (hk : WindowKind.ofField kind = some k)
    (h : legalLog2N s.params.log2Nmax 2 n = true) : s.runWindowed kind n body = .next (body k s).complete := by
  simp [State.runWindowed, hk, State.runSized_legal _ h]

/-! ## The command buffer -/

@[simp] theorem State.storeCplx_params (s : State) (N : Nat) (b : Cplx) : (s.storeCplx N b).params = s.params := rfl
@[simp] theorem State.storeCplx_winTag (s : State) (N : Nat) (b : Cplx) : (s.storeCplx N b).winTag = s.winTag := rfl
@[simp] theorem State.storeCplx_draws (s : State) (N : Nat) (b : Cplx) : (s.storeCplx N b).draws = s.draws := rfl
@[simp] theorem State.storeCplx_powerDraw (s : State) (N : Nat) (b : Cplx) :
    (s.storeCplx N b).powerDraw = s.powerDraw := rfl

/-- A buffer written back: word i of RE. -/
theorem State.ram_storeCplx_re (s : State) {N i : Nat} (b : Cplx) (hN : N ≤ 2 ^ 15) (hi : i < N) :
    (s.storeCplx N b).ram .re i = rd b.re i := by
  unfold State.storeCplx
  rw [State.ram_setRam_other _ _ (by decide) hN (by omega), State.ram_setRam_same _ _ _ hi]

/-- A buffer written back: word i of IM. -/
theorem State.ram_storeCplx_im (s : State) {N i : Nat} (b : Cplx) (hi : i < N) :
    (s.storeCplx N b).ram .im i = rd b.im i := by
  unfold State.storeCplx
  rw [State.ram_setRam_same _ _ _ hi]

/-- A buffer written back leaves WIN and DB alone. -/
theorem State.ram_storeCplx_other (s : State) {N i : Nat} (b : Cplx) {q : Ram} (hr : q ≠ .re) (hm : q ≠ .im)
    (hN : N ≤ 2 ^ 15) (hi : i < 2 ^ 15) : (s.storeCplx N b).ram q i = s.ram q i := by
  unfold State.storeCplx
  rw [State.ram_setRam_other _ _ hm hN hi, State.ram_setRam_other _ _ hr hN hi]

/-- Word i of a loaded buffer is word i of RE, and of IM. -/
theorem State.rd_loadCplx (s : State) {N i : Nat} (hi : i < N) :
    rd (s.loadCplx N).re i = s.ram .re i ∧ rd (s.loadCplx N).im i = s.ram .im i := by
  simp [State.loadCplx, State.loadRam, rd, List.getD_eq_getElem?_getD, hi]

/-- A buffer word at an index just set. -/
theorem rd_set_same {x : List Word} {i : Nat} (v : Word) (h : i < x.length) : rd (x.set i v) i = v := by
  simp [rd, List.getD_eq_getElem?_getD, h]

/-- A buffer word at another index. -/
theorem rd_set_other (x : List Word) {i j : Nat} (v : Word) (h : i ≠ j) : rd (x.set i v) j = rd x j := by
  simp [rd, List.getD_eq_getElem?_getD, List.getElem?_set_ne h]

/-! ## Draws and resets -/

@[simp] theorem State.drawRam_mem_eq (s : State) (r : Ram) (n : Nat) :
    (s.drawRam r n).mem = s.mem.writeWords r.base (fun i => freeWord s.draws (r.base + 4 * i)) n := rfl

/-- Drawing blocks changes nothing but the memory, and keeps its canonical form. -/
theorem State.drawBlocks_frame (s : State) (bs : List (Ram × Nat)) :
    ∃ m, s.drawBlocks bs = { s with mem := m } ∧ (s.mem.wf → m.wf) := by
  induction bs generalizing s with
  | nil => exact ⟨s.mem, rfl, id⟩
  | cons b bs ih =>
    obtain ⟨r, n⟩ := b
    obtain ⟨m, he, hm⟩ := ih (s.drawRam r n)
    exact ⟨m, by rw [State.drawBlocks, he]; rfl, fun h => hm (Memory.wf_writeWords h _ _ _)⟩

/-- Drawing blocks leaves every byte outside them alone. -/
theorem State.drawBlocks_outside (s : State) (bs : List (Ram × Nat)) {a : Nat} (h : outsideBlocks bs a) :
    (s.drawBlocks bs).byteAt a = s.byteAt a := by
  induction bs generalizing s with
  | nil => rfl
  | cons b bs ih =>
    obtain ⟨r, n⟩ := b
    rw [State.drawBlocks, ih _ fun b hb => h b (List.mem_cons_of_mem _ hb)]
    exact State.byteAt_setRam_other _ _ _ (h (r, n) (by simp))

/-- What a soft reset leaves: the registers reset, and the memory of the state or of its aborted command (R422). -/
theorem State.softReset_cases (s : State) :
    (s.busy = false ∧ s.softReset = s.resetRegisters) ∨
    (s.busy = true ∧ ∃ m, s.softReset = { s.resetRegisters with mem := m, draws := s.draws + 1 } ∧
      (s.mem.wf → m.wf)) := by
  unfold State.softReset
  cases h : s.busy with
  | false => exact .inl ⟨rfl, by simp⟩
  | true =>
    obtain ⟨m, he, hm⟩ := s.drawBlocks_frame s.latchedWriteSet
    refine .inr ⟨rfl, m, ?_, hm⟩
    simp only [if_true, State.abortCommand, he]
    rfl

end Sys2Proof.Machine
end

