-- ==== Sys2Proof/Laws/Buffer.lean ====
section
/-! SUPPORT. Every buffer procedure of the transforms keeps the lengths of both halves of its buffer. -/

namespace Sys2Proof.Machine

/-- Both halves of `c` are as long as those of `b`. -/
def SameLength (b c : Cplx) : Prop := c.re.length = b.re.length ∧ c.im.length = b.im.length

theorem SameLength.refl (b : Cplx) : SameLength b b := ⟨rfl, rfl⟩

theorem SameLength.trans {b c d : Cplx} (h : SameLength b c) (k : SameLength c d) : SameLength b d :=
  ⟨k.1.trans h.1, k.2.trans h.2⟩

/-- A loop whose passes keep the lengths keeps them. -/
theorem SameLength.forFrom {f : Nat → Cplx → Cplx} (h : ∀ i b, SameLength b (f i b)) (a k : Nat) (b : Cplx) :
    SameLength b (forFrom f a k b) :=
  forFrom_induct (P := fun _ c => SameLength b c) (SameLength.refl b) fun i c _ _ hc => hc.trans (h i c)

theorem swapElems_length (i j : Nat) (b : Cplx) : SameLength b (swapElems i j b) := by
  simp [SameLength, swapElems]

theorem bfly_length (i ip : Nat) (u : Word × Word) (b : Cplx) : SameLength b (bfly i ip u b) := by
  simp [SameLength, bfly]

theorem stageOffset_length (s n j : Nat) (u : Word × Word) (b : Cplx) : SameLength b (stageOffset s n j u b) :=
  SameLength.forFrom (fun _ _ => bfly_length _ _ _ _) _ _ _

theorem stage_length (s n : Nat) (b : Cplx) : SameLength b (stage s n b) :=
  forFrom_induct (P := fun _ (c : Cplx × (Word × Word)) => SameLength b c.1) (SameLength.refl b)
    fun _ _ _ _ hc => hc.trans (stageOffset_length _ _ _ _ _)

theorem bitrevWalk_length (n : Nat) (b : Cplx) : SameLength b (bitrevWalk n b) := by
  refine forFrom_induct (P := fun _ (c : Cplx × Nat) => SameLength b c.1) (SameLength.refl b) fun i c _ _ hc => ?_
  refine hc.trans ?_
  unfold bitrevPass
  dsimp only
  split
  · exact swapElems_length _ _ _
  · exact SameLength.refl _

theorem cfftCore_length (m : Nat) (b : Cplx) : SameLength b (cfftCore m b) :=
  (bitrevWalk_length m b).trans (SameLength.forFrom (fun _ _ => stage_length _ _ _) _ _ _)

theorem packPairs_length (nd2 : Nat) (b : Cplx) : SameLength b (packPairs nd2 b) :=
  SameLength.forFrom (fun _ _ => by simp [SameLength]) _ _ _

theorem halfTransform_length (m : Nat) (b : Cplx) : SameLength b (halfTransform m b) := by
  have h := cfftCore_length m ⟨b.re.take (2 ^ m), b.im.take (2 ^ m)⟩
  simp only [SameLength, List.length_take] at h
  simp only [SameLength, halfTransform, List.length_append, List.length_drop, h.1, h.2]
  omega

theorem splitBin_length (nd2 i : Nat) (b : Cplx) : SameLength b (splitBin nd2 i b) := by
  simp [SameLength, splitBin]

theorem splitBins_length (nd2 n4 : Nat) (b : Cplx) : SameLength b (splitBins nd2 n4 b) :=
  SameLength.forFrom (splitBin_length nd2) _ _ _

theorem specialBins_length (nd2 n4 n34 : Nat) (b : Cplx) : SameLength b (specialBins nd2 n4 n34 b) := by
  simp [SameLength, specialBins]

theorem rfftCore_length (n : Nat) (b : Cplx) : SameLength b (rfftCore n b) :=
  (packPairs_length _ _).trans ((halfTransform_length _ _).trans ((splitBins_length _ _ _).trans
    ((specialBins_length _ _ _ _).trans (stage_length _ _ _))))

end Sys2Proof.Machine
end

