-- ==== Sys2Proof/Laws/PerInstr.lean ====
section
/-! SUPPORT. A statement about every instruction as syntax, proved one constructor at a time: the encoded word holds
the instruction's opcode and operands at the places of spec/30_encoding.md R141, and zero in every field its row does
not use (R147). -/

namespace Sys2Proof.Laws

/-- The opcode of an instruction (R145). -/
def opcodeOf : Instr → BitVec 4
  | .nop => 0x0
  | .bitrev _ => 0x1
  | .cfftFwd _ => 0x2
  | .cfftInv _ => 0x3
  | .rfftFwd _ => 0x4
  | .rfftInv _ => 0x5
  | .polar _ => 0x6
  | .genwin _ _ => 0x7
  | .winapply _ => 0x8
  | .dbconv _ => 0x9
  | .spectrum _ _ => 0xA

/-- The LOG2N operand, 0 where the row has none (R146). -/
def log2nOf : Instr → BitVec 4
  | .nop => 0
  | .bitrev n => n
  | .cfftFwd n => n
  | .cfftInv n => n
  | .rfftFwd n => n
  | .rfftInv n => n
  | .polar _ => 0
  | .genwin _ n => n
  | .winapply _ => 0
  | .dbconv n => n
  | .spectrum _ n => n

/-- The KIND operand, 0 where the row has none (R146). -/
def kindOf : Instr → BitVec 3
  | .nop => 0
  | .bitrev _ => 0
  | .cfftFwd _ => 0
  | .cfftInv _ => 0
  | .rfftFwd _ => 0
  | .rfftInv _ => 0
  | .polar _ => 0
  | .genwin kind _ => kind
  | .winapply _ => 0
  | .dbconv _ => 0
  | .spectrum kind _ => kind

/-- The COUNT operand, 0 where the row has none (R146). -/
def countOf : Instr → BitVec 16
  | .nop => 0
  | .bitrev _ => 0
  | .cfftFwd _ => 0
  | .cfftInv _ => 0
  | .rfftFwd _ => 0
  | .rfftInv _ => 0
  | .polar c => c
  | .genwin _ _ => 0
  | .winapply c => c
  | .dbconv _ => 0
  | .spectrum _ _ => 0

/-- Bits lo .. lo+k-1 of an assembled word lie in one field at a time. -/
theorem assemble_getLsbD (c : BitVec 16) (kind : BitVec 3) (n op : BitVec 4) (i : Nat) :
    (assemble c kind n op).getLsbD i =
      if i < 4 then op.getLsbD i
      else if i < 8 then n.getLsbD (i - 4)
      else if i < 11 then kind.getLsbD (i - 8)
      else if i < 16 then false
      else c.getLsbD (i - 16) := by
  simp only [assemble, BitVec.getLsbD_append]
  have e1 : i - 4 - 4 = i - 8 := by omega
  have e2 : i - 8 - 3 = i - 11 := by omega
  have e3 : i - 11 - 5 = i - 16 := by omega
  rw [e1, e2, e3]
  split <;> rename_i h4
  · simp [h4]
  · by_cases h8 : i < 8
    · simp [h8, show i - 4 < 4 by omega]
    · by_cases h11 : i < 11
      · simp [h8, h11, show ¬ i - 4 < 4 by omega, show i - 8 < 3 by omega]
      · by_cases h16 : i < 16
        · simp [h8, h11, h16, show ¬ i - 4 < 4 by omega, show ¬ i - 8 < 3 by omega, show i - 11 < 5 by omega]
        · simp [h8, h11, h16, show ¬ i - 4 < 4 by omega, show ¬ i - 8 < 3 by omega,
            show ¬ i - 11 < 5 by omega]

/-- The OP field of an assembled word. -/
theorem fieldOp_assemble (c : BitVec 16) (kind : BitVec 3) (n op : BitVec 4) : fieldOp (assemble c kind n op) = op := by
  apply BitVec.eq_of_getLsbD_eq
  intro i hi
  simp [fieldOp, assemble_getLsbD, hi]

/-- The LOG2N field of an assembled word. -/
theorem fieldLog2N_assemble (c : BitVec 16) (kind : BitVec 3) (n op : BitVec 4) :
    fieldLog2N (assemble c kind n op) = n := by
  apply BitVec.eq_of_getLsbD_eq
  intro i hi
  simp [fieldLog2N, assemble_getLsbD, hi, show 4 + i < 8 by omega]

/-- The KIND field of an assembled word. -/
theorem fieldKind_assemble (c : BitVec 16) (kind : BitVec 3) (n op : BitVec 4) :
    fieldKind (assemble c kind n op) = kind := by
  apply BitVec.eq_of_getLsbD_eq
  intro i hi
  simp [fieldKind, assemble_getLsbD, hi, show ¬ 8 + i < 4 by omega,
    show 8 + i < 11 by omega]

/-- The RSVD field of an assembled word. -/
theorem fieldRsvd_assemble (c : BitVec 16) (kind : BitVec 3) (n op : BitVec 4) :
    fieldRsvd (assemble c kind n op) = 0 := by
  apply BitVec.eq_of_getLsbD_eq
  intro i hi
  simp [fieldRsvd, assemble_getLsbD, BitVec.getLsbD_extractLsb', show ¬ 11 + i < 4 by omega,
    show ¬ 11 + i < 8 by omega, show ¬ 11 + i < 11 by omega, show 11 + i < 16 by omega]

/-- The COUNT field of an assembled word. -/
theorem fieldCount_assemble (c : BitVec 16) (kind : BitVec 3) (n op : BitVec 4) :
    fieldCount (assemble c kind n op) = c := by
  apply BitVec.eq_of_getLsbD_eq
  intro i hi
  simp [fieldCount, assemble_getLsbD, hi, show ¬ 16 + i < 4 by omega,
    show ¬ 16 + i < 8 by omega, show ¬ 16 + i < 11 by omega, show ¬ 16 + i < 16 by omega]

/-- The encoded word's fields are the instruction's opcode and operands, and 0 in RSVD. -/
def EncodedFields.Statement (i : Instr) : Prop :=
  fieldOp (encode i) = opcodeOf i ∧ fieldLog2N (encode i) = log2nOf i ∧ fieldKind (encode i) = kindOf i ∧
    fieldRsvd (encode i) = 0 ∧ fieldCount (encode i) = countOf i

/-- The five fields of an assembled word at once. -/
theorem fields_assemble (c : BitVec 16) (kind : BitVec 3) (n op : BitVec 4) :
    fieldOp (assemble c kind n op) = op ∧ fieldLog2N (assemble c kind n op) = n ∧
      fieldKind (assemble c kind n op) = kind ∧ fieldRsvd (assemble c kind n op) = 0 ∧
      fieldCount (assemble c kind n op) = c :=
  ⟨fieldOp_assemble .., fieldLog2N_assemble .., fieldKind_assemble .., fieldRsvd_assemble .., fieldCount_assemble ..⟩

theorem EncodedFields.nop : EncodedFields.Statement .nop := fields_assemble ..
theorem EncodedFields.bitrev (n : BitVec 4) : EncodedFields.Statement (.bitrev n) := fields_assemble ..
theorem EncodedFields.cfftFwd (n : BitVec 4) : EncodedFields.Statement (.cfftFwd n) := fields_assemble ..
theorem EncodedFields.cfftInv (n : BitVec 4) : EncodedFields.Statement (.cfftInv n) := fields_assemble ..
theorem EncodedFields.rfftFwd (n : BitVec 4) : EncodedFields.Statement (.rfftFwd n) := fields_assemble ..
theorem EncodedFields.rfftInv (n : BitVec 4) : EncodedFields.Statement (.rfftInv n) := fields_assemble ..
theorem EncodedFields.polar (c : BitVec 16) : EncodedFields.Statement (.polar c) := fields_assemble ..
theorem EncodedFields.genwin (kind : BitVec 3) (n : BitVec 4) : EncodedFields.Statement (.genwin kind n) :=
  fields_assemble ..
theorem EncodedFields.winapply (c : BitVec 16) : EncodedFields.Statement (.winapply c) := fields_assemble ..
theorem EncodedFields.dbconv (n : BitVec 4) : EncodedFields.Statement (.dbconv n) := fields_assemble ..
theorem EncodedFields.spectrum (kind : BitVec 3) (n : BitVec 4) : EncodedFields.Statement (.spectrum kind n) :=
  fields_assemble ..

end Sys2Proof.Laws
end

