-- ==== Sys2Proof/Laws/RealFft.lean ====
section
/-! SUPPORT. What steps 1, 3 and 4 of RFFT_CORE compute (spec/42_real_fft.md R261, R263, R264), one lemma each: the
words they write, from the words before, and the words they leave. -/

namespace Sys2Proof.Machine

/-- A buffer word after a `set`: the value at the index set, the old word elsewhere. -/
theorem rd_set {x : List Word} {i : Nat} (j : Nat) (v : Word) (h : i < x.length) :
    rd (x.set i v) j = if j = i then v else rd x j := by
  split
  · rename_i hj
    rw [hj, rd_set_same v h]
  · rename_i hj
    exact rd_set_other x v (Ne.symm hj)

/-- Step 1 packs the pairs: word i of RE and of IM is sample 2i and sample 2i+1 (R261). -/
theorem packPairs_spec {nd2 : Nat} {b : Cplx} (hr : 2 * nd2 ≤ b.re.length) (hm : nd2 ≤ b.im.length) {i : Nat}
    (hi : i < nd2) : rd (packPairs nd2 b).re i = rd b.re (2 * i) ∧ rd (packPairs nd2 b).im i = rd b.re (2 * i + 1) := by
  have key : ∀ k, k ≤ nd2 → SameLength b (packPairs k b) ∧
      (∀ j, j < k → rd (packPairs k b).re j = rd b.re (2 * j) ∧ rd (packPairs k b).im j = rd b.re (2 * j + 1)) ∧
      ∀ j, k ≤ j → rd (packPairs k b).re j = rd b.re j := by
    intro k
    induction k with
    | zero => exact fun _ => ⟨SameLength.refl b, fun j hj => by omega, fun _ _ => rfl⟩
    | succ k ih =>
      intro hk
      obtain ⟨⟨hlr, hli⟩, hd, hu⟩ := ih (by omega)
      have hkr : k < (packPairs k b).re.length := by omega
      have hki : k < (packPairs k b).im.length := by omega
      have e : packPairs (k + 1) b =
          ⟨(packPairs k b).re.set k (rd (packPairs k b).re (2 * k)),
           (packPairs k b).im.set k
            (rd ((packPairs k b).re.set k (rd (packPairs k b).re (2 * k))) (2 * k + 1))⟩ := by
        unfold packPairs
        rw [forFrom_last, Nat.zero_add]
      rw [e]
      refine ⟨⟨by simpa using hlr, by simpa using hli⟩, fun j hj => ?_, fun j hj => ?_⟩
      · simp only [rd_set _ _ hkr, rd_set _ _ hki]
        rcases Nat.lt_succ_iff_lt_or_eq.1 hj with h | rfl
        · simp only [if_neg (Nat.ne_of_lt h)]
          exact hd j h
        · rw [if_pos rfl, if_pos rfl, if_neg (by omega), hu _ (by omega), hu _ (by omega)]
          exact ⟨rfl, rfl⟩
      · simp only [rd_set _ _ hkr, if_neg (show j ≠ k by omega)]
        exact hu j (by omega)
  exact (key nd2 le_rfl).2.1 i hi

/-- One pass of step 3 computes the eight values of its bin from the words before, and no other word changes (R263). -/
theorem splitBin_spec {nd2 i : Nat} {b : Cplx} (hr : b.re.length = 2 * nd2) (hm : b.im.length = 2 * nd2) (h1 : 1 ≤ i)
    (h2 : 2 * i < nd2) :
    SplitOf nd2 i b (splitBin nd2 i b) ∧
    ∀ j, j ≠ i → j ≠ nd2 - i → j ≠ i + nd2 → j ≠ nd2 - i + nd2 →
      rd (splitBin nd2 i b).re j = rd b.re j ∧ rd (splitBin nd2 i b).im j = rd b.im j := by
  have n0 : nd2 ≠ 0 := by omega
  have n1 : i ≠ nd2 - i := by omega
  have n3 : i ≠ nd2 - i + nd2 := by omega
  have n4 : nd2 - i ≠ i + nd2 := by omega
  have lr : ∀ k, k < 2 * nd2 → k < b.re.length := by omega
  have li : ∀ k, k < 2 * nd2 → k < b.im.length := by omega
  have ri := lr i (by omega)
  have rm := lr (nd2 - i) (by omega)
  have rp := lr (i + nd2) (by omega)
  have rq := lr (nd2 - i + nd2) (by omega)
  have ii := li i (by omega)
  have im := li (nd2 - i) (by omega)
  have ip := li (i + nd2) (by omega)
  have iq := li (nd2 - i + nd2) (by omega)
  refine ⟨?_, fun j j1 j2 j3 j4 => ?_⟩
  · simp [SplitOf, splitBin, rd_set, ri, rm, rp, rq, ii, im, ip, iq, n0, n1, n3, n4, n3.symm, n4.symm]
  · simp [splitBin, rd_set, ri, rm, rp, rq, ii, im, ip, iq, j1, j2, j3, j4]

/-- Step 3 leaves every bin 1 .. N/4−1 with its eight values from the words before it, and the other words of the lower
half as they were (R263). -/
theorem splitBins_spec {nd2 n4 : Nat} {b : Cplx} (hr : b.re.length = 2 * nd2) (hm : b.im.length = 2 * nd2)
    (hn : 2 * n4 ≤ nd2) :
    (∀ i, 1 ≤ i → i < n4 → SplitOf nd2 i b (splitBins nd2 n4 b)) ∧
    ∀ j, j ≤ nd2 → (∀ i, 1 ≤ i → i < n4 → j ≠ i ∧ j ≠ nd2 - i) →
      rd (splitBins nd2 n4 b).re j = rd b.re j ∧ rd (splitBins nd2 n4 b).im j = rd b.im j := by
  have key : ∀ k, k + 1 ≤ n4 ∨ k = 0 → SameLength b (forFrom (splitBin nd2) 1 k b) ∧
      (∀ i, 1 ≤ i → i < k + 1 → SplitOf nd2 i b (forFrom (splitBin nd2) 1 k b)) ∧
      ∀ j, j ≤ nd2 → (∀ i, 1 ≤ i → i < k + 1 → j ≠ i ∧ j ≠ nd2 - i) →
        rd (forFrom (splitBin nd2) 1 k b).re j = rd b.re j ∧ rd (forFrom (splitBin nd2) 1 k b).im j = rd b.im j := by
    intro k
    induction k with
    | zero => exact fun _ => ⟨SameLength.refl b, fun i h1 h2 => by omega, fun _ _ _ => ⟨rfl, rfl⟩⟩
    | succ k ih =>
      intro hk
      obtain ⟨hl, hd, hu⟩ := ih (by omega)
      rw [forFrom_last]
      generalize hc : forFrom (splitBin nd2) 1 k b = c at hl hd hu ⊢
      obtain ⟨hs, ho⟩ := splitBin_spec (nd2 := nd2) (i := 1 + k) (b := c) (by rw [hl.1, hr]) (by rw [hl.2, hm])
        (by omega) (by omega)
      refine ⟨hl.trans (splitBin_length _ _ _), fun i h1 h2 => ?_, fun j hj hn' => ?_⟩
      · rcases (by omega : i < k + 1 ∨ i = 1 + k) with h | rfl
        · have oi := ho i (by omega) (by omega) (by omega) (by omega)
          have om := ho (nd2 - i) (by omega) (by omega) (by omega) (by omega)
          have op := ho (i + nd2) (by omega) (by omega) (by omega) (by omega)
          have oq := ho (nd2 - i + nd2) (by omega) (by omega) (by omega) (by omega)
          simp only [SplitOf, oi, om, op, oq]
          exact hd i h1 h
        · have ui := hu (1 + k) (by omega) fun i h1 h2 => ⟨by omega, by omega⟩
          have um := hu (nd2 - (1 + k)) (by omega) fun i h1 h2 => ⟨by omega, by omega⟩
          simp only [SplitOf, ui, um] at hs
          exact hs
      · have hj' := hn' (1 + k) (by omega) (by omega)
        have := ho j hj'.1 hj'.2 (by omega) (by omega)
        rw [this.1, this.2]
        exact hu j hj fun i h1 h2 => hn' i h1 (by omega)
  rcases Nat.eq_zero_or_pos n4 with rfl | hp
  · exact ⟨fun i h1 h2 => by omega, fun _ _ _ => ⟨rfl, rfl⟩⟩
  · have h := key (n4 - 1) (by omega)
    rw [show n4 - 1 + 1 = n4 by omega] at h
    exact h.2

/-- Step 4 places the special bins, and no other word changes (R264). -/
theorem specialBins_spec {n4 : Nat} {b : Cplx} (hr : b.re.length = 4 * n4) (hm : b.im.length = 4 * n4) (h4 : 1 ≤ n4) :
    SpecialOf (2 * n4) n4 (3 * n4) b (specialBins (2 * n4) n4 (3 * n4) b) ∧
    ∀ j, j ≠ 0 → j ≠ n4 → j ≠ 2 * n4 → j ≠ 3 * n4 →
      rd (specialBins (2 * n4) n4 (3 * n4) b).re j = rd b.re j ∧
      rd (specialBins (2 * n4) n4 (3 * n4) b).im j = rd b.im j := by
  have r2 : 2 * n4 < b.re.length := by omega
  have r3 : 3 * n4 < b.re.length := by omega
  have i0 : 0 < b.im.length := by omega
  have i1 : n4 < b.im.length := by omega
  have i2 : 2 * n4 < b.im.length := by omega
  have i3 : 3 * n4 < b.im.length := by omega
  have a1 : n4 ≠ 0 := by omega
  have a2 : n4 ≠ 2 * n4 := by omega
  have a3 : n4 ≠ 3 * n4 := by omega
  have a4 : 3 * n4 ≠ 2 * n4 := by omega
  have a5 : 3 * n4 ≠ n4 := by omega
  have a6 : 2 * n4 ≠ n4 := by omega
  refine ⟨?_, fun j j1 j2 j3 j4 => ?_⟩
  · simp [SpecialOf, specialBins, rd_set, r2, r3, i0, i1, i2, i3, a1, a2, a3, a4, a5, a6]
  · simp [specialBins, rd_set, r2, r3, i0, i1, i2, i3, j1, j2, j3, j4]

end Sys2Proof.Machine
end

