-- ==== Sys2Proof/Laws/Turns.lean ====
section
/-! SUPPORT. What a turn can do, said once: a host read, a host write, a command, the core's turn, a step. An
invariant of the machine is then one case for each line of these lemmas. -/

namespace Sys2Proof.Machine

/-! ## The host port -/

/-- A host read records at most one response and changes nothing else (R103, R109). -/
theorem State.hostRead_cases (s : State) (addr size : Nat) (lanes : BitVec 4) :
    s.hostRead addr size lanes = s ∨
    (∃ w, s.readData (addr - s.params.coreBase) size lanes = some w ∧
      s.hostRead addr size lanes = s.respond (.read w true)) ∨
    (s.readData (addr - s.params.coreBase) size lanes = none ∧
      s.hostRead addr size lanes = s.respond (.read 0 false)) := by
  unfold State.hostRead
  split
  · cases h : s.readData (addr - s.params.coreBase) size lanes with
    | none => exact .inr (.inr ⟨rfl, rfl⟩)
    | some w => exact .inr (.inl ⟨w, rfl, rfl⟩)
  · exact .inl rfl

/-- The effects a host write can have: a command latched or a RAM word stored on an idle core, an acknowledgement, a
CTRL write (R104). -/
theorem State.writeEffect_cases {s t : State} {off size : Nat} {lanes : BitVec 4} {w : Word}
    (h : s.writeEffect off size lanes w = some t) :
    (s.busy = false ∧ t = s.latchCommand w) ∨ t = s.acknowledge w ∨ t = s.writeCtrl w ∨
      ∃ r i, s.busy = false ∧ decodeOffset s.params.log2Nmax off = .ram r i ∧ t = s.hostRamWrite r i w := by
  unfold State.writeEffect at h
  split at h
  · split at h
    · cases hb : s.busy
      · exact .inl ⟨rfl, by simpa [hb] using h.symm⟩
      · simp [hb] at h
    · exact .inr (.inl (by simpa using h.symm))
    · exact .inr (.inr (.inl (by simpa using h.symm)))
    · rename_i r i hd
      cases hb : s.busy
      · exact .inr (.inr (.inr ⟨r, i, rfl, hd, by simpa [hb] using h.symm⟩))
      · simp [hb] at h
    all_goals cases h
  · cases h

/-- A host write changes nothing, or records ERROR and changes nothing, or has its effect and records OKAY. -/
theorem State.hostWrite_cases (s : State) (addr size : Nat) (lanes : BitVec 4) (w : Word) :
    s.hostWrite addr size lanes w = s ∨ s.hostWrite addr size lanes w = s.respond (.write false) ∨
    ∃ t, s.writeEffect (addr - s.params.coreBase) size lanes w = some t ∧
      s.hostWrite addr size lanes w = t.respond (.write true) := by
  unfold State.hostWrite
  split
  · cases h : s.writeEffect (addr - s.params.coreBase) size lanes w with
    | none => exact .inr (.inl rfl)
    | some t => exact .inr (.inr ⟨t, rfl, rfl⟩)
  · exact .inl rfl

/-- A CTRL write is a soft reset or sets IE (R65). -/
theorem State.writeCtrl_cases (s : State) (w : Word) :
    (w.getLsbD 31 = true ∧ s.writeCtrl w = s.softReset) ∨
    (w.getLsbD 31 = false ∧ s.writeCtrl w = { s with ie := w.getLsbD 0 }) := by
  unfold State.writeCtrl
  cases w.getLsbD 31 <;> simp

/-- Every offset of the core's window is routed to it (R101). -/
theorem Params.routes_window (p : Params) {off : Nat} (h : off < 0x100000) :
    Params.routes p (p.coreBase + off) = true := by
  simp [Params.routes, h]

/-- A read at an offset of the core's window that has data gets it. -/
theorem State.hostRead_okay {s : State} {off size : Nat} {lanes : BitVec 4} {w : Word} (h : off < 0x100000)
    (hd : s.readData off size lanes = some w) :
    s.hostRead (s.params.coreBase + off) size lanes = s.respond (.read w true) := by
  simp [State.hostRead, Params.routes_window _ h, hd]

/-- A read at an offset of the core's window that has no data gets ERROR with 0. -/
theorem State.hostRead_error {s : State} {off size : Nat} {lanes : BitVec 4} (h : off < 0x100000)
    (hd : s.readData off size lanes = none) :
    s.hostRead (s.params.coreBase + off) size lanes = s.respond (.read 0 false) := by
  simp [State.hostRead, Params.routes_window _ h, hd]

/-- A write at an offset of the core's window that has an effect gets OKAY. -/
theorem State.hostWrite_okay {s t : State} {off size : Nat} {lanes : BitVec 4} {w : Word} (h : off < 0x100000)
    (he : s.writeEffect off size lanes w = some t) :
    s.hostWrite (s.params.coreBase + off) size lanes w = t.respond (.write true) := by
  simp [State.hostWrite, Params.routes_window _ h, he]

/-- A write at an offset of the core's window that has no effect gets ERROR. -/
theorem State.hostWrite_error {s : State} {off size : Nat} {lanes : BitVec 4} {w : Word} (h : off < 0x100000)
    (he : s.writeEffect off size lanes w = none) :
    s.hostWrite (s.params.coreBase + off) size lanes w = s.respond (.write false) := by
  simp [State.hostWrite, Params.routes_window _ h, he]

/-! ## Commands -/

/-- `t` is `s` but for the memory, WINTAG and a draw count that never falls: all that the body of a command can
change. -/
def EffectForm (s t : State) : Prop :=
  ∃ (m : Memory) (tag : WinTag) (d : Nat), s.draws ≤ d ∧ t = { s with mem := m, winTag := tag, draws := d }

theorem EffectForm.refl (s : State) : EffectForm s s := ⟨s.mem, s.winTag, s.draws, le_rfl, rfl⟩

theorem EffectForm.trans {s t u : State} (h : EffectForm s t) (k : EffectForm t u) : EffectForm s u := by
  obtain ⟨m, tag, d, hd, rfl⟩ := h
  obtain ⟨m', tag', d', hd', rfl⟩ := k
  exact ⟨m', tag', d', Nat.le_trans hd hd', rfl⟩

theorem EffectForm.setRam (s : State) (r : Ram) (n : Nat) (w : Nat → Word) : EffectForm s (s.setRam r n w) :=
  ⟨_, s.winTag, s.draws, le_rfl, rfl⟩

theorem EffectForm.nextDraw (s : State) : EffectForm s s.nextDraw := ⟨s.mem, s.winTag, _, Nat.le_succ _, rfl⟩

theorem EffectForm.onCplx (s : State) (N : Nat) (f : Cplx → Cplx) : EffectForm s (s.onCplx N f) :=
  (EffectForm.setRam s _ _ _).trans (EffectForm.setRam _ _ _ _)

theorem EffectForm.toPolar (s : State) (C : Nat) : EffectForm s (s.toPolar C) :=
  (EffectForm.setRam s _ _ _).trans (EffectForm.setRam _ _ _ _)

theorem EffectForm.generateWindow (s : State) (k : WindowKind) (kind : BitVec 3) (n : BitVec 4) :
    EffectForm s (s.generateWindow k kind n) := ⟨_, _, s.draws, le_rfl, rfl⟩

theorem EffectForm.realInverse (s : State) (n : Nat) : EffectForm s (s.realInverse n) :=
  (EffectForm.onCplx s _ _).trans ((EffectForm.setRam _ _ _ _).trans (EffectForm.nextDraw _))

theorem EffectForm.spectrum (s : State) (k : WindowKind) (kind : BitVec 3) (n : BitVec 4) :
    EffectForm s (s.spectrum k kind n) := by
  refine EffectForm.trans ?_ (EffectForm.setRam _ _ _ _)
  refine EffectForm.trans ?_ (EffectForm.toPolar _ _)
  refine EffectForm.trans ?_ (EffectForm.onCplx _ _ _)
  refine EffectForm.trans ?_ (EffectForm.setRam _ _ _ _)
  unfold State.ensureWindow
  split
  · exact EffectForm.refl s
  · exact EffectForm.generateWindow s k kind n

theorem State.runSized_form {s : State} {nmin : Nat} {n : BitVec 4} {body : State → State}
    (h : EffectForm s (body s)) :
    (∃ e, s.runSized nmin n body = .next (s.raiseCmdError e)) ∨
    ∃ u, EffectForm s u ∧ s.runSized nmin n body = .next u.complete := by
  rcases s.runSized_cases nmin n body with ⟨_, he⟩ | ⟨_, he⟩
  · exact .inr ⟨_, h, he⟩
  · exact .inl ⟨_, he⟩

theorem State.runCounted_form {s : State} {c : BitVec 16} {body : State → State} (h : EffectForm s (body s)) :
    (∃ e, s.runCounted c body = .next (s.raiseCmdError e)) ∨
    ∃ u, EffectForm s u ∧ s.runCounted c body = .next u.complete := by
  rcases s.runCounted_cases c body with ⟨_, he⟩ | ⟨_, he⟩
  · exact .inr ⟨_, h, he⟩
  · exact .inl ⟨_, he⟩

theorem State.runWindowed_form {s : State} {kind : BitVec 3} {n : BitVec 4} {body : WindowKind → State → State}
    (h : ∀ k, EffectForm s (body k s)) :
    (∃ e, s.runWindowed kind n body = .next (s.raiseCmdError e)) ∨
    ∃ u, EffectForm s u ∧ s.runWindowed kind n body = .next u.complete := by
  rcases s.runWindowed_cases kind n body with ⟨_, he⟩ | ⟨_, _, he⟩ | ⟨_, _, k, _, he⟩
  · exact .inl ⟨_, he⟩
  · exact .inl ⟨_, he⟩
  · exact .inr ⟨_, h k, he⟩

/-- Every command raises a command error, or completes having changed only memory, WINTAG and a draw
count that does not fall. -/
theorem exec_cases (i : Instr) (s : State) :
    (∃ e, exec i s = .next (s.raiseCmdError e)) ∨ ∃ u, EffectForm s u ∧ exec i s = .next u.complete := by
  cases i with
  | nop => exact .inr ⟨s, EffectForm.refl s, rfl⟩
  | bitrev n =>
    exact State.runSized_form (body := fun s => s.onCplx (2 ^ n.toNat) (bitrevWalk n.toNat)) (EffectForm.onCplx _ _ _)
  | cfftFwd n =>
    exact State.runSized_form (body := fun s => s.onCplx (2 ^ n.toNat) (cfftCore n.toNat)) (EffectForm.onCplx _ _ _)
  | cfftInv n =>
    exact State.runSized_form (body := fun s => s.onCplx (2 ^ n.toNat) (cfftInverse n.toNat)) (EffectForm.onCplx _ _ _)
  | rfftFwd n => exact State.runSized_form (EffectForm.onCplx s (2 ^ n.toNat) (rfftCore n.toNat))
  | rfftInv n => exact State.runSized_form (EffectForm.realInverse _ _)
  | polar c => exact State.runCounted_form (EffectForm.toPolar _ _)
  | genwin kind n => exact State.runWindowed_form fun k => EffectForm.generateWindow _ _ _ _
  | winapply c => exact State.runCounted_form (EffectForm.setRam _ _ _ _)
  | dbconv n => exact State.runSized_form (EffectForm.setRam _ _ _ _)
  | spectrum kind n => exact State.runWindowed_form fun k => EffectForm.spectrum _ _ _ _

/-- The core's turn: nothing on an idle core; else a command error, or a command's completion (R370). -/
theorem State.coreTurn_cases (s : State) :
    (s.busy = false ∧ s.coreTurn = .next s) ∨
    (s.busy = true ∧ ∃ e, s.coreTurn = .next (s.raiseCmdError e)) ∨
    (s.busy = true ∧ ∃ i, decode s.cmd = .ok i ∧ s.coreTurn = exec i s) := by
  unfold State.coreTurn
  cases hb : s.busy with
  | false => exact .inl ⟨rfl, rfl⟩
  | true =>
    simp only [if_true, State.execute]
    cases hd : decode s.cmd with
    | error e => exact .inr (.inl ⟨trivial, e, rfl⟩)
    | ok i => exact .inr (.inr ⟨trivial, i, rfl, rfl⟩)

/-! ## The step -/

/-- A step takes the first turn of the list. -/
theorem step_turn {s : State} {t : Turn} {ts : List Turn} (h : s.turns = t :: ts) :
    step s = State.takeTurn { s with turns := ts } t := by
  unfold step State.advance
  rw [h]

/-- With no turn left a step is the core's turn. -/
theorem step_silent {s : State} (h : s.turns = []) : step s = s.coreTurn := by
  unfold step State.advance
  rw [h]

/-- A step is the core's turn, a host read, a host write or a hardware reset, in the state with the turn taken off the
list. -/
theorem step_cases (s : State) :
    (s.turns = [] ∧ step s = s.coreTurn) ∨
    ∃ t ts, s.turns = t :: ts ∧
      ((t = .execute ∧ step s = State.coreTurn { s with turns := ts }) ∨
       (∃ addr size lanes, t = .read addr size lanes ∧
          step s = .next (State.hostRead { s with turns := ts } addr size lanes)) ∨
       (∃ addr size lanes w, t = .write addr size lanes w ∧
          step s = .next (State.hostWrite { s with turns := ts } addr size lanes w)) ∨
       (t = .hardReset ∧ step s = .next (State.hardReset { s with turns := ts }))) := by
  unfold step State.advance
  cases h : s.turns with
  | nil => exact .inl ⟨rfl, rfl⟩
  | cons t ts =>
    refine .inr ⟨t, ts, rfl, ?_⟩
    cases t with
    | read addr size lanes => exact .inr (.inl ⟨_, _, _, rfl, rfl⟩)
    | write addr size lanes w => exact .inr (.inr (.inl ⟨_, _, _, _, rfl, rfl⟩))
    | execute => exact .inl ⟨rfl, rfl⟩
    | hardReset => exact .inr (.inr (.inr ⟨rfl, rfl⟩))

end Sys2Proof.Machine
end

