-- ==== Sys2Proof/Tests/Slice0.lean ====
section
/-! SUPPORT. The model's own tests: ill-formed terms refused, command words written out bit by bit, one step of each
command on the spec's worked vectors, the host port and reset, and for every obligation with hypotheses a state and
operands that meet them. Expected results are those of the spec's tables, never the model's own answer. -/

-- One test after the other: tests that wait for one another in parallel each hold a thread's stack.
set_option Elab.async false

open Sys2Proof Sys2Proof.Machine

namespace Sys2Proof.Tests

/-! ## Helpers -/

/-- The next state of an outcome, if there is one. -/
def nextOf : Host.Outcome State Fault Refusal → Option State
  | .next s => some s
  | .fault _ => none
  | .refused _ => none

/-- The first n words of a RAM. -/
def words (r : Ram) (n : Nat) (s : State) : List Word := s.loadRam r n

/-- The words written to a RAM from index 0 on. -/
def fill (r : Ram) (ws : List Word) (s : State) : State := s.setRam r ws.length fun i => ws.getD i 0

/-- A state whose next turn is `t`. -/
def turn (t : Turn) (s : State) : State := { s with turns := [t] }

/-- The reset state with an accepted command word, the core's turn next. -/
def latched (w : Nat) : State := State.reset.withFetchWord 32 w

/-- The host reads the word at an offset. -/
def rdOff (off : Nat) : Turn := .read off 4 0xF

/-- The host writes the word at an offset. -/
def wrOff (off : Nat) (w : Word) : Turn := .write off 4 0xF w

/-- The response to one host turn taken in `s`. -/
def responseTo (t : Turn) (s : State) : Option Response := (nextOf (step (turn t s))).bind fun u => u.responses.getLast?

/-! ## WellFormed refuses each kind of ill-formed term, on the reference core (30_encoding.md R146) -/

theorem test_wellFormed_size_below_minimum :
    Instr.WellFormed 12 (.bitrev 0) = false ∧ Instr.WellFormed 12 (.cfftFwd 0) = false ∧
    Instr.WellFormed 12 (.cfftInv 0) = false ∧ Instr.WellFormed 12 (.rfftFwd 1) = false ∧
    Instr.WellFormed 12 (.rfftInv 1) = false ∧ Instr.WellFormed 12 (.genwin 0 1) = false ∧
    Instr.WellFormed 12 (.dbconv 0) = false ∧ Instr.WellFormed 12 (.spectrum 0 1) = false := by decide

theorem test_wellFormed_size_above_nmax :
    Instr.WellFormed 12 (.bitrev 13) = false ∧ Instr.WellFormed 12 (.cfftFwd 13) = false ∧
    Instr.WellFormed 12 (.cfftInv 15) = false ∧ Instr.WellFormed 12 (.rfftFwd 13) = false ∧
    Instr.WellFormed 12 (.rfftInv 13) = false ∧ Instr.WellFormed 12 (.genwin 1 15) = false ∧
    Instr.WellFormed 12 (.dbconv 13) = false ∧ Instr.WellFormed 12 (.spectrum 0 13) = false := by decide

theorem test_wellFormed_count_out_of_range :
    Instr.WellFormed 12 (.polar 0) = false ∧ Instr.WellFormed 12 (.polar 4097) = false ∧
    Instr.WellFormed 12 (.winapply 0) = false ∧ Instr.WellFormed 12 (.winapply 4097) = false := by decide

theorem test_wellFormed_reserved_kind :
    Instr.WellFormed 12 (.genwin 6 2) = false ∧ Instr.WellFormed 12 (.genwin 7 2) = false ∧
    Instr.WellFormed 12 (.spectrum 6 2) = false ∧ Instr.WellFormed 12 (.spectrum 7 12) = false := by decide

/-! ## Command words written out bit by bit: COUNT RSVD KIND LOG2N OP (30_encoding.md R141, R145) -/

theorem test_decode_nop : decode 0b0000000000000000_00000_000_0000_0000 = .ok .nop := by decide
theorem test_decode_bitrev : decode 0b0000000000000000_00000_000_1001_0001 = .ok (.bitrev 9) := by decide
theorem test_decode_cfftFwd : decode 0b0000000000000000_00000_000_1100_0010 = .ok (.cfftFwd 12) := by decide
theorem test_decode_cfftInv : decode 0b0000000000000000_00000_000_0001_0011 = .ok (.cfftInv 1) := by decide
theorem test_decode_rfftFwd : decode 0b0000000000000000_00000_000_0011_0100 = .ok (.rfftFwd 3) := by decide
theorem test_decode_rfftInv : decode 0b0000000000000000_00000_000_1010_0101 = .ok (.rfftInv 10) := by decide
theorem test_decode_polar : decode 0b1000000000000101_00000_000_0000_0110 = .ok (.polar 0x8005) := by decide
theorem test_decode_genwin : decode 0b0000000000000000_00000_101_0110_0111 = .ok (.genwin 5 6) := by decide
theorem test_decode_winapply : decode 0b0001000000000001_00000_000_0000_1000 = .ok (.winapply 0x1001) := by decide
theorem test_decode_dbconv : decode 0b0000000000000000_00000_000_1111_1001 = .ok (.dbconv 15) := by decide
theorem test_decode_spectrum : decode 0b0000000000000000_00000_011_0100_1010 = .ok (.spectrum 3 4) := by decide

/-- R147, R148: a reserved bit, an unused field, a reserved opcode. -/
theorem test_decode_rejects :
    decode 0b0000000000000000_10000_000_0000_0000 = .error .rsvd ∧
    decode 0b0000000000000001_00000_000_0010_0010 = .error .rsvd ∧
    decode 0b0000000000000000_00000_001_0000_1000 = .error .rsvd ∧
    decode 0b0000000000000001_00000_000_0010_0111 = .error .rsvd ∧
    decode 0b0000000000000000_00001_000_0000_1011 = .error .opcode ∧
    decode 0b1111111111111111_11111_111_1111_1111 = .error .opcode := by decide

/-- 95_test_vectors.md section 3.1, column "STATUS after", on the reference core. -/
theorem test_status_after_illegal_words :
    [0x00000010, 0x00008000, 0x00000001, 0x000000D2, 0x00010022, 0x00000014, 0x00000006, 0x10010006].map
      (fun w => (nextOf (step (latched w))).map State.statusWord) =
    [0x24, 0x24, 0x44, 0x44, 0x24, 0x44, 0x54, 0x54].map some ∧
    [0x00010016, 0x00000627, 0x00000617, 0x00000507, 0x00010027, 0x00000108, 0x00000009, 0x0000073A].map
      (fun w => (nextOf (step (latched w))).map State.statusWord) =
    [0x24, 0x34, 0x34, 0x44, 0x24, 0x24, 0x44, 0x34].map some ∧
    [0x000001F7, 0x00000817, 0x0000080B, 0xFFFFFFFF].map
      (fun w => (nextOf (step (latched w))).map State.statusWord) = [0x44, 0x24, 0x14, 0x14].map some := by
  decide +kernel

/-! ## One step of each command -/

/-- 95 section 2.11: STATUS is 1 after the CMD write and 2 after EXECUTE; with IE = 1 irq rises. -/
theorem test_nop :
    (nextOf (step (turn (wrOff 0x008 0) State.reset))).map State.statusWord = some 1 ∧
    (nextOf (step (latched 0))).map State.statusWord = some 2 ∧
    (nextOf (step { latched 0 with ie := true })).map State.irq = some true := by decide +kernel

/-- R228's example. -/
theorem test_bitrev :
    (nextOf (exec (.bitrev 2) (fill .im [10, 11, 12, 13] (fill .re [0, 1, 2, 3] State.reset)))).map
      (fun t => (words .re 4 t, words .im 4 t)) = some ([0, 2, 1, 3], [10, 12, 11, 13]) := by decide +kernel

/-- R229's example: N = 4, [1, 2, 3, 4] gives RE = [10, −2, −2, −2], IM = [0, 2, 0, −2]. -/
theorem test_cfftFwd :
    (nextOf (exec (.cfftFwd 2) (fill .im [0, 0, 0, 0]
        (fill .re [0x3F800000, 0x40000000, 0x40400000, 0x40800000] State.reset)))).map
      (fun t => (words .re 4 t, words .im 4 t)) =
    some ([0x41200000, 0xC0000000, 0xC0000000, 0xC0000000], [0, 0x40000000, 0, 0xC0000000]) := by decide +kernel

/-- R230's example: N = 2, RE = [3, −1], IM = [+0, +0] gives RE = [1, 2], IM = [+0, −0]. -/
theorem test_cfftInv :
    (nextOf (exec (.cfftInv 1) (fill .im [0, 0] (fill .re [0x40400000, 0xBF800000] State.reset)))).map
      (fun t => (words .re 2 t, words .im 2 t)) = some ([0x3F800000, 0x40000000], [0, 0x80000000]) := by
  decide +kernel

/-- R267's example: N = 4, [1, 2, 3, 4] with any IM. -/
theorem test_rfftFwd :
    (nextOf (exec (.rfftFwd 2) (fill .re [0x3F800000, 0x40000000, 0x40400000, 0x40800000] State.reset))).map
      (fun t => (words .re 4 t, words .im 4 t)) =
    some ([0x41200000, 0xC0000000, 0xC0000000, 0xC0000000], [0, 0x40000000, 0, 0xC0000000]) := by decide +kernel

/-- R268's example: N = 4, RE = [10, −2, −2, x], IM = [0, 2, 0, y] gives RE = [1, 2, 3, 4]. -/
theorem test_rfftInv :
    (nextOf (exec (.rfftInv 2) (fill .im [0, 0x40000000, 0] (fill .re [0x41200000, 0xC0000000, 0xC0000000]
        State.reset)))).map (words .re 4) = some [0x3F800000, 0x40000000, 0x40400000, 0x40800000] := by
  decide +kernel

/-- R290's example: (1, 0), (−1, 0), (0, 1). -/
theorem test_polar :
    (nextOf (exec (.polar 3) (fill .im [0, 0, 0x3F800000] (fill .re [0x3F800000, 0xBF800000, 0] State.reset)))).map
      (fun t => (words .re 3 t, words .im 3 t)) =
    some ([0x3F800000, 0x3F800000, 0x3F800000], [0, 0x40490FDB, 0x3FC90FDB]) := by decide +kernel

/-- R292's rows (−3, 4), (−3, −4), (−0, 1), (−0, +0). -/
theorem test_polar_corners :
    polarMag 0xC0400000 0x40800000 = 0x40A00000 ∧ polarPhase 0xC0400000 0x40800000 = 0x400DB70D ∧
    polarPhase 0xC0400000 0xC0800000 = 0xC00DB70D ∧ polarPhase 0x80000000 0x3F800000 = 0xBFC90FDB ∧
    polarMag 0x80000000 0 = 0 ∧ polarPhase 0x80000000 0 = 0x7FC00000 := by decide +kernel

/-- 95 section 2.7: Bartlett, N = 4; WINTAG = 1 | kind << 4 | n << 8. -/
theorem test_genwin :
    (nextOf (exec (.genwin 1 2) State.reset)).map (fun t => (words .win 4 t, t.winTagWord)) =
    some ([0, 0x3F800000, 0, 0xBF800000], 0x211) := by decide +kernel

/-- 95 section 2.7, N = 8: one coefficient of each kind that computes. -/
theorem test_window_words :
    window .hanning 8 1 = 0x3F400000 ∧ window .hamming 8 7 = 0x3F451EBF ∧ window .blackman 8 4 = 0x3F2147B0 ∧
    window .welch 8 7 = 0xBE1E69D0 ∧ window .bartlett 8 7 = 0xBEAAAAAC ∧ window .rect 8 0 = 0x3F800000 := by
  decide +kernel

/-- 95 section 2.8. -/
theorem test_winapply :
    (nextOf (exec (.winapply 5) (fill .win [0x3F000000, 0, 0x3F800000, 0x80000000, 0x3F800000]
        (fill .re [0x40000000, 0x7F800000, 0x80000000, 0x40400000, 0x7FA00001] State.reset)))).map (words .re 5) =
    some [0x3F800000, 0x7FC00000, 0x80000000, 0x80000000, 0x7FC00000] := by decide +kernel

/-- R341's table, N = 8: 1, 4, −0, −1; and R340's clamp edge. -/
theorem test_dbconv :
    (nextOf (exec (.dbconv 3) (fill .re [0x3F800000, 0x40800000, 0x80000000, 0xBF800000] State.reset))).map
      (words .db 4) = some [0xC140A8C2, 0, 0xC2C80000, 0x7FC00000] ∧
    dbElem 0x3827C5AC 8 = 0xC2C80000 ∧ dbElem 0x3827C6BF 8 = 0xC2C7FFE3 := by decide +kernel

/-- 95 section 2.10, last row (hamming, 2; the row's WINTAG column is another matter, see NOTES.md). -/
theorem test_spectrum_hamming :
    (nextOf (exec (.spectrum 2 2) (fill .re [0x3F800000, 0x3F800000, 0x3F800000, 0x3F800000] State.reset))).map
      (fun t => (words .re 4 t, words .im 4 t, words .db 2 t)) =
    some ([0x3EA3D70C, 0, 0, 0], [0, 0x7FC00000, 0, 0], [0xC17EAE7C, 0xC2C80000]) := by decide +kernel

/-- R342's example, which is P2: rect, 3, an impulse. -/
theorem test_spectrum_impulse :
    (nextOf (exec (.spectrum 0 3) (fill .re [0x3F800000, 0, 0, 0, 0, 0, 0, 0] State.reset))).map
      (fun t => (words .re 8 t, words .im 8 t, words .db 4 t, t.winTagWord)) =
    some (List.replicate 8 0x3F800000, [0, 0, 0, 0x80000000, 0, 0, 0, 0], List.replicate 4 0xC140A8C2, 0x301) := by
  decide +kernel

/-! ## The host port (95_test_vectors.md section 3.2) and reset -/

/-- Rows "any": OKAY reads. -/
theorem test_bus_reads :
    responseTo (rdOff 0x000) State.reset = some (.read 0x53504B31 true) ∧
    responseTo (rdOff 0x004) State.reset = some (.read 0x0000010C true) ∧
    responseTo (rdOff 0x200) (latched 0x22) = some (.read 0xBF800000 true) ∧
    responseTo (rdOff 0x204) State.reset = some (.read 0 true) ∧
    responseTo (rdOff 0x210) State.reset = some (.read 0x3F3504F3 true) ∧
    responseTo (rdOff 0x214) State.reset = some (.read 0xBF3504F3 true) ∧
    responseTo (rdOff 0x258) State.reset = some (.read 0x3F7FFFEC true) ∧
    responseTo (rdOff 0x260) State.reset = some (.read 0 true) ∧
    responseTo (rdOff 0x00C) (latched 0x22) = some (.read 1 true) ∧
    responseTo (rdOff 0x008) (latched 0x22) = some (.read 0x22 true) := by decide +kernel

/-- The rows that get ERROR: misaligned, narrow, a lane disabled, reserved, read-only, past a RAM's end, busy. -/
theorem test_bus_errors :
    responseTo (rdOff 0x002) State.reset = some (.read 0 false) ∧
    responseTo (.read 0x00C 1 0xF) State.reset = some (.read 0 false) ∧
    responseTo (.read 0x00C 4 0x7) State.reset = some (.read 0 false) ∧
    responseTo (rdOff 0x018) State.reset = some (.read 0 false) ∧
    responseTo (rdOff 0x280) State.reset = some (.read 0 false) ∧
    responseTo (rdOff 0x24000) State.reset = some (.read 0 false) ∧
    responseTo (rdOff 0x82000) State.reset = some (.read 0 false) ∧
    responseTo (rdOff 0x20000) (latched 0x22) = some (.read 0 false) ∧
    responseTo (wrOff 0x000 1) State.reset = some (.write false) ∧
    responseTo (wrOff 0x200 1) State.reset = some (.write false) ∧
    responseTo (wrOff 0x014 1) State.reset = some (.write false) ∧
    responseTo (wrOff 0x008 1) (latched 0x22) = some (.write false) ∧
    responseTo (wrOff 0x40000 1) (latched 0x22) = some (.write false) := by decide +kernel

/-- The last RAM words that exist, RE[4095] and DB[2047], little-endian bytes in memory (20_memory.md R105). -/
theorem test_bus_ram_ends :
    (nextOf (step (turn (wrOff 0x23FFC 0x3F812345) State.reset))).map
      (fun t => (t.ram .re 4095, t.byteAt 0x23FFC, t.byteAt 0x23FFF)) = some (0x3F812345, 0x45, 0x3F) ∧
    (nextOf (step (turn (wrOff 0x81FFC 7) State.reset))).map (State.ram · .db 2047) = some 7 := by decide +kernel

/-- An address outside the core's window reaches nothing (20_memory.md R101). -/
theorem test_bus_unrouted : responseTo (rdOff 0x100000) State.reset = none := by decide

/-- A write to WIN clears WINTAG even if no value changes; a write to RE does not (R110). -/
theorem test_win_write_clears_tag :
    (nextOf (step (turn (wrOff 0x60000 0x3F800000) (State.reset.setWinTag 0 3)))).map State.winTagWord = some 0 ∧
    (nextOf (step (turn (wrOff 0x20000 0x3F800000) (State.reset.setWinTag 0 3)))).map State.winTagWord =
      some 0x301 := by decide +kernel

/-- P3: W1C clears ERR with ERRCODE; a CTRL write sets IE; CTRL 0x80000001 resets and leaves IE = 0. -/
theorem test_status_and_ctrl_writes :
    (nextOf (step (turn (wrOff 0x00C 4) { State.reset with err := true, errcode := 1 }))).map State.statusWord =
      some 0 ∧
    (nextOf (step (turn (wrOff 0x00C 2) { State.reset with err := true, errcode := 1 }))).map State.statusWord =
      some 0x14 ∧
    (nextOf (step (turn (wrOff 0x010 1) (latched 0x22)))).map (fun t => (t.ie, t.busy)) = some (true, true) ∧
    (nextOf (step (turn (wrOff 0x010 0x80000001) (fill .re [0x3F800000] { latched 0 with busy := false })))).map
      (fun t => (t.ctrlWord, t.cmd, t.ram .re 0)) = some (0, 0, 0x3F800000) := by decide +kernel

/-- R422: aborting WINAPPLY 1 keeps RE[1] and WIN[0], whatever RE[0] becomes; aborting an illegal word keeps RE[0]. -/
theorem test_abort :
    (nextOf (step (turn (wrOff 0x010 0x80000000) (fill .win [9] (fill .re [7, 8] (latched 0x00010008)))))).map
      (fun t => (t.busy, t.done, t.err, t.ram .re 1, t.ram .win 0)) = some (false, false, false, 8, 9) ∧
    (nextOf (step (turn (wrOff 0x010 0x80000000) (fill .re [7] (latched 0x0000000B))))).map (State.ram · .re 0) =
      some 7 := by decide +kernel

/-- R420: the hardware reset input, while busy. -/
theorem test_hard_reset :
    (nextOf (step (turn .hardReset { latched 0x22 with ie := true }))).map
      (fun t => (t.cmd, t.statusWord, t.ctrlWord, t.winTagWord, t.mem.length)) = some (0, 0, 0, 0, 0) := by decide +kernel

/-! ## A witness for every obligation with hypotheses: states and operands that meet them, at the ends of each range -/

theorem witness_EncodeInvertsDecode :
    decode 0 = .ok .nop ∧ decode 0xFFFF0008 = .ok (.winapply 0xFFFF) ∧ decode 0x000007FA = .ok (.spectrum 7 15) := by
  decide

/-- Busy and idle, the core's turn by the list and by its end. -/
theorem witness_StepRunsDecodedInstruction :
    ((latched 0x22).busy = true ∧ decode (latched 0x22).cmd = .ok (.cfftFwd 2) ∧ (latched 0x22).turns = [.execute]) ∧
    ({ latched 0x22 with turns := [] }.busy = true ∧ decode { latched 0x22 with turns := [] }.cmd = .ok (.cfftFwd 2)) ∧
    (State.reset.busy = false ∧ State.reset.turns = []) ∧ (turn .execute State.reset).turns = [.execute] := by decide

/-- Each of the five errors, by a latched word, and each range error of an instruction. -/
theorem witness_CommandErrorWritesStatusOnly :
    (∀ p ∈ [(0x0B, CmdError.opcode), (0x0800, .rsvd), (0x627, .kind), (0xD2, .log2n), (0x10010006, .count)],
      (latched p.1).turns = [.execute] ∧ (latched p.1).busy = true ∧
        classify (latched p.1).params.log2Nmax (latched p.1).cmd = some p.2) ∧
    Instr.rangeError State.reset.params.log2Nmax (.genwin 6 0) = some .kind ∧
    Instr.rangeError State.reset.params.log2Nmax (.spectrum 5 1) = some .log2n ∧
    Instr.rangeError State.reset.params.log2Nmax (.polar 0) = some .count := by decide +kernel

/-- A legal word and a rejected one. -/
theorem witness_ExecuteEndsWithDoneOrErr :
    ∀ w ∈ [0x10000006, 0x10010006],
      (latched w).turns = [.execute] ∧ (latched w).busy = true ∧ (latched w).done = false ∧ (latched w).err = false ∧
        (latched w).errcode = 0 := by decide

/-- A step that is no reset, a hardware reset and a soft reset. -/
theorem witness_CommandHeldWhileBusy :
    ((latched 0x22).busy = true ∧ (∃ t, step (turn (rdOff 0x20000) (latched 0x22)) = .next t) ∧
      ¬ (turn (rdOff 0x20000) (latched 0x22)).ResetsNext ∧ ¬ (turn (wrOff 0x010 0x7FFFFFFF) (latched 0x22)).ResetsNext) ∧
    ((turn .hardReset (latched 0x22)).busy = true ∧ (turn .hardReset (latched 0x22)).ResetsNext ∧
      ∃ t, step (turn .hardReset (latched 0x22)) = .next t) ∧
    (turn (wrOff 0x010 0x80000000) (latched 0x22)).ResetsNext := by
  refine ⟨⟨rfl, ⟨_, rfl⟩, ?_, ?_⟩, ⟨rfl, .inl ⟨[], rfl⟩, _, rfl⟩, .inr ⟨[], 0x80000000, rfl, by decide⟩⟩
  · rintro (⟨_, h⟩ | ⟨_, _, h, _⟩) <;> cases h
  · rintro (⟨_, h⟩ | ⟨_, w, h, hw⟩)
    · cases h
    · cases h
      exact absurd hw (by decide)

theorem witness_NopOnlyCompletes : fieldOp 0 = 0 ∧ fieldOp 0xFFFFFFF0 = 0 := by decide

/-- Every constructor, at the ends of its operand ranges. -/
theorem witness_WellFormedCommandCompletes :
    (∀ i ∈ [Instr.nop, .bitrev 1, .bitrev 12, .cfftFwd 1, .cfftFwd 12, .cfftInv 1, .cfftInv 12, .rfftFwd 2,
        .rfftFwd 12, .rfftInv 2, .rfftInv 12], i.WellFormed State.reset.params.log2Nmax = true) ∧
    ∀ i ∈ [Instr.polar 1, .polar 4096, .genwin 0 2, .genwin 5 12, .winapply 1, .winapply 4096, .dbconv 1, .dbconv 12,
        .spectrum 0 2, .spectrum 5 12], i.WellFormed State.reset.params.log2Nmax = true := by decide +kernel

/-- A buffer of 2^n words in each half. -/
def buffer (n : Nat) : Cplx := ⟨List.replicate (2 ^ n) ONE, List.replicate (2 ^ n) ZERO⟩

theorem witness_BitrevMovesEveryWordToItsReversal :
    legalLog2N State.reset.params.log2Nmax 1 1 = true ∧ legalLog2N State.reset.params.log2Nmax 1 12 = true ∧
    (4095 : Nat) < 2 ^ 12 ∧ (buffer 3).re.length = 2 ^ 3 ∧ (buffer 3).im.length = 2 ^ 3 ∧ (1 : Nat) < 2 := by decide

/-- Stage 1 and the last stage, at the last group and offset. -/
theorem witness_StageIsParallelButterflies :
    (buffer 3).re.length = 2 ^ 3 ∧ (buffer 3).im.length = 2 ^ 3 ∧ (1 : Nat) ≤ 1 ∧ (1 : Nat) ≤ 3 ∧
    (0 : Nat) < 2 ^ (1 - 1) ∧ (3 : Nat) < 2 ^ (3 - 1) ∧ (3 : Nat) < 2 ^ (3 - 1) ∧ (0 : Nat) < 2 ^ (3 - 3) := by decide

theorem witness_CfftFwdRunsWalkThenStages :
    legalLog2N State.reset.params.log2Nmax 1 1 = true ∧ legalLog2N State.reset.params.log2Nmax 1 12 = true := by decide

theorem witness_CfftInvIsConjugateIdentity :
    legalLog2N State.reset.params.log2Nmax 1 1 = true ∧ legalLog2N State.reset.params.log2Nmax 1 12 = true := by decide

/-- Size 4, whose step 3 has no bin, and a size whose step 3 has its first and last bin. -/
theorem witness_RfftFwdResultIgnoresIm :
    legalLog2N State.reset.params.log2Nmax 2 2 = true ∧ legalLog2N State.reset.params.log2Nmax 2 12 = true ∧
    (1 : Nat) < 2 ^ 12 / 4 ∧ (1023 : Nat) < 2 ^ 12 / 4 ∧ (4095 : Nat) < 2 ^ 12 := by decide

theorem witness_RfftInvResult :
    legalLog2N State.reset.params.log2Nmax 2 2 = true ∧ legalLog2N State.reset.params.log2Nmax 2 12 = true := by decide

theorem witness_PolarConvertsEachElement :
    State.reset.params.Legal ∧ legalCount State.reset.params.log2Nmax 1 = true ∧
    legalCount State.reset.params.log2Nmax 4096 = true ∧ (4095 : Nat) < (4096 : BitVec 16).toNat := by decide +kernel

/-- Each of the six kinds, the smallest and the largest size. -/
theorem witness_GenwinWritesWindowAndTag :
    ([0, 1, 2, 3, 4, 5].map WindowKind.ofField =
      [some .rect, some .bartlett, some .hamming, some .hanning, some .blackman, some .welch]) ∧
    legalLog2N State.reset.params.log2Nmax 2 2 = true ∧ legalLog2N State.reset.params.log2Nmax 2 12 = true := by decide

theorem witness_WinapplyMultipliesEachSample :
    State.reset.params.Legal ∧ legalCount State.reset.params.log2Nmax 1 = true ∧
    legalCount State.reset.params.log2Nmax 4096 = true := by decide +kernel

theorem witness_DbconvConvertsHalfTheBins :
    legalLog2N State.reset.params.log2Nmax 1 1 = true ∧ (0 : Nat) < 2 ^ (1 : BitVec 4).toNat / 2 ∧
    legalLog2N State.reset.params.log2Nmax 1 12 = true := by decide

/-- A state whose WIN and WINTAG hold the rectangular window of size 4. -/
def withRect : State := State.reset.generateWindow .rect 0 2

/-- A tag miss and a tag hit. -/
theorem witness_SpectrumIsItsFiveCommands :
    legalKind 0 = true ∧ legalLog2N State.reset.params.log2Nmax 2 2 = true ∧ State.reset.tagHit 0 2 = false ∧
    withRect.tagHit 0 2 = true ∧ withRect.params = State.reset.params := by decide +kernel

/-- The window a GENWIN leaves is held. -/
theorem windowHeld_withRect : withRect.WindowHeld := by
  intro _ k hk i hi
  have hk' : k = .rect := by
    simp only [withRect, State.generateWindow, State.setWinTag, WindowKind.ofField] at hk
    exact (Option.some.inj hk).symm
  subst hk'
  exact State.ram_setRam_same _ _ _ hi

/-- One state with a tag miss, one with a tag hit, the same samples. -/
theorem witness_SpectrumDependsOnSamplesAlone :
    legalKind 0 = true ∧ legalLog2N State.reset.params.log2Nmax 2 2 = true ∧
    legalLog2N withRect.params.log2Nmax 2 2 = true ∧ State.reset.WindowHeld ∧ withRect.WindowHeld ∧
    SameWordsIn [(.re, 2 ^ (2 : BitVec 4).toNat)] State.reset withRect := by
  refine ⟨rfl, rfl, rfl, fun h => (Bool.false_ne_true h).elim, windowHeld_withRect, fun b hb i hi => ?_⟩
  simp only [List.mem_singleton] at hb
  subst hb
  have small : (2 : Nat) ^ (2 : BitVec 4).toNat = 4 := rfl
  have hi' : i < 4 := hi
  unfold withRect State.generateWindow
  exact (State.ram_congr rfl rfl _ _).trans (State.ram_setRam_other _ _ (by decide) (by omega) (by omega))

/-- A completing command and a rejected one. -/
theorem witness_CommandsWriteOnlyTheirWriteSet :
    (∃ t, exec (.genwin 0 2) State.reset = .next t) ∧ ∃ t, exec (.genwin 6 2) State.reset = .next t :=
  ⟨⟨_, rfl⟩, _, rfl⟩

/-- Two states that differ in IM only, and DBCONV, which does not read IM. -/
theorem witness_CommandsReadOnlyTheirReadSet :
    let s1 := State.reset
    let s2 := State.reset.setRam .im 1 fun _ => 5
    s2.params = s1.params ∧ s2.winTag = s1.winTag ∧ s2.draws = s1.draws ∧
    SameWordsIn (readSet (s1.instrTagHit (.dbconv 1)) (.dbconv 1)) s1 s2 ∧
    (∃ t, exec (.dbconv 1) s1 = .next t) ∧ ∃ t, exec (.dbconv 1) s2 = .next t := by
  refine ⟨rfl, rfl, rfl, fun b hb i hi => ?_, ⟨_, rfl⟩, _, rfl⟩
  simp only [readSet, List.mem_singleton] at hb
  subst hb
  exact State.ram_setRam_other _ _ (by decide) (by decide) (by simp at hi ⊢; omega)

theorem witness_CommandsLeaveOtherRegistersAlone :
    (∃ t, exec (.rfftInv 2) State.reset = .next t) ∧ (∃ t, exec (.dbconv 0) State.reset = .next t) ∧
    (∀ (kind : BitVec 3) (n : BitVec 4), Instr.rfftInv 2 ≠ .genwin kind n ∧ Instr.rfftInv 2 ≠ .spectrum kind n) ∧
    ∀ n : BitVec 4, Instr.dbconv 0 ≠ .rfftInv n :=
  ⟨⟨_, rfl⟩, ⟨_, rfl⟩, fun _ _ => ⟨nofun, nofun⟩, fun _ => nofun⟩

/-- A read that is answered, one that gets ERROR and one that is not routed to the core. -/
theorem witness_ReadsHaveNoSideEffect :
    (turn (rdOff 0x00C) State.reset).turns = [.read 0x00C 4 0xF] ∧
    (turn (.read 0x1 1 0x1) State.reset).turns = [.read 0x1 1 0x1] ∧
    (turn (rdOff 0x100000) State.reset).turns = [.read 0x100000 4 0xF] := by decide

/-- The six registers, on an idle and on a busy core. -/
theorem witness_RegistersReadAsTheirFields :
    ∀ off ∈ [0x000, 0x004, 0x008, 0x00C, 0x010, 0x014],
      (turn (rdOff off) State.reset).turns = [.read ((turn (rdOff off) State.reset).params.coreBase + off) 4 0xF] ∧
      (turn (rdOff off) (latched 0x22)).turns =
        [.read ((turn (rdOff off) (latched 0x22)).params.coreBase + off) 4 0xF] := by decide

/-- Stages 1 and 16, both words, reads and writes. -/
theorem witness_RomWindowIsReadOnly :
    ∀ stage ∈ [1, 16], 1 ≤ stage ∧ stage ≤ 16 ∧
      (turn (rdOff (0x200 + 8 * (stage - 1))) State.reset).turns =
        [.read (State.reset.params.coreBase + 0x200 + 8 * (stage - 1)) 4 0xF] ∧
      (turn (rdOff (0x204 + 8 * (stage - 1))) State.reset).turns =
        [.read (State.reset.params.coreBase + 0x200 + 8 * (stage - 1) + 4) 4 0xF] ∧
      (turn (wrOff (0x200 + 8 * (stage - 1)) 1) State.reset).turns =
        [.write (State.reset.params.coreBase + 0x200 + 8 * (stage - 1)) 4 0xF 1] := by decide

theorem witness_CmdWriteIsAcceptedOnlyWhenIdle :
    ((turn (wrOff 0x008 0xFFFFFFFF) State.reset).turns =
      [.write (State.reset.params.coreBase + 0x008) 4 0xF 0xFFFFFFFF] ∧ State.reset.busy = false) ∧
    ((turn (wrOff 0x008 0) (latched 0x22)).turns = [.write ((latched 0x22).params.coreBase + 0x008) 4 0xF 0] ∧
      (latched 0x22).busy = true) ∧
    (turn (rdOff 0x008) (latched 0x22)).turns = [.read ((latched 0x22).params.coreBase + 0x008) 4 0xF] := by decide

theorem witness_StatusWriteClearsWhatItNames :
    ∀ w ∈ [(0 : Word), 2, 4, 6], (turn (wrOff 0x00C w) (latched 0x22)).turns =
      [.write ((latched 0x22).params.coreBase + 0x00C) 4 0xF w] := fun _ _ => rfl

/-- SRST = 0 and SRST = 1, and a read. -/
theorem witness_CtrlWriteSetsIeOrResets :
    (turn (wrOff 0x010 0x7FFFFFFF) State.reset).turns =
      [.write (State.reset.params.coreBase + 0x010) 4 0xF 0x7FFFFFFF] ∧
    (0x7FFFFFFF : Word).getLsbD 31 = false ∧ (0x80000001 : Word).getLsbD 31 = true ∧
    (turn (rdOff 0x010) State.reset).turns = [.read (State.reset.params.coreBase + 0x010) 4 0xF] := by decide

/-- An idle core, a busy core with a legal word (its write set not empty), a busy core with an illegal word. -/
theorem witness_SoftResetKeepsOrAborts :
    (0x80000000 : Word).getLsbD 31 = true ∧
    (∀ s ∈ [State.reset, latched 0x22, latched 0x0B], (turn (wrOff 0x010 0x80000000) s).turns =
      [.write (s.params.coreBase + 0x010) 4 0xF 0x80000000]) ∧
    State.reset.busy = false ∧ (latched 0x22).busy = true ∧ decode (latched 0x22).cmd = .ok (.cfftFwd 2) ∧
    (latched 0x22).writeSetOf (.cfftFwd 2) = [(.re, 4), (.im, 4)] ∧ (latched 0x0B).busy = true ∧
    classify (latched 0x0B).params.log2Nmax (latched 0x0B).cmd ≠ none := by decide +kernel

theorem witness_HardResetFromAnyState : (turn .hardReset (latched 0x22)).turns = [.hardReset] := by decide

/-- The first word of RE, the last of WIN and of DB. -/
theorem witness_HostRamWriteStoresOneWord :
    State.reset.busy = false ∧
    ∀ p ∈ [(Ram.re, 0), (.win, 4095), (.db, 2047)],
      p.2 < p.1.words State.reset.params.log2Nmax ∧ p.2 < 2 ^ 15 ∧
      (turn (wrOff (p.1.base + 4 * p.2) 7) State.reset).turns =
        [.write (State.reset.params.coreBase + p.1.base + 4 * p.2) 4 0xF 7] := by decide +kernel

theorem witness_HostRamReadGivesTheWord :
    State.reset.busy = false ∧
    ∀ p ∈ [(Ram.re, 0), (.im, 4095), (.db, 2047)],
      p.2 < p.1.words State.reset.params.log2Nmax ∧ p.2 < 2 ^ 15 ∧
      (turn (rdOff (p.1.base + 4 * p.2)) State.reset).turns =
        [.read (State.reset.params.coreBase + p.1.base + 4 * p.2) 4 0xF] := by decide +kernel

/-- The first and the last byte of the four windows. -/
theorem witness_RamIsClosedWhileBusy :
    (latched 0x22).busy = true ∧
    ∀ off ∈ [0x20000, 0x9FFFF], 0x20000 ≤ off ∧ off < 0xA0000 ∧
      (turn (rdOff off) (latched 0x22)).turns = [.read ((latched 0x22).params.coreBase + off) 4 0xF] ∧
      (turn (wrOff off 1) (latched 0x22)).turns = [.write ((latched 0x22).params.coreBase + off) 4 0xF 1] := by decide

/-- Each cause of R381, and for each direction an access with none. -/
theorem witness_BusErrorsHaveExactlyTheListedCauses :
    (∀ off ∈ [0, 0xFFFFF], off < 0x100000 ∧
      (turn (rdOff off) State.reset).turns = [.read (State.reset.params.coreBase + off) 4 0xF] ∧
      (turn (wrOff off 1) State.reset).turns = [.write (State.reset.params.coreBase + off) 4 0xF 1]) ∧
    ReadFails State.reset 0 1 0xF ∧ ReadFails State.reset 0 4 0x7 ∧ ReadFails State.reset 2 4 0xF ∧
    ReadFails State.reset 0x18 4 0xF ∧ ReadFails State.reset 0x24000 4 0xF ∧ ReadFails (latched 0x22) 0x20000 4 0xF ∧
    ¬ ReadFails State.reset 0x14 4 0xF ∧ WriteFails State.reset 0x14 4 0xF ∧ WriteFails State.reset 0x200 4 0xF ∧
    WriteFails (latched 0x22) 0x008 4 0xF ∧ ¬ WriteFails State.reset 0x008 4 0xF ∧
    ¬ WriteFails (latched 0x22) 0x00C 4 0xF := by
  have unmapped : ∀ off, 0x18 ≤ off → off < 0x20000 → ¬ MappedRam 12 off := by
    rintro off - h ⟨r, i, he, -, -⟩
    cases r <;> simp only [Ram.base] at he <;> omega
  have end_re : ¬ Mapped 12 0x24000 := by
    rintro (h | h | ⟨r, i, he, hi, -⟩)
    · omega
    · exact absurd h.2 (by decide)
    · cases r <;> simp only [Ram.base, Ram.words] at he hi <;> omega
  have low : ∀ off, off < 0x18 → ¬ MappedRam 12 off := by
    rintro off h ⟨r, i, he, -, -⟩
    cases r <;> simp only [Ram.base] at he <;> omega
  have idle : State.reset.busy = false := rfl
  have nmax : State.reset.params.log2Nmax = 12 := rfl
  have nmax' : (latched 0x22).params.log2Nmax = 12 := rfl
  refine ⟨by decide, .inl (by decide), .inr (.inl (by decide)), .inr (.inr (.inl (by decide))), ?_, ?_, ?_, ?_, ?_, ?_,
    ?_, ?_, ?_⟩
  · refine .inr (.inr (.inr (.inl ?_)))
    rw [nmax]
    rintro (h | h | h)
    · omega
    · exact absurd h.1 (by decide)
    · exact unmapped _ (by decide) (by decide) h
  · exact .inr (.inr (.inr (.inl (by rw [nmax]; exact end_re))))
  · exact .inr (.inr (.inr (.inr ⟨⟨.re, 0, rfl, by decide, by decide⟩, rfl⟩)))
  · rintro (h | h | h | h | h)
    · exact h rfl
    · exact h rfl
    · exact absurd h (by decide)
    · exact h (.inl (by decide))
    · exact absurd h.2 (by decide)
  · exact .inr (.inr (.inr (.inl rfl)))
  · exact .inr (.inr (.inr (.inr (.inl ⟨by decide, by decide⟩))))
  · exact .inr (.inr (.inr (.inr (.inr ⟨rfl, rfl⟩))))
  · rintro ((h | h | h | h | h) | h | h | h | h | h)
    · exact h rfl
    · exact h rfl
    · exact absurd h (by decide)
    · exact h (.inl (by decide))
    · exact absurd h.2 (by decide)
    · exact absurd h (by decide)
    · exact absurd h (by decide)
    · exact absurd h (by decide)
    · exact absurd h.1 (by decide)
    · exact absurd h.2 (by decide)
  · rintro ((h | h | h | h | h) | h | h | h | h | h)
    · exact h rfl
    · exact h rfl
    · exact absurd h (by decide)
    · exact h (.inl (by decide))
    · rw [nmax'] at h
      exact low _ (by decide) h.1
    · exact absurd h (by decide)
    · exact absurd h (by decide)
    · exact absurd h (by decide)
    · exact absurd h.1 (by decide)
    · exact absurd h.1 (by decide)

theorem witness_IrqFollowsStatusAndEnable :
    ((latched 0).turns = [.execute] ∧ (latched 0).busy = true ∧ ∃ t, step (latched 0) = .next t) ∧
    (turn (wrOff 0x00C 6) State.reset).turns = [.write (State.reset.params.coreBase + 0x00C) 4 0xF 6] ∧
    ∃ t, step (turn (wrOff 0x00C 6) State.reset) = .next t :=
  ⟨⟨rfl, rfl, _, rfl⟩, rfl, _, rfl⟩

/-- A busy core, a completed one and one with an error. -/
theorem witness_StatusInvariantIsKept :
    ((latched 0x22).StatusOk ∧ ∃ t, step (latched 0x0B) = .next t) ∧
    { State.reset with done := true }.StatusOk ∧ { State.reset with err := true, errcode := 5 }.StatusOk :=
  ⟨⟨by decide, _, rfl⟩, by decide, by decide⟩

theorem witness_WinTagFieldsAreKept :
    State.reset.TagOk ∧ withRect.TagOk ∧ (∃ t, step State.reset = .next t) ∧ ∃ t, step withRect = .next t :=
  ⟨by decide, by decide +kernel, ⟨_, rfl⟩, _, rfl⟩

theorem witness_WindowInvariantIsKept :
    withRect.params.Legal ∧ withRect.WindowHeld ∧ withRect.winTag.valid = true ∧ ∃ t, step withRect = .next t :=
  ⟨by decide +kernel, windowHeld_withRect, rfl, _, rfl⟩

theorem witness_CanonicalMemoryIsKept :
    (fill .re [1, 2] State.reset).mem.wf ∧
    (∃ t, step (turn (wrOff 0x20004 9) (fill .re [1, 2] State.reset)) = .next t) ∧
    (turn .hardReset State.reset).DrawsFresh ∧ ∃ t, step (turn .hardReset State.reset) = .next t :=
  ⟨by decide +kernel, ⟨_, rfl⟩, by decide, _, rfl⟩

theorem witness_ParametersNeverChange : ∃ t, step (turn .hardReset (latched 0x22)) = .next t := ⟨_, rfl⟩

/-- A normal, a tie and an overflow. -/
theorem witness_RnIsNearestTiesToEven :
    (1 / 3 : ℚ) ≠ 0 ∧ ((2 ^ 24 + 1 : ℚ)) ≠ 0 ∧ (-(2 ^ 128) : ℚ) ≠ 0 := by norm_num

/-- NaN, opposite and equal infinities, a finite and an infinite operand, an exact zero sum, a rounded sum. -/
theorem witness_SumFollowsItsRule :
    isNaN 0x7FC00001 = true ∧ (isNaN 0xFF800000 = false ∧ isInf 0x7F800000 = true ∧ isInf 0xFF800000 = true) ∧
    (isFinite 0x3F800000 = true ∧ isInf 0x7F800000 = true) ∧
    (isFinite 0x80000000 = true ∧ val 0x80000000 + val 0x80000000 = 0) ∧
    (isFinite 0x3F800000 = true ∧ isFinite 0x33800000 = true ∧ val 0x3F800000 + val 0x33800000 ≠ 0) := by
  decide +kernel

/-- A pair of operands for each clause. -/
theorem witness_ProductAndQuotientFollowTheirRules :
    isNaN 0xFFFFFFFF = true ∧ (isInf 0x7F800000 = true ∧ isZero 0x80000000 = true) ∧ isInf 0xFF800000 = true ∧
    (isFinite 0x00000001 = true ∧ isZero 0x00000001 = false) ∧ isZero 0x00000000 = true ∧
    (val 0x00000000 * val 0x3F800000 = 0) ∧ (isFinite 0x7F7FFFFF = true ∧ val 0x7F7FFFFF * val 0x00000001 ≠ 0) ∧
    isZero 0x7F7FFFFF = false := by decide +kernel

theorem witness_SqrtFollowsItsRule :
    isNaN 0x7FA00000 = true ∧ isZero 0x80000000 = true ∧
    (isNaN 0xFF800000 = false ∧ isZero 0xFF800000 = false ∧ isNeg 0xFF800000 = true) ∧
    (isFinite 0x00000001 = true ∧ isNeg 0x00000001 = false ∧ isZero 0x00000001 = false) := by decide +kernel

/-- Operands on which each primitive returns a NaN. -/
theorem witness_NaNResultsAreCanonical :
    isNaN (fadd 0x7F800000 0xFF800000) = true ∧ isNaN (fsub 0x7F800000 0x7F800000) = true ∧
    isNaN (fmul 0 0x7F800000) = true ∧ isNaN (fdiv 0 0) = true ∧ isNaN (fsqrt 0xBF800000) = true ∧
    isNaN (COSF 0x7F800000) = true ∧ isNaN (ATANF 0x7FC00001) = true ∧ isNaN (LOG10F 0xBF800000) = true := by
  decide +kernel

theorem witness_IntegersConvertExactly :
    (16777217 : Int) ≠ 0 ∧ (-2 ^ 24 : Int) ≤ -2 ^ 24 ∧ (2 ^ 24 : Int) ≤ 2 ^ 24 := by decide

/-- The three enclosures settle at 3.0; each clause's operand conditions hold there. -/
theorem witness_TranscendentalsAreCorrectlyRounded :
    isFinite 0x40400000 = true ∧ isZero 0x40400000 = false ∧ isNeg 0x40400000 = false ∧
    (0x40400000 : Word) ≠ 0x3F800000 ∧
    (firstRounded (fun p => cosEnclosure p (magVal 0x40400000)) (precisions ++ [lastPrecision])).isSome = true ∧
    (firstRounded (fun p => atanEnclosure p (val 0x40400000)) (precisions ++ [lastPrecision])).isSome = true ∧
    (firstRounded (fun p => log10Enclosure p (val 0x40400000)) (precisions ++ [lastPrecision])).isSome = true := by
  decide +kernel

theorem witness_TranscendentalSpecialCases :
    isNaN 0x7F800001 = true ∧ isInf 0xFF800000 = true ∧ isInf 0x7F800000 = true ∧ isZero 0x80000000 = true ∧
    (isNeg 0xBF800000 = true ∧ isZero 0xBF800000 = false) := by decide +kernel

theorem witness_QuietComparisonOrdersValues :
    isNaN 0x7FC00000 = true ∧ isFinite 0x7F7FFFFF = true ∧ isFinite 0x80000001 = true ∧
    val 0x80000001 < val 0x7F7FFFFF := by decide +kernel

theorem witness_RomHoldsRoundedSteps : (1 : Nat) ≤ 1 ∧ (1 : Nat) ≤ 15 ∧ (15 : Nat) ≤ 15 := by decide

end Sys2Proof.Tests
end

namespace Sys2Proof.Machine

/-! ## LOG2_NMAX and CORE_BASE (spec/00_scope.md R9): what each turn leaves of them -/

/-- The body of a command keeps the parameters. -/
theorem EffectForm.params {s t : State} (h : EffectForm s t) : t.params = s.params := by
  obtain ⟨_, _, _, _, rfl⟩ := h
  rfl

/-- A command keeps the parameters, completed or rejected. -/
theorem exec_params {i : Instr} {s t : State} (h : exec i s = .next t) : t.params = s.params := by
  obtain ⟨e, he⟩ | ⟨u, hu, he⟩ := exec_cases i s
  · cases he.symm.trans h
    exact s.raiseCmdError_params e
  · cases he.symm.trans h
    exact hu.params

/-- The core's turn keeps the parameters. -/
theorem State.coreTurn_params {s t : State} (h : s.coreTurn = .next t) : t.params = s.params := by
  obtain ⟨_, hc⟩ | ⟨_, e, hc⟩ | ⟨_, i, _, hc⟩ := s.coreTurn_cases
  · cases hc.symm.trans h
    rfl
  · cases hc.symm.trans h
    exact s.raiseCmdError_params e
  · exact exec_params (hc.symm.trans h)

/-- A host read keeps the parameters. -/
@[simp] theorem State.hostRead_params (s : State) (addr size : Nat) (lanes : BitVec 4) :
    (s.hostRead addr size lanes).params = s.params := by
  obtain h | ⟨w, _, h⟩ | ⟨_, h⟩ := s.hostRead_cases addr size lanes <;> simp [h]

/-- A soft reset keeps the parameters, on an idle core and on a busy one. -/
@[simp] theorem State.softReset_params (s : State) : s.softReset.params = s.params := by
  obtain ⟨_, h⟩ | ⟨_, m, h, _⟩ := s.softReset_cases <;> simp [h]

/-- A CTRL write keeps the parameters. -/
@[simp] theorem State.writeCtrl_params (s : State) (w : Word) : (s.writeCtrl w).params = s.params := by
  obtain ⟨_, h⟩ | ⟨_, h⟩ := s.writeCtrl_cases w <;> simp [h]

/-- A RAM word stored by the host leaves the parameters, in each of the four RAMs. -/
@[simp] theorem State.hostRamWrite_params (s : State) (r : Ram) (i : Nat) (w : Word) :
    (s.hostRamWrite r i w).params = s.params := by
  cases r <;> rfl

/-- Every effect of a host write keeps the parameters. -/
theorem State.writeEffect_params {s t : State} {off size : Nat} {lanes : BitVec 4} {w : Word}
    (h : s.writeEffect off size lanes w = some t) : t.params = s.params := by
  obtain ⟨_, rfl⟩ | rfl | rfl | ⟨r, i, _, _, rfl⟩ := State.writeEffect_cases h <;> simp

/-- A host write keeps the parameters. -/
@[simp] theorem State.hostWrite_params (s : State) (addr size : Nat) (lanes : BitVec 4) (w : Word) :
    (s.hostWrite addr size lanes w).params = s.params := by
  obtain h | h | ⟨t, ht, h⟩ := s.hostWrite_cases addr size lanes w
  · rw [h]
  · rw [h, State.respond_params]
  · rw [h, State.respond_params, State.writeEffect_params ht]

/-- A step keeps the parameters, whichever turn it takes. -/
theorem step_params {s t : State} (h : step s = .next t) : t.params = s.params := by
  obtain ⟨_, hs⟩ | ⟨_, ts, _, ⟨_, hs⟩ | ⟨addr, size, lanes, _, hs⟩ | ⟨addr, size, lanes, w, _, hs⟩ | ⟨_, hs⟩⟩ :=
    step_cases s
  · exact State.coreTurn_params (hs.symm.trans h)
  · exact State.coreTurn_params (s := { s with turns := ts }) (hs.symm.trans h)
  · cases hs.symm.trans h
    exact State.hostRead_params _ addr size lanes
  · cases hs.symm.trans h
    exact State.hostWrite_params _ addr size lanes w
  · cases hs.symm.trans h
    exact State.hardReset_params _

/-- Settles O48: no turn of the host, the core or the platform changes the parameters (R9). -/
theorem parametersNeverChange : Obligations.ParametersNeverChange :=
  fun _ _ => step_params

end Sys2Proof.Machine

namespace Sys2Proof.Machine

/-! ## A command as its range check and its body (spec/46_control.md R370) -/

/-- The body of a command: what a legal one does to memory, WINTAG and the draws before it completes.  A reserved KIND
has no body. -/
def bodyOf : Instr → State → State
  | .nop, s => s
  | .bitrev n, s => s.onCplx (2 ^ n.toNat) (bitrevWalk n.toNat)
  | .cfftFwd n, s => s.onCplx (2 ^ n.toNat) (cfftCore n.toNat)
  | .cfftInv n, s => s.onCplx (2 ^ n.toNat) (cfftInverse n.toNat)
  | .rfftFwd n, s => s.realForward n.toNat
  | .rfftInv n, s => s.realInverse n.toNat
  | .polar c, s => s.toPolar c.toNat
  | .genwin kind n, s => ((WindowKind.ofField kind).map fun k => s.generateWindow k kind n).getD s
  | .winapply c, s => s.applyWindow c.toNat
  | .dbconv n, s => s.toDecibel n.toNat
  | .spectrum kind n, s => ((WindowKind.ofField kind).map fun k => s.spectrum k kind n).getD s

theorem bodyOf_genwin {kind : BitVec 3} {k : WindowKind} (hk : WindowKind.ofField kind = some k) (n : BitVec 4)
    (s : State) : bodyOf (.genwin kind n) s = s.generateWindow k kind n := by
  simp [bodyOf, hk]

theorem bodyOf_spectrum {kind : BitVec 3} {k : WindowKind} (hk : WindowKind.ofField kind = some k) (n : BitVec 4)
    (s : State) : bodyOf (.spectrum kind n) s = s.spectrum k kind n := by
  simp [bodyOf, hk]

/-- A sized command is its range check, then its body. -/
theorem State.runSized_eq (s : State) (nmin : Nat) (n : BitVec 4) (body : State → State) :
    s.runSized nmin n body =
      .next (((if legalLog2N s.params.log2Nmax nmin n then none else some CmdError.log2n).map
        s.raiseCmdError).getD (body s).complete) := by
  obtain ⟨hl, he⟩ | ⟨hl, he⟩ := s.runSized_cases nmin n body <;> simp [hl, he]

/-- A counted command is its range check, then its body. -/
theorem State.runCounted_eq (s : State) (c : BitVec 16) (body : State → State) :
    s.runCounted c body =
      .next (((if legalCount s.params.log2Nmax c then none else some CmdError.count).map
        s.raiseCmdError).getD (body s).complete) := by
  obtain ⟨hl, he⟩ | ⟨hl, he⟩ := s.runCounted_cases c body <;> simp [hl, he]

/-- A windowed command is its two range checks, then the body of the kind its field names. -/
theorem State.runWindowed_eq (s : State) (kind : BitVec 3) (n : BitVec 4) (body : WindowKind → State → State) :
    s.runWindowed kind n body =
      .next (((if !legalKind kind then some CmdError.kind
          else if legalLog2N s.params.log2Nmax 2 n then none else some .log2n).map s.raiseCmdError).getD
        (((WindowKind.ofField kind).map fun k => body k s).getD s).complete) := by
  obtain ⟨hk, he⟩ | ⟨hk, hl, he⟩ | ⟨hk, hl, k, hf, he⟩ := s.runWindowed_cases kind n body
  · simp [hk, he]
  · simp [hk, hl, he]
  · simp [hk, hl, hf, he]

/-- A command raises its range error, or does its body and completes (R370, R386). -/
theorem exec_eq (i : Instr) (s : State) :
    exec i s = .next (((i.rangeError s.params.log2Nmax).map s.raiseCmdError).getD (bodyOf i s).complete) := by
  cases i with
  | nop => rfl
  | bitrev n => exact s.runSized_eq 1 n (bodyOf (.bitrev n))
  | cfftFwd n => exact s.runSized_eq 1 n (bodyOf (.cfftFwd n))
  | cfftInv n => exact s.runSized_eq 1 n (bodyOf (.cfftInv n))
  | rfftFwd n => exact s.runSized_eq ..
  | rfftInv n => exact s.runSized_eq ..
  | polar c => exact s.runCounted_eq ..
  | genwin kind n => exact s.runWindowed_eq ..
  | winapply c => exact s.runCounted_eq ..
  | dbconv n => exact s.runSized_eq ..
  | spectrum kind n => exact s.runWindowed_eq ..

/-- What a command's next state is: the command error of an operand out of range, or the body's state completed. -/
theorem exec_next_cases {i : Instr} {s t : State} (h : exec i s = .next t) :
    (∃ e, i.rangeError s.params.log2Nmax = some e ∧ t = s.raiseCmdError e) ∨
    (i.rangeError s.params.log2Nmax = none ∧ t = (bodyOf i s).complete) := by
  rw [exec_eq] at h
  cases hr : i.rangeError s.params.log2Nmax with
  | some e => exact .inl ⟨e, rfl, by simpa [hr] using h.symm⟩
  | none => exact .inr ⟨rfl, by simpa [hr] using h.symm⟩

/-! ## What a command writes (spec/10_state.md R51, R387) -/

theorem SameBytesOutside.refl (bs : List (Ram × Nat)) (s : State) : SameBytesOutside bs s s := fun _ _ => rfl

theorem SameBytesOutside.trans {bs : List (Ram × Nat)} {s t u : State} (h : SameBytesOutside bs s t)
    (k : SameBytesOutside bs t u) : SameBytesOutside bs s u :=
  fun a ha => (k a ha).trans (h a ha)

/-- A change of registers changes no byte. -/
theorem SameBytesOutside.of_mem_eq {s t : State} (bs : List (Ram × Nat)) (hm : t.mem = s.mem)
    (hd : t.powerDraw = s.powerDraw) : SameBytesOutside bs s t :=
  fun a _ => State.byteAt_congr hm hd a

/-- Writing no more words of a RAM than one of the blocks has stays inside the blocks. -/
theorem SameBytesOutside.setRam {bs : List (Ram × Nat)} {r : Ram} {n k : Nat} (s : State) (w : Nat → Word)
    (hb : (r, k) ∈ bs) (hn : n ≤ k) : SameBytesOutside bs s (s.setRam r n w) := by
  intro a ha
  refine s.byteAt_setRam_other r w fun hin => ha _ hb ?_
  dsimp only
  omega

theorem SameBytesOutside.onCplx {bs : List (Ram × Nat)} {N : Nat} (s : State) (f : Cplx → Cplx)
    (hr : (.re, N) ∈ bs) (hi : (.im, N) ∈ bs) : SameBytesOutside bs s (s.onCplx N f) :=
  (SameBytesOutside.setRam s _ hr le_rfl).trans (SameBytesOutside.setRam _ _ hi le_rfl)

theorem SameBytesOutside.toPolar {bs : List (Ram × Nat)} {C k : Nat} (s : State) (hr : (.re, k) ∈ bs)
    (hi : (.im, k) ∈ bs) (hC : C ≤ k) : SameBytesOutside bs s (s.toPolar C) :=
  (SameBytesOutside.setRam s _ hr hC).trans (SameBytesOutside.setRam _ _ hi hC)

theorem SameBytesOutside.realInverse {bs : List (Ram × Nat)} {n : Nat} (s : State) (hr : (.re, 2 ^ n) ∈ bs)
    (hi : (.im, 2 ^ n) ∈ bs) : SameBytesOutside bs s (s.realInverse n) :=
  (SameBytesOutside.onCplx s _ hr hi).trans
    ((SameBytesOutside.setRam _ _ hi le_rfl).trans (SameBytesOutside.of_mem_eq _ rfl rfl))

theorem SameBytesOutside.generateWindow {bs : List (Ram × Nat)} {n : BitVec 4} (s : State) (k : WindowKind)
    (kind : BitVec 3) (hw : (.win, 2 ^ n.toNat) ∈ bs) : SameBytesOutside bs s (s.generateWindow k kind n) :=
  (SameBytesOutside.setRam s _ hw le_rfl).trans (SameBytesOutside.of_mem_eq _ rfl rfl)

/-- The write set of SPECTRUM covers its five steps; WIN is in it on a tag miss, when step 1 writes it (R342). -/
theorem SameBytesOutside.spectrum (s : State) (k : WindowKind) (kind : BitVec 3) (n : BitVec 4) :
    SameBytesOutside (writeSet (s.tagHit kind n) (.spectrum kind n)) s (s.spectrum k kind n) := by
  have half : 2 ^ n.toNat / 2 ≤ 2 ^ n.toNat := Nat.div_le_self _ _
  have window : SameBytesOutside (writeSet (s.tagHit kind n) (.spectrum kind n)) s (s.ensureWindow k kind n) := by
    unfold State.ensureWindow
    split
    · exact SameBytesOutside.refl _ s
    · rename_i hmiss
      exact SameBytesOutside.generateWindow s k kind (by simp [writeSet, hmiss])
  have re : (.re, 2 ^ n.toNat) ∈ writeSet (s.tagHit kind n) (.spectrum kind n) := by simp [writeSet]
  have im : (.im, 2 ^ n.toNat) ∈ writeSet (s.tagHit kind n) (.spectrum kind n) := by simp [writeSet]
  have db : (.db, 2 ^ n.toNat / 2) ∈ writeSet (s.tagHit kind n) (.spectrum kind n) := by simp [writeSet]
  exact (((window.trans (.setRam _ _ re le_rfl)).trans (.onCplx _ _ re im)).trans (.toPolar _ re im half)).trans
    (.setRam _ _ db le_rfl)

/-- The body of a command writes inside R51's write column only. -/
theorem bodyOf_sameBytesOutside (i : Instr) (s : State) :
    SameBytesOutside (writeSet (s.instrTagHit i) i) s (bodyOf i s) := by
  cases i with
  | nop => exact .refl _ s
  | bitrev n => exact .onCplx s _ (by simp [writeSet]) (by simp [writeSet])
  | cfftFwd n => exact .onCplx s _ (by simp [writeSet]) (by simp [writeSet])
  | cfftInv n => exact .onCplx s _ (by simp [writeSet]) (by simp [writeSet])
  | rfftFwd n => exact .onCplx s _ (by simp [writeSet]) (by simp [writeSet])
  | rfftInv n => exact .realInverse s (by simp [writeSet]) (by simp [writeSet])
  | polar c => exact .toPolar s (k := c.toNat) (by simp [writeSet]) (by simp [writeSet]) le_rfl
  | genwin kind n =>
    cases hk : WindowKind.ofField kind with
    | none => simpa [bodyOf, hk] using SameBytesOutside.refl _ s
    | some k => exact bodyOf_genwin hk n s ▸ .generateWindow s k kind (by simp [writeSet])
  | winapply c => exact .setRam s _ (k := c.toNat) (by simp [writeSet]) le_rfl
  | dbconv n => exact .setRam s _ (k := 2 ^ n.toNat / 2) (by simp [writeSet]) le_rfl
  | spectrum kind n =>
    cases hk : WindowKind.ofField kind with
    | none => simpa [bodyOf, hk] using SameBytesOutside.refl _ s
    | some k => exact bodyOf_spectrum hk n s ▸ .spectrum s k kind n

/-- The write set of a command with legal operands is R51's row. -/
theorem State.writeSetOf_legal {s : State} {i : Instr} (h : i.rangeError s.params.log2Nmax = none) :
    s.writeSetOf i = writeSet (s.instrTagHit i) i := by
  simp [State.writeSetOf, h]

/-- The write set of a rejected command is empty (R387). -/
theorem State.writeSetOf_rejected {s : State} {i : Instr} {e : CmdError}
    (h : i.rangeError s.params.log2Nmax = some e) : s.writeSetOf i = [] := by
  simp [State.writeSetOf, h]

/-- Settles O28: a rejected command changes registers only, and the body of a legal one writes inside R51's row. -/
theorem commandsWriteOnlyTheirWriteSet : Obligations.CommandsWriteOnlyTheirWriteSet := by
  intro i s t h
  obtain ⟨e, _, rfl⟩ | ⟨hr, rfl⟩ := exec_next_cases h
  · exact .of_mem_eq _ rfl rfl
  · rw [State.writeSetOf_legal hr]
    exact (bodyOf_sameBytesOutside i s).trans (.of_mem_eq _ rfl rfl)

end Sys2Proof.Machine

namespace Sys2Proof.Machine

/-! ## Words of two states after the same write (spec/10_state.md R51) -/

/-- A RAM word either is one of a run of words written or shares no byte with it: RAM words are aligned (R101). -/
theorem State.ram_setRam_or (q r : Ram) (i n : Nat) :
    (∃ j, j < n ∧ ∀ (s : State) (w : Nat → Word), (s.setRam r n w).ram q i = w j) ∨
    ∀ (s : State) (w : Nat → Word), (s.setRam r n w).ram q i = s.ram q i := by
  by_cases hin : r.base ≤ q.base + 4 * i ∧ q.base + 4 * i < r.base + 4 * n
  · obtain ⟨j, hj⟩ : ∃ j, q.base + 4 * i = r.base + 4 * j := by
      refine ⟨(q.base + 4 * i - r.base) / 4, ?_⟩
      cases q <;> cases r <;> simp only [Ram.base] at hin ⊢ <;> omega
    refine .inl ⟨j, by omega, fun s w => ?_⟩
    rw [State.ram, hj]
    exact s.ram_setRam_same r w (by omega)
  · refine .inr fun s w => State.wordAt_congr fun k hk => s.byteAt_setRam_other r w ?_
    cases q <;> cases r <;> simp only [Ram.base] at hin ⊢ <;> omega

theorem SameWordsIn.mono {bs cs : List (Ram × Nat)} {s t : State} (h : SameWordsIn bs s t)
    (hsub : ∀ b ∈ cs, b ∈ bs) : SameWordsIn cs s t :=
  fun b hb => h b (hsub b hb)

/-- A change of registers changes no word. -/
theorem SameWordsIn.of_mem_eq {bs : List (Ram × Nat)} {s t s' t' : State} (h : SameWordsIn bs s t)
    (hs : s'.mem = s.mem ∧ s'.powerDraw = s.powerDraw) (ht : t'.mem = t.mem ∧ t'.powerDraw = t.powerDraw) :
    SameWordsIn bs s' t' := by
  intro b hb i hi
  rw [State.ram_congr hs.1 hs.2, State.ram_congr ht.1 ht.2, h b hb i hi]

/-- The same words written in two states: the words that agreed still do, and those written now do too. -/
theorem SameWordsIn.setRam {bs : List (Ram × Nat)} {s t : State} (h : SameWordsIn bs s t) (r : Ram) {n : Nat}
    {w w' : Nat → Word} (hw : ∀ i, i < n → w' i = w i) :
    SameWordsIn ((r, n) :: bs) (s.setRam r n w) (t.setRam r n w') := by
  intro b hb i hi
  obtain ⟨j, hj, he⟩ | he := State.ram_setRam_or b.1 r i n
  · rw [he, he, hw j hj]
  · obtain rfl | hb := List.mem_cons.1 hb
    · rw [State.ram_setRam_same _ _ _ hi, State.ram_setRam_same _ _ _ hi, hw i hi]
    · rw [he, he, h b hb i hi]

theorem SameWordsIn.storeCplx {bs : List (Ram × Nat)} {s t : State} (h : SameWordsIn bs s t) (N : Nat) (b : Cplx) :
    SameWordsIn ((.im, N) :: (.re, N) :: bs) (s.storeCplx N b) (t.storeCplx N b) :=
  (h.setRam .re fun _ _ => rfl).setRam .im fun _ _ => rfl

/-- The first words of a RAM loaded from states that agree on them. -/
theorem SameWordsIn.loadRam {bs : List (Ram × Nat)} {s t : State} (h : SameWordsIn bs s t) {r : Ram} {n : Nat}
    (hb : (r, n) ∈ bs) : t.loadRam r n = s.loadRam r n :=
  List.map_congr_left fun i hi => h _ hb i (List.mem_range.1 hi)

theorem SameWordsIn.loadCplx {bs : List (Ram × Nat)} {s t : State} (h : SameWordsIn bs s t) {N : Nat}
    (hr : (.re, N) ∈ bs) (hi : (.im, N) ∈ bs) : t.loadCplx N = s.loadCplx N := by
  simp only [State.loadCplx, h.loadRam hr, h.loadRam hi]

/-- A buffer procedure run in two states that agree on the buffer. -/
theorem SameWordsIn.onCplx {bs : List (Ram × Nat)} {s t : State} (h : SameWordsIn bs s t) {N : Nat} {f : Cplx → Cplx}
    (hf : f (t.loadCplx N) = f (s.loadCplx N)) :
    SameWordsIn ((.im, N) :: (.re, N) :: bs) (s.onCplx N f) (t.onCplx N f) := by
  simp only [State.onCplx, hf]
  exact h.storeCplx N _

theorem SameWordsIn.toPolar {bs : List (Ram × Nat)} {s t : State} (h : SameWordsIn bs s t) {C k : Nat}
    (hr : (.re, k) ∈ bs) (hi : (.im, k) ∈ bs) (hC : C ≤ k) :
    SameWordsIn ((.im, C) :: (.re, C) :: bs) (s.toPolar C) (t.toPolar C) := by
  have re : ∀ i, i < C → t.ram .re i = s.ram .re i := fun i hlt => h _ hr i (by simp; omega)
  have im : ∀ i, i < C → t.ram .im i = s.ram .im i := fun i hlt => h _ hi i (by simp; omega)
  exact (h.setRam .re fun i hlt => by rw [re i hlt, im i hlt]).setRam .im fun i hlt => by rw [re i hlt, im i hlt]

theorem SameWordsIn.applyWindow {bs : List (Ram × Nat)} {s t : State} (h : SameWordsIn bs s t) {C : Nat}
    (hr : (.re, C) ∈ bs) (hw : (.win, C) ∈ bs) :
    SameWordsIn ((.re, C) :: bs) (s.applyWindow C) (t.applyWindow C) :=
  h.setRam .re fun i hi => by rw [h _ hr i hi, h _ hw i hi]

theorem SameWordsIn.toDecibel {bs : List (Ram × Nat)} {s t : State} (h : SameWordsIn bs s t) {n : Nat}
    (hr : (.re, 2 ^ n / 2) ∈ bs) : SameWordsIn ((.db, 2 ^ n / 2) :: bs) (s.toDecibel n) (t.toDecibel n) :=
  h.setRam .db fun i hi => by rw [h _ hr i hi]

theorem SameWordsIn.generateWindow {bs : List (Ram × Nat)} {s t : State} (h : SameWordsIn bs s t) (k : WindowKind)
    (kind : BitVec 3) (n : BitVec 4) :
    SameWordsIn ((.win, 2 ^ n.toNat) :: bs) (s.generateWindow k kind n) (t.generateWindow k kind n) :=
  (h.setRam .win fun _ _ => rfl).of_mem_eq ⟨rfl, rfl⟩ ⟨rfl, rfl⟩

/-! ## Two runs of a loop -/

/-- A relation between two runs of a loop: it holds before, each pass keeps it, so it holds after. -/
theorem forFrom_induct₂ {σ : Type} {f : Nat → σ → σ} {P : Nat → σ → σ → Prop} {a k : Nat} {x y : σ} (h0 : P a x y)
    (hs : ∀ i u v, a ≤ i → i < a + k → P i u v → P (i + 1) (f i u) (f i v)) :
    P (a + k) (forFrom f a k x) (forFrom f a k y) := by
  induction k with
  | zero => exact h0
  | succ k ih =>
    rw [forFrom_last, forFrom_last]
    exact hs (a + k) _ _ (by omega) (by omega) (ih fun i u v h1 h2 => hs i u v h1 (by omega))

/-! ## Buffers by their words -/

/-- Two lists of one length with the same words are equal. -/
theorem eq_of_rd_eq {x y : List Word} (hl : x.length = y.length) (h : ∀ i, i < x.length → rd x i = rd y i) : x = y := by
  refine List.ext_getElem hl fun i h1 h2 => ?_
  simpa [rd, List.getD_eq_getElem?_getD, h1, h2] using h i h1

/-- The first m words of both halves of two buffers agree. -/
def AgreeBelow (m : Nat) (b c : Cplx) : Prop := ∀ i, i < m → rd b.re i = rd c.re i ∧ rd b.im i = rd c.im i

/-- Two buffers of one length that agree on all their words are equal. -/
theorem AgreeBelow.eq {N : Nat} {b c : Cplx} (h : AgreeBelow N b c) (hb : b.re.length = N ∧ b.im.length = N)
    (hc : c.re.length = N ∧ c.im.length = N) : b = c := by
  obtain ⟨hbr, hbi⟩ := hb
  obtain ⟨hcr, hci⟩ := hc
  have re : b.re = c.re := eq_of_rd_eq (by omega) fun i hi => (h i (by omega)).1
  have im : b.im = c.im := eq_of_rd_eq (by omega) fun i hi => (h i (by omega)).2
  cases b
  cases c
  simp_all

/-! ## RFFT_INV reads the first N/2 + 1 bins (spec/42_real_fft.md R268) -/

theorem mirrorBins_length (N : Nat) (b : Cplx) : SameLength b (mirrorBins N b) :=
  SameLength.forFrom (fun _ _ => by simp [SameLength]) _ _ _

/-- Each mirrored bin is written from a bin at or below N/2, so the mirrored buffer depends on those alone. -/
theorem mirrorBins_congr {N : Nat} {b c : Cplx} (hN : 2 ≤ N) (he : N % 2 = 0)
    (hb : b.re.length = N ∧ b.im.length = N) (hc : c.re.length = N ∧ c.im.length = N)
    (h : AgreeBelow (N / 2 + 1) b c) : mirrorBins N b = mirrorBins N c := by
  obtain ⟨hbr, hbi⟩ := hb
  obtain ⟨hcr, hci⟩ := hc
  have key := forFrom_induct₂ (a := N / 2 + 1) (k := N / 2 - 1)
    (f := fun k b => Cplx.mk (b.re.set k (rd b.re (N - k))) (b.im.set k (fneg (rd b.im (N - k)))))
    (P := fun k u v => SameLength b u ∧ SameLength c v ∧ AgreeBelow k u v)
    ⟨SameLength.refl b, SameLength.refl c, h⟩ fun k u v h1 h2 ⟨⟨hur, hui⟩, ⟨hvr, hvi⟩, huv⟩ => by
      refine ⟨⟨by simpa using hur, by simpa using hui⟩, ⟨by simpa using hvr, by simpa using hvi⟩, fun j hj => ?_⟩
      obtain ⟨er, ei⟩ := huv (N - k) (by omega)
      simp only [rd_set j _ (show k < u.re.length by omega), rd_set j _ (show k < u.im.length by omega),
        rd_set j _ (show k < v.re.length by omega), rd_set j _ (show k < v.im.length by omega), er, ei]
      split
      · exact ⟨rfl, rfl⟩
      · exact huv j (by omega)
  obtain ⟨⟨hur, hui⟩, ⟨hvr, hvi⟩, huv⟩ := key
  refine AgreeBelow.eq (N := N) (fun i hi => huv i ?_) ⟨hur.trans hbr, hui.trans hbi⟩ ⟨hvr.trans hcr, hvi.trans hci⟩
  omega

end Sys2Proof.Machine

namespace Sys2Proof.Machine

/-! ## RFFT_CORE reads RE alone (spec/42_real_fft.md R266)

The buffer before the last stage is determined, word by word, by the transform of the packed pairs, and the pairs are
words of RE: no word of IM is left. -/

/-- The buffer of m pairs of samples: even samples in RE, odd ones in IM (R261). -/
def pairBuffer (m : Nat) (x : Nat → Word) : Cplx :=
  ⟨(List.range m).map fun i => x (2 * i), (List.range m).map fun i => x (2 * i + 1)⟩

theorem rd_map_range (f : Nat → Word) {m i : Nat} (h : i < m) : rd ((List.range m).map f) i = f i := by
  simp [rd, List.getD_eq_getElem?_getD, h]

theorem rd_take (x : List Word) {m i : Nat} (h : i < m) : rd (x.take m) i = rd x i := by
  simp [rd, List.getD_eq_getElem?_getD, h]

theorem rd_append_left {x : List Word} (y : List Word) {i : Nat} (h : i < x.length) : rd (x ++ y) i = rd x i := by
  simp [rd, List.getD_eq_getElem?_getD, List.getElem?_append_left h]

/-- After step 1 the lower half of the buffer is the buffer of the pairs of RE (R261). -/
theorem take_packPairs {m : Nat} {b : Cplx} (hr : b.re.length = 2 * m) (hi : b.im.length = 2 * m) :
    Cplx.mk ((packPairs m b).re.take m) ((packPairs m b).im.take m) = pairBuffer m (rd b.re) := by
  obtain ⟨lr, li⟩ := packPairs_length m b
  refine AgreeBelow.eq (N := m) (fun i h => ?_) ?_ (by simp [pairBuffer])
  · obtain ⟨er, ei⟩ := packPairs_spec (b := b) (by omega) (by omega) h
    simp only [pairBuffer, rd_take _ h, rd_map_range _ h, er, ei, and_self]
  · simp only [List.length_take]
    omega

/-- After step 2 the lower half of the buffer is the transform of the pairs of RE (R262). -/
theorem halfTransform_packPairs {n i : Nat} {b : Cplx} (hr : b.re.length = 2 * 2 ^ n) (hi : b.im.length = 2 * 2 ^ n)
    (h : i < 2 ^ n) :
    let z := cfftCore n (pairBuffer (2 ^ n) (rd b.re))
    rd (halfTransform n (packPairs (2 ^ n) b)).re i = rd z.re i ∧
      rd (halfTransform n (packPairs (2 ^ n) b)).im i = rd z.im i := by
  obtain ⟨lr, li⟩ := cfftCore_length n (pairBuffer (2 ^ n) (rd b.re))
  simp only [pairBuffer, List.length_map, List.length_range] at lr li
  simp only [halfTransform, take_packPairs hr hi]
  exact ⟨rd_append_left _ (by rw [pairBuffer, lr]; exact h), rd_append_left _ (by rw [pairBuffer, li]; exact h)⟩

/-- The parts of a size 2^n that is a multiple of 4: ND2, N4 and N34 (R260), and the size of step 2's transform. -/
theorem sizeParts {n : Nat} (hn : 2 ≤ n) :
    ∃ q, 1 ≤ q ∧ 2 ^ n = 4 * q ∧ 2 ^ n / 2 = 2 * q ∧ 2 ^ n / 4 = q ∧ 3 * 2 ^ n / 4 = 3 * q ∧ 2 ^ (n - 1) = 2 * q := by
  obtain ⟨m, rfl⟩ := Nat.exists_eq_add_of_le' hn
  have hN : 2 ^ (m + 2) = 4 * 2 ^ m := by ring
  have hH : 2 ^ (m + 2 - 1) = 2 * 2 ^ m := pow_succ' 2 m
  exact ⟨2 ^ m, Nat.one_le_two_pow, by omega, by omega, by omega, by omega, hH⟩

/-- RFFT_CORE is the last stage run on a buffer whose words are R263's and R264's values of the transform of the pairs
of RE (R266). -/
theorem rfftCore_eq_stage {n : Nat} {b : Cplx} (hn : 2 ≤ n) (hr : b.re.length = 2 ^ n) (hi : b.im.length = 2 ^ n) :
    let z := cfftCore (n - 1) (pairBuffer (2 ^ n / 2) (rd b.re))
    ∃ e, SameLength b e ∧ (∀ i, 1 ≤ i → i < 2 ^ n / 4 → SplitOf (2 ^ n / 2) i z e) ∧
      SpecialOf (2 ^ n / 2) (2 ^ n / 4) (3 * 2 ^ n / 4) z e ∧ rfftCore n b = stage n n e := by
  obtain ⟨q, hq, hN, h2, h4, h34, hH⟩ := sizeParts hn
  have low := fun i => halfTransform_packPairs (n := n - 1) (i := i) (b := b) (by omega) (by omega)
  simp only [rfftCore, h2, h4, h34]
  rw [hH] at low
  generalize cfftCore (n - 1) (pairBuffer (2 * q) (rd b.re)) = z at low ⊢
  have lh := (packPairs_length (2 * q) b).trans (halfTransform_length (n - 1) _)
  generalize halfTransform (n - 1) (packPairs (2 * q) b) = h at lh low ⊢
  obtain ⟨split, rest⟩ := splitBins_spec (nd2 := 2 * q) (n4 := q) (b := h) (by rw [lh.1]; omega)
    (by rw [lh.2]; omega) le_rfl
  have lc := lh.trans (splitBins_length (2 * q) q h)
  generalize splitBins (2 * q) q h = c at split rest lc ⊢
  obtain ⟨special, keep⟩ := specialBins_spec (n4 := q) (b := c) (by rw [lc.1]; omega) (by rw [lc.2]; omega) hq
  refine ⟨_, lc.trans (specialBins_length _ _ _ _), fun i h1 h2 => ?_, ?_, rfl⟩
  · have ki := keep i (by omega) (by omega) (by omega) (by omega)
    have km := keep (2 * q - i) (by omega) (by omega) (by omega) (by omega)
    have kp := keep (i + 2 * q) (by omega) (by omega) (by omega) (by omega)
    have kq := keep (2 * q - i + 2 * q) (by omega) (by omega) (by omega) (by omega)
    have s := split i h1 h2
    simpa only [SplitOf, ki, km, kp, kq, low i (by omega), low (2 * q - i) (by omega)] using s
  · have r0 := rest 0 (by omega) fun i h1 h2 => ⟨by omega, by omega⟩
    have r1 := rest q (by omega) fun i h1 h2 => ⟨by omega, by omega⟩
    simpa only [SpecialOf, r0, r1, low 0 (by omega), low q (by omega)] using special

/-- R263's and R264's values are every word of a buffer of size 4·n4, so two buffers that hold them are equal. -/
theorem eq_of_split_special {n4 : Nat} {z e f : Cplx}
    (he : e.re.length = 4 * n4 ∧ e.im.length = 4 * n4) (hf : f.re.length = 4 * n4 ∧ f.im.length = 4 * n4)
    (se : ∀ i, 1 ≤ i → i < n4 → SplitOf (2 * n4) i z e) (sf : ∀ i, 1 ≤ i → i < n4 → SplitOf (2 * n4) i z f)
    (pe : SpecialOf (2 * n4) n4 (3 * n4) z e) (pf : SpecialOf (2 * n4) n4 (3 * n4) z f) : e = f := by
  have bins : ∀ i, 1 ≤ i → i < n4 → ∀ j, j = i ∨ j = 2 * n4 - i ∨ j = i + 2 * n4 ∨ j = 2 * n4 - i + 2 * n4 →
      rd e.re j = rd f.re j ∧ rd e.im j = rd f.im j := by
    intro i h1 h2 j hj
    obtain ⟨a1, a2, a3, a4, a5, a6, a7, a8⟩ := se i h1 h2
    obtain ⟨b1, b2, b3, b4, b5, b6, b7, b8⟩ := sf i h1 h2
    obtain rfl | rfl | rfl | rfl := hj
    · exact ⟨a1.trans b1.symm, a3.trans b3.symm⟩
    · exact ⟨a2.trans b2.symm, a4.trans b4.symm⟩
    · exact ⟨a5.trans b5.symm, a7.trans b7.symm⟩
    · exact ⟨a6.trans b6.symm, a8.trans b8.symm⟩
  have specials : ∀ j, j = 0 ∨ j = n4 ∨ j = 2 * n4 ∨ j = 3 * n4 → rd e.re j = rd f.re j ∧ rd e.im j = rd f.im j := by
    intro j hj
    obtain ⟨a1, a2, a3, a4, a5, a6, a7, a8⟩ := pe
    obtain ⟨b1, b2, b3, b4, b5, b6, b7, b8⟩ := pf
    obtain rfl | rfl | rfl | rfl := hj
    · exact ⟨a1.trans b1.symm, a5.trans b5.symm⟩
    · exact ⟨a2.trans b2.symm, a6.trans b6.symm⟩
    · exact ⟨a3.trans b3.symm, a7.trans b7.symm⟩
    · exact ⟨a4.trans b4.symm, a8.trans b8.symm⟩
  refine AgreeBelow.eq (fun j hj => ?_) he hf
  by_cases hs : j = 0 ∨ j = n4 ∨ j = 2 * n4 ∨ j = 3 * n4
  · exact specials j hs
  · obtain hj' | hj' | hj' | hj' : j < n4 ∨ (n4 < j ∧ j < 2 * n4) ∨ (2 * n4 < j ∧ j < 3 * n4) ∨ 3 * n4 < j := by omega
    · exact bins j (by omega) (by omega) j (by omega)
    · exact bins (2 * n4 - j) (by omega) (by omega) j (by omega)
    · exact bins (j - 2 * n4) (by omega) (by omega) j (by omega)
    · exact bins (4 * n4 - j) (by omega) (by omega) j (by omega)

/-- RFFT_CORE of two buffers with the same RE, whatever IM holds (R266). -/
theorem rfftCore_congr {n : Nat} {b c : Cplx} (hn : 2 ≤ n) (hb : b.re.length = 2 ^ n ∧ b.im.length = 2 ^ n)
    (hc : c.re.length = 2 ^ n ∧ c.im.length = 2 ^ n) (h : b.re = c.re) : rfftCore n b = rfftCore n c := by
  obtain ⟨e, ⟨ler, lei⟩, se, pe, hbe⟩ := rfftCore_eq_stage hn hb.1 hb.2
  obtain ⟨f, ⟨lfr, lfi⟩, sf, pf, hcf⟩ := rfftCore_eq_stage hn hc.1 hc.2
  rw [h] at se pe
  obtain ⟨q, -, hN, h2, h4, h34, -⟩ := sizeParts hn
  rw [h4, h2] at se sf
  rw [h4, h2, h34] at pe pf
  have hef : e = f := eq_of_split_special (n4 := q) (by omega) (by omega) se sf pe pf
  rw [hbe, hcf, hef]

end Sys2Proof.Machine

namespace Sys2Proof.Machine

/-! ## What a command reads (spec/10_state.md R51) -/

theorem legalLog2N_iff {log2Nmax nmin : Nat} {n : BitVec 4} :
    legalLog2N log2Nmax nmin n = true ↔ nmin ≤ n.toNat ∧ n.toNat ≤ log2Nmax := by
  simp [legalLog2N]

theorem legalCount_iff {log2Nmax : Nat} {c : BitVec 16} :
    legalCount log2Nmax c = true ↔ 1 ≤ c.toNat ∧ c.toNat ≤ 2 ^ log2Nmax := by
  simp [legalCount]

/-- A command has no range error exactly when its operands are legal (R146). -/
theorem Instr.rangeError_eq_none_iff (log2Nmax : Nat) (i : Instr) :
    i.rangeError log2Nmax = none ↔ i.WellFormed log2Nmax = true := by
  cases i with
  | genwin kind n | spectrum kind n => cases hk : legalKind kind <;> simp [Instr.rangeError, Instr.WellFormed, hk]
  | _ => simp [Instr.rangeError, Instr.WellFormed]

/-- A legal KIND names a window (R144). -/
theorem WindowKind.exists_of_legalKind {kind : BitVec 3} (h : legalKind kind = true) :
    ∃ k, WindowKind.ofField kind = some k :=
  Option.isSome_iff_exists.1 ((WindowKind.ofField_isSome kind).trans h)

/-- RFFT_FWD's result depends on RE alone. -/
theorem SameWordsIn.realForward {bs : List (Ram × Nat)} {s t : State} (h : SameWordsIn bs s t) {n : Nat} (hn : 2 ≤ n)
    (hr : (.re, 2 ^ n) ∈ bs) :
    SameWordsIn ((.im, 2 ^ n) :: (.re, 2 ^ n) :: bs) (s.realForward n) (t.realForward n) :=
  h.onCplx (rfftCore_congr hn (by simp [State.loadCplx]) (by simp [State.loadCplx]) (h.loadRam hr))

/-- RFFT_INV's result depends on the bins 0 .. N/2 alone, and IM's free words on the draw alone. -/
theorem SameWordsIn.realInverse {bs : List (Ram × Nat)} {s t : State} (h : SameWordsIn bs s t) {n : Nat} (hn : 1 ≤ n)
    (hr : (.re, 2 ^ n / 2 + 1) ∈ bs) (hi : (.im, 2 ^ n / 2 + 1) ∈ bs) (hd : t.draws = s.draws) :
    SameWordsIn ((.im, 2 ^ n) :: (.re, 2 ^ n) :: bs) (s.realInverse n) (t.realInverse n) := by
  have even : 2 ^ n = 2 * 2 ^ (n - 1) := by rw [← pow_succ', Nat.sub_add_cancel hn]
  have pos : 1 ≤ 2 ^ (n - 1) := Nat.one_le_two_pow
  have agree : AgreeBelow (2 ^ n / 2 + 1) (t.loadCplx (2 ^ n)) (s.loadCplx (2 ^ n)) := by
    intro i hlt
    obtain ⟨tr, ti⟩ := t.rd_loadCplx (N := 2 ^ n) (i := i) (by omega)
    obtain ⟨sr, si⟩ := s.rd_loadCplx (N := 2 ^ n) (i := i) (by omega)
    rw [tr, ti, sr, si]
    exact ⟨h _ hr i hlt, h _ hi i hlt⟩
  have mirror : mirrorBins (2 ^ n) (t.loadCplx (2 ^ n)) = mirrorBins (2 ^ n) (s.loadCplx (2 ^ n)) :=
    mirrorBins_congr (by omega) (by omega) (by simp [State.loadCplx]) (by simp [State.loadCplx]) agree
  have result : rfftInverse n (t.loadCplx (2 ^ n)) = rfftInverse n (s.loadCplx (2 ^ n)) := by
    simp only [rfftInverse, mirror]
  have drawn := ((h.onCplx result).setRam .im (n := 2 ^ n) (w := fun i => freeWord s.draws (Ram.im.base + 4 * i))
    (w' := fun i => freeWord t.draws (Ram.im.base + 4 * i)) fun i _ => by rw [hd]).mono
    (cs := (.im, 2 ^ n) :: (.re, 2 ^ n) :: bs) (by simp)
  exact drawn.of_mem_eq ⟨rfl, rfl⟩ ⟨rfl, rfl⟩

/-- SPECTRUM's window is the same in both states: kept where the tag of both hits, generated where it misses. -/
theorem SameWordsIn.ensureWindow {s t : State} (k : WindowKind) (kind : BitVec 3) (n : BitVec 4)
    (h : SameWordsIn (readSet (s.tagHit kind n) (.spectrum kind n)) s t) (htag : t.winTag = s.winTag) :
    SameWordsIn [(.win, 2 ^ n.toNat), (.re, 2 ^ n.toNat)] (s.ensureWindow k kind n) (t.ensureWindow k kind n) := by
  have hit : t.tagHit kind n = s.tagHit kind n := by simp only [State.tagHit, htag]
  unfold State.ensureWindow
  rw [hit]
  split
  · rename_i hs
    exact h.mono (by simp [readSet, hs])
  · rename_i hs
    exact (h.generateWindow k kind n).mono (by simp [readSet])

theorem SameWordsIn.spectrum {s t : State} (k : WindowKind) (kind : BitVec 3) {n : BitVec 4} (hn : 2 ≤ n.toNat)
    (h : SameWordsIn (readSet (s.tagHit kind n) (.spectrum kind n)) s t) (htag : t.winTag = s.winTag) :
    SameWordsIn (writeSet (s.tagHit kind n) (.spectrum kind n)) (s.spectrum k kind n) (t.spectrum k kind n) := by
  have window := h.ensureWindow k kind n htag
  have windowed := window.applyWindow (C := 2 ^ n.toNat) (by simp) (by simp)
  have transformed := windowed.realForward hn (by simp)
  have polar := transformed.toPolar (C := 2 ^ n.toNat / 2) (k := 2 ^ n.toNat) (by simp) (by simp) (Nat.div_le_self _ _)
  refine (polar.toDecibel (n := n.toNat) (by simp)).mono fun b hb => ?_
  simp only [writeSet, List.mem_append, List.mem_cons, List.not_mem_nil, or_false] at hb ⊢
  split at hb <;> simp only [List.mem_cons, List.not_mem_nil] at hb <;> tauto

/-- The words a legal command leaves in its write set depend on its read set, WINTAG and the draw alone. -/
theorem bodyOf_sameWordsIn {i : Instr} {s t : State} (hl : i.WellFormed s.params.log2Nmax = true)
    (htag : t.winTag = s.winTag) (hd : t.draws = s.draws) (h : SameWordsIn (readSet (s.instrTagHit i) i) s t) :
    SameWordsIn (writeSet (s.instrTagHit i) i) (bodyOf i s) (bodyOf i t) := by
  have whole : ∀ (N : Nat) (f : Cplx → Cplx), SameWordsIn [(.re, N), (.im, N)] s t →
      SameWordsIn [(.re, N), (.im, N)] (s.onCplx N f) (t.onCplx N f) := fun N f h =>
    (h.onCplx (by rw [h.loadCplx (N := N) (by simp) (by simp)])).mono (by simp)
  cases i with
  | nop => exact h
  | bitrev n => exact whole _ _ h
  | cfftFwd n => exact whole _ _ h
  | cfftInv n => exact whole _ _ h
  | rfftFwd n =>
    obtain ⟨hn, -⟩ := legalLog2N_iff.1 hl
    exact (h.realForward hn (by simp [readSet])).mono (by simp [writeSet])
  | rfftInv n =>
    obtain ⟨hn, -⟩ := legalLog2N_iff.1 hl
    exact (h.realInverse (by omega) (by simp [readSet]) (by simp [readSet]) hd).mono (by simp [writeSet])
  | polar c =>
    exact (h.toPolar (k := c.toNat) (by simp [readSet]) (by simp [readSet]) le_rfl).mono (by simp [writeSet])
  | genwin kind n =>
    obtain ⟨hkind, -⟩ := Bool.and_eq_true_iff.1 hl
    obtain ⟨k, hk⟩ := WindowKind.exists_of_legalKind hkind
    rw [bodyOf_genwin hk, bodyOf_genwin hk]
    exact (h.generateWindow k kind n).mono (by simp [writeSet])
  | winapply c => exact (h.applyWindow (by simp [readSet]) (by simp [readSet])).mono (by simp [writeSet])
  | dbconv n => exact (h.toDecibel (by simp [readSet])).mono (by simp [writeSet])
  | spectrum kind n =>
    obtain ⟨hkind, hn⟩ := Bool.and_eq_true_iff.1 hl
    obtain ⟨k, hk⟩ := WindowKind.exists_of_legalKind hkind
    rw [bodyOf_spectrum hk, bodyOf_spectrum hk]
    exact h.spectrum k kind (legalLog2N_iff.1 hn).1 htag

/-- Settles O29: equal parameters reject or accept both runs, a rejected one has an empty write set, and the body of an
accepted one depends on its read set. -/
theorem commandsReadOnlyTheirReadSet : Obligations.CommandsReadOnlyTheirReadSet := by
  intro i s1 s2 t1 t2 hp htag hd h h1 h2
  obtain ⟨e, hr, -⟩ | ⟨hr, rfl⟩ := exec_next_cases h1
  · rw [State.writeSetOf_rejected hr]
    exact fun b hb => absurd hb List.not_mem_nil
  · obtain ⟨e, hr', -⟩ | ⟨-, rfl⟩ := exec_next_cases h2
    · rw [hp, hr] at hr'
      cases hr'
    · rw [State.writeSetOf_legal hr]
      exact (bodyOf_sameWordsIn ((Instr.rangeError_eq_none_iff _ i).1 hr) htag hd h).of_mem_eq ⟨rfl, rfl⟩ ⟨rfl, rfl⟩

end Sys2Proof.Machine

namespace Sys2Proof.Machine

/-! ## Invariants of the step

An invariant is checked against each effect a turn can have, and against the three things the body of a command is made
of; that a step keeps it follows once for all of them. -/

/-- A predicate every effect of a turn keeps (spec/20_memory.md R103, R104, spec/46_control.md R370, R420). -/
structure KeptByEffects (P : State → Prop) : Prop where
  turns : ∀ {s : State} (ts : List Turn), P s → P { s with turns := ts }
  respond : ∀ {s : State} (r : Response), P s → P (s.respond r)
  reject : ∀ {s : State} (e : CmdError), s.busy = true → P s → P (s.raiseCmdError e)
  command : ∀ {s : State} {i : Instr}, s.busy = true → i.WellFormed s.params.log2Nmax = true → P s →
    P (bodyOf i s).complete
  latch : ∀ {s : State} (w : Word), s.busy = false → P s → P (s.latchCommand w)
  acknowledge : ∀ {s : State} (w : Word), P s → P (s.acknowledge w)
  enable : ∀ {s : State} (ie : Bool), P s → P { s with ie := ie }
  softReset : ∀ {s : State}, P s → P s.softReset
  hardReset : ∀ {s : State}, P s → P s.hardReset
  ramWrite : ∀ {s : State} (r : Ram) (i : Nat) (w : Word), i < r.words s.params.log2Nmax → P s →
    P (s.hostRamWrite r i w)

/-- A RAM window names a word of its RAM that exists, or nothing (R110). -/
theorem ramTarget_cases (log2Nmax off : Nat) (r : Ram) :
    (∃ i, i < r.words log2Nmax ∧ ramTarget log2Nmax off r = .ram r i) ∨ ramTarget log2Nmax off r = .reserved := by
  unfold ramTarget
  split
  · exact .inl ⟨_, ‹_›, rfl⟩
  · exact .inr rfl

/-- A RAM word the address map names is one of a RAM window (R101). -/
theorem ramTarget_of_decodeOffset {log2Nmax off i : Nat} {r : Ram} (h : decodeOffset log2Nmax off = .ram r i) :
    ∃ q, ramTarget log2Nmax off q = .ram r i := by
  simp only [decodeOffset, apply_ite (· = Target.ram r i), reduceCtorEq, if_false_left] at h
  obtain ⟨-, -, -, -, -, -, -, h⟩ := h
  split_ifs at h <;> exact ⟨_, h⟩

/-- A RAM word the address map names exists (R101, R110). -/
theorem lt_words_of_decodeOffset {log2Nmax off i : Nat} {r : Ram} (h : decodeOffset log2Nmax off = .ram r i) :
    i < r.words log2Nmax := by
  obtain ⟨q, hq⟩ := ramTarget_of_decodeOffset h
  obtain ⟨j, hj, he⟩ | he := ramTarget_cases log2Nmax off q
  · cases he.symm.trans hq
    exact hj
  · cases he.symm.trans hq

section

variable {P : State → Prop} (hP : KeptByEffects P)
include hP

theorem KeptByEffects.hostRead {s : State} (addr size : Nat) (lanes : BitVec 4) (h : P s) :
    P (s.hostRead addr size lanes) := by
  obtain he | ⟨w, -, he⟩ | ⟨-, he⟩ := s.hostRead_cases addr size lanes <;> rw [he]
  · exact h
  · exact hP.respond _ h
  · exact hP.respond _ h

theorem KeptByEffects.writeCtrl {s : State} (w : Word) (h : P s) : P (s.writeCtrl w) := by
  obtain ⟨-, he⟩ | ⟨-, he⟩ := s.writeCtrl_cases w <;> rw [he]
  · exact hP.softReset h
  · exact hP.enable _ h

theorem KeptByEffects.hostWrite {s : State} (addr size : Nat) (lanes : BitVec 4) (w : Word) (h : P s) :
    P (s.hostWrite addr size lanes w) := by
  obtain he | he | ⟨t, ht, he⟩ := s.hostWrite_cases addr size lanes w <;> rw [he]
  · exact h
  · exact hP.respond _ h
  · refine hP.respond _ ?_
    obtain ⟨hb, rfl⟩ | rfl | rfl | ⟨r, i, -, hd, rfl⟩ := State.writeEffect_cases ht
    · exact hP.latch w hb h
    · exact hP.acknowledge w h
    · exact hP.writeCtrl w h
    · exact hP.ramWrite r i w (lt_words_of_decodeOffset hd) h

theorem KeptByEffects.coreTurn {s t : State} (ht : s.coreTurn = .next t) (h : P s) : P t := by
  obtain ⟨-, hc⟩ | ⟨hb, e, hc⟩ | ⟨hb, i, -, hc⟩ := s.coreTurn_cases
  · cases hc.symm.trans ht
    exact h
  · cases hc.symm.trans ht
    exact hP.reject e hb h
  · obtain ⟨e, -, rfl⟩ | ⟨hr, rfl⟩ := exec_next_cases (hc.symm.trans ht)
    · exact hP.reject e hb h
    · exact hP.command hb ((Instr.rangeError_eq_none_iff _ i).1 hr) h

/-- A step keeps what every effect keeps. -/
theorem KeptByEffects.step {s t : State} (ht : step s = .next t) (h : P s) : P t := by
  obtain ⟨-, hs⟩ | ⟨_, ts, -, ⟨-, hs⟩ | ⟨addr, size, lanes, -, hs⟩ | ⟨addr, size, lanes, w, -, hs⟩ | ⟨-, hs⟩⟩ :=
    step_cases s
  · exact hP.coreTurn (hs.symm.trans ht) h
  · exact hP.coreTurn (hs.symm.trans ht) (hP.turns ts h)
  · cases hs.symm.trans ht
    exact hP.hostRead _ _ _ (hP.turns ts h)
  · cases hs.symm.trans ht
    exact hP.hostWrite _ _ _ _ (hP.turns ts h)
  · cases hs.symm.trans ht
    exact hP.hardReset (hP.turns ts h)

end

/-- What the body of a legal command keeps: it writes no more than NMAX words of RE, IM or DB at a time, generates
legal windows, and draws. -/
theorem bodyOf_keeps {P : State → Prop} {i : Instr} {s : State} (hl : i.WellFormed s.params.log2Nmax = true)
    (hset : ∀ (u : State) (r : Ram) (n : Nat) (w : Nat → Word), r ≠ .win → n ≤ 2 ^ s.params.log2Nmax → P u →
      P (u.setRam r n w))
    (hgen : ∀ (u : State) (k : WindowKind) (kind : BitVec 3) (n : BitVec 4), WindowKind.ofField kind = some k →
      legalLog2N s.params.log2Nmax 2 n = true → P u → P (u.generateWindow k kind n))
    (hdraw : ∀ u : State, P u → P u.nextDraw) (h : P s) : P (bodyOf i s) := by
  have size : ∀ {nmin : Nat} {n : BitVec 4}, legalLog2N s.params.log2Nmax nmin n = true →
      2 ^ n.toNat ≤ 2 ^ s.params.log2Nmax := fun hn => Nat.pow_le_pow_right (by decide) (legalLog2N_iff.1 hn).2
  have half : ∀ N : Nat, N / 2 ≤ N := fun N => Nat.div_le_self N 2
  have cplx : ∀ (u : State) (N : Nat) (f : Cplx → Cplx), N ≤ 2 ^ s.params.log2Nmax → P u → P (u.onCplx N f) :=
    fun u N f hN hu => hset _ .im _ _ (by decide) hN (hset u .re _ _ (by decide) hN hu)
  have polar : ∀ (u : State) (C : Nat), C ≤ 2 ^ s.params.log2Nmax → P u → P (u.toPolar C) :=
    fun u C hC hu => hset _ .im _ _ (by decide) hC (hset u .re _ _ (by decide) hC hu)
  cases i with
  | nop => exact h
  | bitrev n => exact cplx _ _ _ (size hl) h
  | cfftFwd n => exact cplx _ _ _ (size hl) h
  | cfftInv n => exact cplx _ _ _ (size hl) h
  | rfftFwd n => exact cplx _ _ _ (size hl) h
  | rfftInv n => exact hdraw _ (hset _ .im _ _ (by decide) (size hl) (cplx _ _ _ (size hl) h))
  | polar c => exact polar _ _ (legalCount_iff.1 hl).2 h
  | genwin kind n =>
    obtain ⟨hkind, hn⟩ := Bool.and_eq_true_iff.1 hl
    obtain ⟨k, hk⟩ := WindowKind.exists_of_legalKind hkind
    rw [bodyOf_genwin hk]
    exact hgen s k kind n hk hn h
  | winapply c => exact hset _ .re _ _ (by decide) (legalCount_iff.1 hl).2 h
  | dbconv n => exact hset _ .db _ _ (by decide) ((half _).trans (size hl)) h
  | spectrum kind n =>
    obtain ⟨hkind, hn⟩ := Bool.and_eq_true_iff.1 hl
    obtain ⟨k, hk⟩ := WindowKind.exists_of_legalKind hkind
    have window : P (s.ensureWindow k kind n) := by
      unfold State.ensureWindow
      split
      · exact h
      · exact hgen s k kind n hk hn h
    have windowed : P ((s.ensureWindow k kind n).applyWindow (2 ^ n.toNat)) :=
      hset _ .re _ _ (by decide) (size hn) window
    rw [bodyOf_spectrum hk]
    exact hset _ .db _ _ (by decide) ((half _).trans (size hn))
      (polar _ _ ((half _).trans (size hn)) (cplx _ _ _ (size hn) windowed))

/-! ## STATUS (spec/10_state.md R64) -/

/-- The codes of R383 are 1 .. 5. -/
theorem CmdError.code_range (e : CmdError) : 1 ≤ e.code.toNat ∧ e.code.toNat ≤ 5 := by
  cases e <;> decide

/-- The body of a command touches no bit of STATUS. -/
theorem bodyOf_status {i : Instr} {s : State} (hl : i.WellFormed s.params.log2Nmax = true) :
    (bodyOf i s).busy = s.busy ∧ (bodyOf i s).done = s.done ∧ (bodyOf i s).err = s.err ∧
      (bodyOf i s).errcode = s.errcode :=
  bodyOf_keeps (P := fun u => u.busy = s.busy ∧ u.done = s.done ∧ u.err = s.err ∧ u.errcode = s.errcode) hl
    (fun _ _ _ _ _ _ h => h) (fun _ _ _ _ _ _ h => h) (fun _ h => h) ⟨rfl, rfl, rfl, rfl⟩

/-- After a reset STATUS is 0, whatever the memory. -/
theorem State.resetRegisters_statusOk (s : State) (m : Memory) (d : Nat) :
    State.StatusOk { s.resetRegisters with mem := m, draws := d } :=
  ⟨by simp, by simp, by simp, by simp⟩

theorem statusOk_keptByEffects : KeptByEffects State.StatusOk where
  turns _ h := h
  respond _ h := h
  reject := by
    rintro s e hb ⟨_, hbusy, _, _⟩
    exact ⟨by simp [hbusy hb], by simp, by simp, fun _ => CmdError.code_range e⟩
  command := by
    rintro s i hb hl ⟨_, hbusy, hcode, _⟩
    obtain ⟨-, -, he, hc⟩ := bodyOf_status hl
    obtain ⟨-, herr⟩ := hbusy hb
    refine ⟨?_, ?_, ?_, ?_⟩ <;> simp [he, hc, herr, hcode herr]
  latch := by
    rintro s w - -
    refine ⟨?_, ?_, ?_, ?_⟩ <;> simp
  acknowledge := by
    rintro s w ⟨hone, hbusy, hcode, hrange⟩
    have hdone : (s.acknowledge w).done = true → s.done = true := by simp
    have hidle : s.done = false → (s.acknowledge w).done = false := fun h => by simp [h]
    by_cases h2 : w.getLsbD 2 = true
    · have herr : (s.acknowledge w).err = false := if_pos h2
      have hec : (s.acknowledge w).errcode = 0 := if_pos h2
      rw [State.StatusOk, herr, hec]
      exact ⟨by simp, fun hb => ⟨hidle (hbusy hb).1, rfl⟩, fun _ => rfl, nofun⟩
    · have herr : (s.acknowledge w).err = s.err := if_neg h2
      have hec : (s.acknowledge w).errcode = s.errcode := if_neg h2
      rw [State.StatusOk, herr, hec]
      exact ⟨fun h => hone ⟨hdone h.1, h.2⟩, fun hb => ⟨hidle (hbusy hb).1, (hbusy hb).2⟩, hcode, hrange⟩
  enable _ h := h
  softReset {s} _ := by
    obtain ⟨-, he⟩ | ⟨-, m, he, -⟩ := s.softReset_cases <;> rw [he]
    · exact s.resetRegisters_statusOk _ _
    · exact s.resetRegisters_statusOk _ _
  hardReset {s} _ := by
    refine ⟨?_, ?_, ?_, ?_⟩ <;> simp
  ramWrite r _ _ _ h := by cases r <;> exact h

/-- Settles O44. -/
theorem statusInvariantIsKept : Obligations.StatusInvariantIsKept :=
  fun _ _ h ht => statusOk_keptByEffects.step ht h

end Sys2Proof.Machine

namespace Sys2Proof.Machine

/-! ## WINTAG (spec/10_state.md R66) -/

/-- WINTAG = 0 names no window, so its fields are legal. -/
theorem State.tagOk_of_zero {s : State} (h : s.winTag = WinTag.zero) : s.TagOk := by
  simp [State.TagOk, h, WinTag.zero]

/-- Every reset clears WINTAG (R421). -/
theorem State.softReset_winTag (s : State) : s.softReset.winTag = WinTag.zero := by
  obtain ⟨-, he⟩ | ⟨-, m, he, -⟩ := s.softReset_cases <;> rw [he]
  · rfl
  · rfl

/-- A word stored by the host clears WINTAG in WIN, and leaves it in the other RAMs (R110). -/
theorem State.hostRamWrite_winTag (s : State) (r : Ram) (i : Nat) (w : Word) :
    (s.hostRamWrite r i w).winTag = if r = .win then WinTag.zero else s.winTag := by
  cases r <;> rfl

/-- Outside WIN a word stored by the host is all that changes. -/
theorem State.hostRamWrite_of_ne_win (s : State) {r : Ram} (hr : r ≠ .win) (i : Nat) (w : Word) :
    s.hostRamWrite r i w = s.setRamWord r i w := by
  cases r with
  | win => exact absurd rfl hr
  | _ => rfl

theorem tagOk_keptByEffects : KeptByEffects State.TagOk where
  turns _ h := h
  respond _ h := h
  reject _ _ h := h
  command {s i} _ hl h := by
    refine (bodyOf_keeps (P := fun u => u.params = s.params ∧ u.TagOk) hl (fun _ _ _ _ _ _ hu => hu) ?_
      (fun _ hu => hu) ⟨rfl, h⟩).2
    rintro u k kind n hk hn ⟨hp, -⟩
    have hkind : legalKind kind = true := by rw [← WindowKind.ofField_isSome, hk, Option.isSome_some]
    exact ⟨hp, by simp [State.generateWindow], fun _ => ⟨hkind, hp ▸ hn⟩⟩
  latch _ _ h := h
  acknowledge _ h := h
  enable _ h := h
  softReset {s} _ := State.tagOk_of_zero s.softReset_winTag
  hardReset {s} _ := State.tagOk_of_zero s.hardReset_winTag
  ramWrite {s} r i w _ h := by
    by_cases hr : r = .win
    · exact State.tagOk_of_zero (by simp [State.hostRamWrite_winTag, hr])
    · simpa [State.TagOk, State.hostRamWrite_winTag, hr] using h

/-- Settles O45. -/
theorem winTagFieldsAreKept : Obligations.WinTagFieldsAreKept :=
  fun _ _ h ht => tagOk_keptByEffects.step ht h

/-! ## The window WINTAG names (spec/10_state.md R70) -/

/-- LOG2N is a 4-bit field: the largest size it names fills a RAM window (R101). -/
theorem two_pow_log2n_le (n : BitVec 4) : 2 ^ n.toNat ≤ 2 ^ 15 :=
  Nat.pow_le_pow_right (by decide) (by omega)

/-- The window stays held while WINTAG and the words of WIN stay. -/
theorem State.WindowHeld.congr {s t : State} (h : s.WindowHeld) (htag : t.winTag = s.winTag)
    (hwin : ∀ i, i < 2 ^ 15 → t.ram .win i = s.ram .win i) : t.WindowHeld := by
  unfold State.WindowHeld
  rw [htag]
  intro hv k hk i hi
  rw [hwin i (hi.trans_le (two_pow_log2n_le _)), h hv k hk i hi]

/-- A change of other registers keeps the window held. -/
theorem State.WindowHeld.of_mem_eq {s t : State} (h : s.WindowHeld) (htag : t.winTag = s.winTag) (hm : t.mem = s.mem)
    (hd : t.powerDraw = s.powerDraw) : t.WindowHeld :=
  h.congr htag fun _ _ => State.ram_congr hm hd _ _

/-- While WINTAG = 0 nothing is claimed of WIN. -/
theorem State.windowHeld_of_zero {s : State} (h : s.winTag = WinTag.zero) : s.WindowHeld := by
  simp [State.WindowHeld, h, WinTag.zero]

/-- GENWIN leaves the window it generates held (R312). -/
theorem State.windowHeld_generateWindow {kind : BitVec 3} {k : WindowKind} (hk : WindowKind.ofField kind = some k)
    (n : BitVec 4) (s : State) : (s.generateWindow k kind n).WindowHeld := by
  intro _ k' hk' i hi
  obtain rfl : k = k' := Option.some.inj (hk.symm.trans hk')
  exact s.ram_setRam_same .win (window k (2 ^ n.toNat)) hi

/-- The host's store of one word leaves every word of another RAM alone. -/
theorem State.ram_setRamWord_other (s : State) {r q : Ram} {i j : Nat} (v : Word) (hq : q ≠ r) (hi : i < 2 ^ 15)
    (hj : j < 2 ^ 15) : (s.setRamWord r i v).ram q j = s.ram q j := by
  refine State.wordAt_congr fun k hk => s.byteAt_setRamWord_other r i v ?_
  have := Ram.base_apart hq
  omega

/-- On a core with legal parameters no RAM has more than 2^15 words (R9, R50). -/
theorem Ram.words_le {p : Params} (h : p.Legal) (r : Ram) : r.words p.log2Nmax ≤ 2 ^ 15 := by
  have hN : 2 ^ p.log2Nmax ≤ 2 ^ 15 := Nat.pow_le_pow_right (by decide) h.2.1
  cases r <;> simp only [Ram.words] <;> omega

theorem windowHeld_keptByEffects : KeptByEffects fun s => s.params.Legal ∧ s.WindowHeld where
  turns _ h := ⟨h.1, h.2.of_mem_eq rfl rfl rfl⟩
  respond _ h := ⟨h.1, h.2.of_mem_eq rfl rfl rfl⟩
  reject _ _ h := ⟨h.1, h.2.of_mem_eq rfl rfl rfl⟩
  command {s i} _ hl h := by
    obtain ⟨hp, hw⟩ := bodyOf_keeps (P := fun u => u.params.Legal ∧ u.WindowHeld) hl
      (fun u r n w hr hn hu => ⟨hu.1, hu.2.congr rfl fun i hi =>
        u.ram_setRam_other w hr.symm (hn.trans (Ram.words_le h.1 .re)) hi⟩)
      (fun u k kind n hk _ hu => ⟨hu.1, u.windowHeld_generateWindow hk n⟩)
      (fun u hu => ⟨hu.1, hu.2.of_mem_eq rfl rfl rfl⟩) h
    exact ⟨hp, hw.of_mem_eq rfl rfl rfl⟩
  latch _ _ h := ⟨h.1, h.2.of_mem_eq rfl rfl rfl⟩
  acknowledge _ h := ⟨h.1, h.2.of_mem_eq rfl rfl rfl⟩
  enable _ h := ⟨h.1, h.2.of_mem_eq rfl rfl rfl⟩
  softReset {s} h := ⟨by rw [s.softReset_params]; exact h.1, State.windowHeld_of_zero s.softReset_winTag⟩
  hardReset {s} h := ⟨h.1, State.windowHeld_of_zero s.hardReset_winTag⟩
  ramWrite {s} r i w hi h := by
    refine ⟨by rw [s.hostRamWrite_params]; exact h.1, ?_⟩
    by_cases hr : r = .win
    · exact State.windowHeld_of_zero (by simp [State.hostRamWrite_winTag, hr])
    · rw [s.hostRamWrite_of_ne_win hr]
      exact h.2.congr rfl fun j hj =>
        s.ram_setRamWord_other w (Ne.symm hr) (hi.trans_le (Ram.words_le h.1 r)) hj

/-- Settles O46. -/
theorem windowInvariantIsKept : Obligations.WindowInvariantIsKept :=
  fun _ _ hp h ht => (windowHeld_keptByEffects.step ht ⟨hp, h⟩).2

/-! ## The memory's canonical form and the draws (log entry 3) -/

theorem memWf_keptByEffects : KeptByEffects fun s => s.mem.wf where
  turns _ h := h
  respond _ h := h
  reject _ _ h := h
  command _ hl h := bodyOf_keeps (P := fun u => u.mem.wf) hl (fun _ _ _ _ _ _ hu => Memory.wf_writeWords hu _ _ _)
    (fun _ _ _ _ _ _ hu => Memory.wf_writeWords hu _ _ _) (fun _ hu => hu) h
  latch _ _ h := h
  acknowledge _ h := h
  enable _ h := h
  softReset {s} h := by
    obtain ⟨-, he⟩ | ⟨-, m, he, hm⟩ := s.softReset_cases <;> rw [he]
    · exact h
    · exact hm h
  hardReset _ := List.Pairwise.nil
  ramWrite r _ _ _ h := by cases r <;> exact Memory.wf_writeWord h _ _

theorem drawsFresh_keptByEffects : KeptByEffects State.DrawsFresh where
  turns _ h := h
  respond _ h := h
  reject _ _ h := h
  command _ hl h := bodyOf_keeps (P := State.DrawsFresh) hl (fun _ _ _ _ _ _ hu => hu) (fun _ _ _ _ _ _ hu => hu)
    (fun _ hu => Nat.lt_succ_of_lt hu) h
  latch _ _ h := h
  acknowledge _ h := h
  enable _ h := h
  softReset {s} h := by
    obtain ⟨-, he⟩ | ⟨-, m, he, -⟩ := s.softReset_cases <;> rw [he]
    · exact h
    · exact Nat.lt_succ_of_lt h
  hardReset {s} _ := Nat.lt_succ_self s.draws
  ramWrite r _ _ _ h := by cases r <;> exact h

/-- Settles O47. -/
theorem canonicalMemoryIsKept : Obligations.CanonicalMemoryIsKept :=
  ⟨fun _ _ h ht => memWf_keptByEffects.step ht h, fun _ _ h ht => drawsFresh_keptByEffects.step ht h⟩

/-! ## Reset (spec/10_state.md R69, spec/70_reset_and_hazards.md R421) -/

/-- Settles O49: after reset every register is 0 and no byte is listed. -/
theorem invariantsHoldAtReset : Obligations.InvariantsHoldAtReset :=
  ⟨by decide, State.tagOk_of_zero rfl, State.windowHeld_of_zero rfl, List.Pairwise.nil, by decide, by decide⟩

/-- Settles O50: the register words compute, and no byte is listed, so each is the free value of its address. -/
theorem resetRegisterValues : Obligations.ResetRegisterValues :=
  ⟨rfl, by decide, rfl, by decide, by decide, by decide, rfl, fun _ => rfl⟩

end Sys2Proof.Machine

namespace Sys2Proof.Machine

/-! ## The registers at their offsets (spec/10_state.md R60, spec/20_memory.md R101) -/

@[simp] theorem decodeOffset_id (log2Nmax : Nat) : decodeOffset log2Nmax 0x000 = .id := rfl
@[simp] theorem decodeOffset_config (log2Nmax : Nat) : decodeOffset log2Nmax 0x004 = .config := rfl
@[simp] theorem decodeOffset_cmd (log2Nmax : Nat) : decodeOffset log2Nmax 0x008 = .cmd := rfl
@[simp] theorem decodeOffset_status (log2Nmax : Nat) : decodeOffset log2Nmax 0x00C = .status := rfl
@[simp] theorem decodeOffset_ctrl (log2Nmax : Nat) : decodeOffset log2Nmax 0x010 = .ctrl := rfl
@[simp] theorem decodeOffset_winTag (log2Nmax : Nat) : decodeOffset log2Nmax 0x014 = .winTag := rfl

/-- A whole word at an aligned offset is a well-formed access (R106, R107). -/
@[simp] theorem wellFormedAccess_word {off : Nat} (h : off % 4 = 0) : wellFormedAccess off 4 0xF#4 = true := by
  simp [wellFormedAccess, h]

/-- The step whose turn is a read that has data, at an offset of the core's window. -/
theorem step_read_okay {s : State} {ts : List Turn} {off size : Nat} {lanes : BitVec 4} {w : Word} (ho : off < 0x100000)
    (ht : s.turns = .read (s.params.coreBase + off) size lanes :: ts)
    (hd : State.readData { s with turns := ts } off size lanes = some w) :
    step s = .next { s with turns := ts, responses := s.responses ++ [.read w true] } := by
  rw [step_turn ht]
  exact congrArg Host.Outcome.next (State.hostRead_okay (s := { s with turns := ts }) ho hd)

/-- The step whose turn is a write that has an effect, at an offset of the core's window. -/
theorem step_write_okay {s u : State} {ts : List Turn} {off size : Nat} {lanes : BitVec 4} {w : Word}
    (ho : off < 0x100000) (ht : s.turns = .write (s.params.coreBase + off) size lanes w :: ts)
    (he : State.writeEffect { s with turns := ts } off size lanes w = some u) :
    step s = .next (u.respond (.write true)) := by
  rw [step_turn ht]
  exact congrArg Host.Outcome.next (State.hostWrite_okay (s := { s with turns := ts }) ho he)

/-- The step whose turn is a write that has no effect, at an offset of the core's window. -/
theorem step_write_error {s : State} {ts : List Turn} {off size : Nat} {lanes : BitVec 4} {w : Word}
    (ho : off < 0x100000) (ht : s.turns = .write (s.params.coreBase + off) size lanes w :: ts)
    (he : State.writeEffect { s with turns := ts } off size lanes w = none) :
    step s = .next { s with turns := ts, responses := s.responses ++ [.write false] } := by
  rw [step_turn ht]
  exact congrArg Host.Outcome.next (State.hostWrite_error (s := { s with turns := ts }) ho he)

/-- A STATUS write acknowledges, busy or idle (R64). -/
theorem State.writeEffect_status (s : State) (w : Word) :
    s.writeEffect 0x00C 4 0xF#4 w = some (s.acknowledge w) := by
  simp [State.writeEffect]

/-- A CTRL write has its effect, busy or idle (R65). -/
theorem State.writeEffect_ctrl (s : State) (w : Word) : s.writeEffect 0x010 4 0xF#4 w = some (s.writeCtrl w) := by
  simp [State.writeEffect]

/-- A CMD write is accepted by an idle core alone (R63). -/
theorem State.writeEffect_cmd (s : State) (w : Word) :
    s.writeEffect 0x008 4 0xF#4 w = if s.busy then none else some (s.latchCommand w) := by
  simp [State.writeEffect]

/-! ## Register words as numbers (spec/10_state.md R62 to R66) -/

/-- Concatenation as a sum of place values. -/
theorem toNat_append_eq_add {m n : Nat} (x : BitVec m) (y : BitVec n) :
    (x ++ y).toNat = x.toNat * 2 ^ n + y.toNat := by
  rw [BitVec.toNat_append, ← Nat.shiftLeft_add_eq_or_of_lt y.isLt, Nat.shiftLeft_eq]

theorem configWord_eq (p : Params) : configWord p = BitVec.ofNat 32 (0x100 + p.log2Nmax % 16) := by
  apply BitVec.eq_of_toNat_eq
  simp only [configWord, toNat_append_eq_add, BitVec.toNat_ofNat]
  omega

theorem State.statusWord_eq (s : State) : s.statusWord =
    BitVec.ofNat 32 (s.errcode.toNat * 16 + s.err.toNat * 4 + s.done.toNat * 2 + s.busy.toNat) := by
  apply BitVec.eq_of_toNat_eq
  have he := s.err.toNat_lt
  have hd := s.done.toNat_lt
  have hb := s.busy.toNat_lt
  simp only [State.statusWord, toNat_append_eq_add, BitVec.toNat_ofNat, BitVec.toNat_ofBool]
  omega

theorem State.ctrlWord_eq (s : State) : s.ctrlWord = BitVec.ofNat 32 s.ie.toNat := by
  apply BitVec.eq_of_toNat_eq
  have hi := s.ie.toNat_lt
  simp only [State.ctrlWord, toNat_append_eq_add, BitVec.toNat_ofNat, BitVec.toNat_ofBool]
  omega

theorem State.winTagWord_eq (s : State) : s.winTagWord =
    BitVec.ofNat 32 (s.winTag.log2n.toNat * 256 + s.winTag.kind.toNat * 16 + s.winTag.valid.toNat) := by
  apply BitVec.eq_of_toNat_eq
  have hv := s.winTag.valid.toNat_lt
  simp only [State.winTagWord, toNat_append_eq_add, BitVec.toNat_ofNat, BitVec.toNat_ofBool]
  omega

/-- Settles O32: each register is readable at its offset, busy or idle, and its word is the sum of its fields' place
values. -/
theorem registersReadAsTheirFields : Obligations.RegistersReadAsTheirFields := by
  refine fun s ts => ⟨fun h => ?_, fun h => ?_, fun h => ?_, fun h => ?_, fun h => ?_, fun h => ?_⟩ <;>
    refine step_read_okay (by decide) h ?_
  · simp [State.readData, idWord]
  · simp [State.readData, configWord_eq]
  · simp [State.readData]
  · simp [State.readData, State.statusWord_eq]
  · simp [State.readData, State.ctrlWord_eq]
  · simp [State.readData, State.winTagWord_eq]

/-- Settles O34. -/
theorem cmdWriteIsAcceptedOnlyWhenIdle : Obligations.CmdWriteIsAcceptedOnlyWhenIdle := by
  refine ⟨fun s ts w h => ⟨fun hb => ?_, fun hb => ?_⟩, fun s ts h => ?_, rfl, rfl⟩
  · exact step_write_okay (by decide) h ((State.writeEffect_cmd _ w).trans (if_neg (by simp [hb])))
  · exact step_write_error (by decide) h ((State.writeEffect_cmd _ w).trans (if_pos hb))
  · exact step_read_okay (by decide) h (by simp [State.readData])

/-- Settles O35. -/
theorem statusWriteClearsWhatItNames : Obligations.StatusWriteClearsWhatItNames := by
  intro s ts w h
  rw [step_write_okay (by decide) h (State.writeEffect_status _ w)]
  simp only [State.acknowledge, State.respond]
  cases w.getLsbD 1 <;> cases w.getLsbD 2 <;> simp

/-- After a soft reset the registers read 0 and irq is 0 (R421, R422). -/
theorem State.softReset_registers (s : State) :
    s.softReset.ie = false ∧ s.softReset.cmd = 0 ∧ s.softReset.statusWord = 0 ∧ s.softReset.ctrlWord = 0 ∧
      s.softReset.winTagWord = 0 ∧ s.softReset.irq = false := by
  obtain ⟨-, he⟩ | ⟨-, m, he, -⟩ := s.softReset_cases <;>
    simp [he, State.statusWord_eq, State.ctrlWord_eq, State.winTagWord_eq, State.irq, WinTag.zero]

/-- A soft reset answers nothing by itself. -/
theorem State.softReset_responses (s : State) : s.softReset.responses = s.responses := by
  obtain ⟨-, he⟩ | ⟨-, m, he, -⟩ := s.softReset_cases <;> rw [he] <;> rfl

/-- Settles O36. -/
theorem ctrlWriteSetsIeOrResets : Obligations.CtrlWriteSetsIeOrResets := by
  refine ⟨fun s ts w h => ⟨_, step_write_okay (by decide) h (State.writeEffect_ctrl _ w), ?_⟩, fun s ts h => ?_⟩
  · obtain ⟨hw, he⟩ | ⟨hw, he⟩ := State.writeCtrl_cases { s with turns := ts } w <;> rw [he, hw]
    · exact ⟨by simp [State.softReset_responses], nofun, fun _ => State.softReset_registers _⟩
    · exact ⟨rfl, fun _ => rfl, nofun⟩
  · refine step_read_okay (by decide) h ?_
    cases s.ie <;> simp [State.readData, State.ctrlWord_eq]

/-! ## irq (spec/10_state.md R68) -/

theorem State.irq_iff (s : State) : s.irq = true ↔ s.ie = true ∧ (s.done = true ∨ s.err = true) := by
  simp [State.irq]

/-- A command, completed or rejected, leaves irq equal to IE (R386, R389). -/
theorem exec_irq {i : Instr} {s t : State} (h : exec i s = .next t) : t.irq = s.ie := by
  obtain ⟨e, he⟩ | ⟨u, ⟨m, tag, d, -, rfl⟩, he⟩ := exec_cases i s
  · cases he.symm.trans h
    simp [State.irq]
  · cases he.symm.trans h
    simp [State.irq]

/-- EXECUTE on a busy core leaves irq equal to IE. -/
theorem State.coreTurn_irq {s t : State} (hb : s.busy = true) (h : s.coreTurn = .next t) : t.irq = s.ie := by
  obtain ⟨hidle, -⟩ | ⟨-, e, hc⟩ | ⟨-, i, -, hc⟩ := s.coreTurn_cases
  · simp [hb] at hidle
  · cases hc.symm.trans h
    simp [State.irq]
  · exact exec_irq (hc.symm.trans h)

/-- Settles O43. -/
theorem irqFollowsStatusAndEnable : Obligations.IrqFollowsStatusAndEnable := by
  refine ⟨State.irq_iff, fun s t ts hturn hb h => ?_, fun s t ts hturn h => ?_⟩
  · rw [step_turn hturn] at h
    exact State.coreTurn_irq (s := { s with turns := ts }) hb h
  · rw [step_write_okay (by decide) hturn (State.writeEffect_status _ 6)] at h
    cases h
    simp [State.irq]

/-! ## CMD while busy (spec/10_state.md R44, R63) -/

/-- No word of a RAM window is CTRL. -/
theorem ramTarget_ne_ctrl (log2Nmax off : Nat) (r : Ram) : ramTarget log2Nmax off r ≠ .ctrl := by
  obtain ⟨i, -, he⟩ | he := ramTarget_cases log2Nmax off r <;> rw [he] <;> nofun

/-- CTRL is at offset 0x010 alone (R60). -/
theorem eq_of_decodeOffset_ctrl {log2Nmax off : Nat} (h : decodeOffset log2Nmax off = .ctrl) : off = 0x010 := by
  simp only [decodeOffset, apply_ite (· = Target.ctrl), reduceCtorEq, ramTarget_ne_ctrl] at h
  by_contra hne
  simp [hne] at h

/-- Only a word whose bit 31 is set, written to CTRL, changes the CMD word of a busy core. -/
theorem State.writeEffect_cmd_of_busy {s t : State} {off size : Nat} {lanes : BitVec 4} {w : Word}
    (hb : s.busy = true) (h : s.writeEffect off size lanes w = some t) :
    t.cmd = s.cmd ∨ (off = 0x010 ∧ size = 4 ∧ lanes = 0xF ∧ w.getLsbD 31 = true) := by
  unfold State.writeEffect at h
  split at h
  next hacc =>
    simp only [wellFormedAccess, Bool.and_eq_true, decide_eq_true_eq, beq_iff_eq] at hacc
    obtain ⟨⟨hsize, -⟩, hlanes⟩ := hacc
    cases hd : decodeOffset s.params.log2Nmax off with
    | status =>
      simp only [hd, Option.some.injEq] at h
      exact .inl (h ▸ rfl)
    | ctrl =>
      simp only [hd, Option.some.injEq] at h
      obtain ⟨hw, he⟩ | ⟨-, he⟩ := s.writeCtrl_cases w
      · exact .inr ⟨eq_of_decodeOffset_ctrl hd, hsize, hlanes, hw⟩
      · exact .inl (by rw [← h, he])
    | _ => simp [hd] at h
  next => cases h

/-- A host write to a busy core changes CMD only as a CTRL write with SRST = 1. -/
theorem State.hostWrite_cmd_of_busy {s : State} (addr size : Nat) (lanes : BitVec 4) (w : Word) (hb : s.busy = true) :
    (s.hostWrite addr size lanes w).cmd = s.cmd ∨
      (addr = s.params.coreBase + 0x010 ∧ size = 4 ∧ lanes = 0xF ∧ w.getLsbD 31 = true) := by
  obtain he | he | ⟨u, hu, he⟩ := s.hostWrite_cases addr size lanes w <;> rw [he]
  · exact .inl rfl
  · exact .inl rfl
  · exact (State.writeEffect_cmd_of_busy hb hu).imp_right fun ⟨ha, h⟩ => ⟨by omega, h⟩

/-- The core's turn leaves CMD. -/
theorem State.coreTurn_cmd {s t : State} (h : s.coreTurn = .next t) : t.cmd = s.cmd := by
  obtain ⟨-, hc⟩ | ⟨-, e, hc⟩ | ⟨-, i, -, hc⟩ := s.coreTurn_cases
  · cases hc.symm.trans h
    rfl
  · cases hc.symm.trans h
    rfl
  · obtain ⟨e, he⟩ | ⟨u, ⟨m, tag, d, -, rfl⟩, he⟩ := exec_cases i s
    · cases he.symm.trans (hc.symm.trans h)
      rfl
    · cases he.symm.trans (hc.symm.trans h)
      rfl

/-- A step of a busy core whose turn is no reset leaves CMD. -/
theorem step_cmd_of_busy {s t : State} (hb : s.busy = true) (h : step s = .next t) (hr : ¬ s.ResetsNext) :
    t.cmd = s.cmd := by
  obtain ⟨-, hs⟩ | ⟨_, ts, hts, ⟨-, hs⟩ | ⟨addr, size, lanes, -, hs⟩ | ⟨addr, size, lanes, w, rfl, hs⟩ | ⟨rfl, hs⟩⟩ :=
    step_cases s
  · exact State.coreTurn_cmd (hs.symm.trans h)
  · exact State.coreTurn_cmd (s := { s with turns := ts }) (hs.symm.trans h)
  · cases hs.symm.trans h
    obtain he | ⟨w, -, he⟩ | ⟨-, he⟩ := State.hostRead_cases { s with turns := ts } addr size lanes <;> rw [he] <;> rfl
  · cases hs.symm.trans h
    obtain he | ⟨rfl, rfl, rfl, hw⟩ :=
      State.hostWrite_cmd_of_busy (s := { s with turns := ts }) addr size lanes w hb
    · exact he
    · exact absurd (.inr ⟨ts, w, hts, hw⟩) hr
  · exact absurd (.inl ⟨ts, hts⟩) hr

/-- A step whose turn is a reset leaves CMD, BUSY and WINTAG 0. -/
theorem step_of_resetsNext {s t : State} (h : step s = .next t) (hr : s.ResetsNext) :
    t.cmd = 0 ∧ t.busy = false ∧ t.winTag = WinTag.zero := by
  obtain ⟨ts, hts⟩ | ⟨ts, w, hts, hw⟩ := hr
  · rw [step_turn hts] at h
    cases h
    exact ⟨rfl, rfl, rfl⟩
  · rw [step_write_okay (by decide) hts (State.writeEffect_ctrl _ w)] at h
    cases h
    simp only [State.writeCtrl, hw, if_true, State.respond_cmd, State.respond_busy, State.respond_winTag]
    obtain ⟨-, he⟩ | ⟨-, m, he, -⟩ := State.softReset_cases { s with turns := ts } <;> rw [he] <;> exact ⟨rfl, rfl, rfl⟩

/-- Settles O10. -/
theorem commandHeldWhileBusy : Obligations.CommandHeldWhileBusy :=
  fun _ _ hb h => ⟨step_cmd_of_busy hb h, step_of_resetsNext h⟩

end Sys2Proof.Machine

namespace Sys2Proof.Machine

/-! ## binary32 values by their magnitude patterns (spec/40_numerics.md R180)

The 31 bits below the sign are a number, and the magnitude grows strictly with it, so the neighbours of a value are the
values of the two patterns beside its own. -/

/-- The magnitude a 31-bit pattern stands for, in units of 2^−149. -/
def magUnits (m : Nat) : Nat :=
  if m / 2 ^ 23 = 0 then m % 2 ^ 23 else (2 ^ 23 + m % 2 ^ 23) * 2 ^ (m / 2 ^ 23 - 1)

/-- The magnitude pattern of a word: its bits [30:0]. -/
def magPattern (a : Word) : Nat := a.toNat % 2 ^ 31

theorem expField_eq (a : Word) : expField a = magPattern a / 2 ^ 23 := by
  simp only [expField, magPattern, BitVec.extractLsb'_toNat, Nat.shiftRight_eq_div_pow]
  omega

theorem fracField_eq (a : Word) : fracField a = magPattern a % 2 ^ 23 := by
  simp only [fracField, magPattern, BitVec.extractLsb'_toNat, Nat.shiftRight_zero]
  omega

theorem magVal_eq (a : Word) : magVal a = (magUnits (magPattern a) : ℚ) / 2 ^ 149 := by
  simp only [magVal, magUnits, expField_eq, fracField_eq]
  split <;> push_cast <;> rfl

theorem magUnits_strictMono : StrictMono magUnits := by
  refine strictMono_nat_of_lt_succ fun m => ?_
  obtain ⟨hd, hm⟩ | ⟨hd, hm, h0⟩ : ((m + 1) / 2 ^ 23 = m / 2 ^ 23 ∧ (m + 1) % 2 ^ 23 = m % 2 ^ 23 + 1) ∨
      ((m + 1) / 2 ^ 23 = m / 2 ^ 23 + 1 ∧ (m + 1) % 2 ^ 23 = 0 ∧ m % 2 ^ 23 = 2 ^ 23 - 1) := by omega
  · simp only [magUnits, hd, hm]
    split
    · omega
    · exact Nat.mul_lt_mul_of_pos_right (by omega) (by positivity)
  · simp only [magUnits, hd, hm, h0, Nat.add_eq_zero_iff, one_ne_zero, and_false, if_false, Nat.add_sub_cancel]
    split
    · rename_i hz
      rw [hz]
      norm_num
    · rename_i hz
      obtain ⟨e, he⟩ := Nat.exists_eq_succ_of_ne_zero hz
      have hp : 0 < 2 ^ e := by positivity
      simp only [he, Nat.succ_eq_add_one, Nat.add_sub_cancel, pow_succ 2 e]
      omega

/-- The value of a word without its sign bit. -/
theorem val_of_not_isNeg {a : Word} (h : isNeg a = false) : (val a : ℝ) = magUnits (magPattern a) / 2 ^ 149 := by
  rw [val, h, if_neg Bool.false_ne_true, magVal_eq]
  push_cast
  rfl

/-- The values on either side of a positive word's: no word's value lies strictly between. -/
theorem val_le_or_le {w v : Word} (hs : isNeg w = false) (hm : 0 < magPattern w) (hv : val v ≠ val w) :
    (val v : ℝ) ≤ magUnits (magPattern w - 1) / 2 ^ 149 ∨ (magUnits (magPattern w + 1) : ℝ) / 2 ^ 149 ≤ val v := by
  cases hn : isNeg v with
  | true =>
    refine .inl ?_
    have hle : (val v : ℝ) ≤ 0 := by
      rw [val, hn, if_pos rfl, magVal_eq]
      push_cast
      exact neg_nonpos.2 (by positivity)
    exact hle.trans (by positivity)
  | false =>
    have hne : magPattern v ≠ magPattern w := fun he => hv (by simp only [val, hn, hs, magVal_eq, he])
    rw [val_of_not_isNeg hn]
    obtain h | h : magPattern v ≤ magPattern w - 1 ∨ magPattern w + 1 ≤ magPattern v := by omega
    · exact .inl (by gcongr; exact magUnits_strictMono.monotone h)
    · exact .inr (by gcongr; exact magUnits_strictMono.monotone h)

/-! ## Showing that a word is a real number rounded (spec/40_numerics.md R181) -/

/-- The overflow threshold is far above 1. -/
theorem lt_overflow {x : ℝ} (h : |x| ≤ 1) : |x| < 2 ^ 128 - 2 ^ 103 := h.trans_lt (by norm_num)

/-- A number that is a word's value rounds to the word. -/
theorem isRN_of_eq {x : ℝ} {w : Word} (hx : |x| ≤ 1) (hf : isFinite w = true) (hs : isNeg w = true ↔ x < 0)
    (h : x = val w) : IsRN x w := by
  refine ⟨hs, fun hbig => absurd (lt_overflow hx) hbig.not_gt, fun _ => ⟨hf, fun v _ => ?_, fun v _ hv htie => ?_⟩⟩
  · simp [h]
  · rw [h, sub_self, abs_zero, abs_eq_zero, sub_eq_zero] at htie
    exact absurd (Rat.cast_injective htie).symm hv

/-- The rounding boundary below pattern m, doubled: the sum of its value and its lower neighbour's, in units of
2^−149. -/
def boundaryBelow (m : Nat) : Nat := magUnits (m - 1) + magUnits m

/-- The rounding boundary above pattern m, doubled: the sum of its value and its upper neighbour's, in units of
2^−149. -/
def boundaryAbove (m : Nat) : Nat := magUnits m + magUnits (m + 1)

/-- y = 2x for an x strictly between the rounding boundaries of pattern m. -/
def BetweenBoundaries (y : ℝ) (m : Nat) : Prop :=
  (boundaryBelow m : ℝ) < y * 2 ^ 149 ∧ y * 2 ^ 149 < (boundaryAbove m : ℝ)

/-- A positive finite word. -/
abbrev PositiveFinite (w : Word) : Prop := isFinite w = true ∧ isNeg w = false ∧ 0 < magPattern w

/-- A number between the rounding boundaries of a positive word rounds to it: every other value is farther away. -/
theorem isRN_of_betweenBoundaries {x : ℝ} {w : Word} (hx : |x| ≤ 1) (hw : PositiveFinite w)
    (h : BetweenBoundaries (2 * x) (magPattern w)) : IsRN x w := by
  obtain ⟨hf, hs, hm⟩ := hw
  obtain ⟨hlo, hhi⟩ := h
  have hval := val_of_not_isNeg hs
  have below : (magUnits (magPattern w - 1) : ℝ) / 2 ^ 149 < val w := by
    rw [hval]
    gcongr
    exact magUnits_strictMono (by omega)
  have above : (val w : ℝ) < magUnits (magPattern w + 1) / 2 ^ 149 := by
    rw [hval]
    gcongr
    exact magUnits_strictMono (by omega)
  simp only [boundaryBelow, boundaryAbove, Nat.cast_add] at hlo hhi
  have lower : (magUnits (magPattern w - 1) : ℝ) / 2 ^ 149 + val w < 2 * x := by
    rw [hval, ← add_div, div_lt_iff₀ (by positivity)]
    exact hlo
  have upper : 2 * x < val w + (magUnits (magPattern w + 1) : ℝ) / 2 ^ 149 := by
    rw [hval, ← add_div, lt_div_iff₀ (by positivity)]
    exact hhi
  have hpos : 0 < x := by
    have : (0 : ℝ) ≤ (magUnits (magPattern w - 1) : ℝ) / 2 ^ 149 := by positivity
    linarith
  have closer : ∀ v, val v ≠ val w → |x - val w| < |x - val v| := by
    intro v hv
    obtain h | h := val_le_or_le hs hm hv
    · have hd : |x - val w| < x - val v := abs_sub_lt_iff.2 ⟨by linarith, by linarith⟩
      exact hd.trans_le (le_abs_self _)
    · have hd : |x - val w| < val v - x := abs_sub_lt_iff.2 ⟨by linarith, by linarith⟩
      exact hd.trans_le (by rw [abs_sub_comm]; exact le_abs_self _)
  refine ⟨by simp [hs, hpos.le], fun hbig => absurd (lt_overflow hx) hbig.not_gt, fun _ => ⟨hf, fun v _ => ?_,
    fun v _ hv htie => absurd htie (closer v hv).ne'⟩⟩
  by_cases hv : val v = val w
  · rw [hv]
  · exact (closer v hv).le

theorem fneg_fneg (a : Word) : fneg (fneg a) = a := by
  simp [fneg]

theorem isNeg_fneg (a : Word) : isNeg (fneg a) = !isNeg a := by
  simp [isNeg, fneg]

theorem expField_fneg (a : Word) : expField (fneg a) = expField a := by
  simp [expField, fneg, BitVec.extractLsb'_xor]

theorem fracField_fneg (a : Word) : fracField (fneg a) = fracField a := by
  simp [fracField, fneg, BitVec.extractLsb'_xor]

theorem isFinite_fneg (a : Word) : isFinite (fneg a) = isFinite a := by
  simp only [isFinite, expField_fneg]

theorem val_fneg (a : Word) : val (fneg a) = -val a := by
  have hm : magVal (fneg a) = magVal a := by simp only [magVal, expField_fneg, fracField_fneg]
  cases h : isNeg a <;> simp [val, isNeg_fneg, hm, h]

/-- Rounding commutes with negation: ties go to even on both sides of zero (R181). -/
theorem isRN_fneg {x : ℝ} {w : Word} (h : IsRN x w) (hx : 0 < x) : IsRN (-x) (fneg w) := by
  obtain ⟨hs, hbig, hsmall⟩ := h
  have dist : ∀ v, |-x - val v| = |x - val (fneg v)| := by
    intro v
    rw [val_fneg, ← abs_neg]
    push_cast
    ring_nf
  have hpos : isNeg w = false := Bool.eq_false_iff.2 fun hn => hx.not_gt (hs.1 hn)
  refine ⟨by simp [isNeg_fneg, hpos, hx], fun hb => ?_, fun hb => ?_⟩
  · simpa only [isInf, expField_fneg, fracField_fneg] using hbig (by rwa [abs_neg] at hb)
  · obtain ⟨hf, hnear, htie⟩ := hsmall (by rwa [abs_neg] at hb)
    refine ⟨by rw [isFinite_fneg, hf], fun v hv => ?_, fun v hv hne he => ?_⟩
    · rw [dist, dist, fneg_fneg]
      exact hnear _ (by rw [isFinite_fneg, hv])
    · rw [dist, dist, fneg_fneg] at he
      have hne' : val (fneg v) ≠ val w := fun hc => hne (by rw [val_fneg, ← hc, val_fneg, neg_neg])
      have hbit := htie (fneg v) (by rw [isFinite_fneg, hv]) hne' he
      simpa [fneg] using hbit

end Sys2Proof.Machine

namespace Sys2Proof.Machine

/-! ## The twiddle steps (spec/10_state.md R56)

cos(π/2^(n+1)) and sin(π/2^(n+2)) are nested square roots (Mathlib's `Real.sqrtTwoAddSeries`).  Their integer square
roots at 100 fractional bits enclose them closely enough to lie between the rounding boundaries of the ROM's words. -/

/-- A lower bound of the nested root of depth n, in units of 2^−100. -/
def nestedRootLo : Nat → Nat
  | 0 => 0
  | n + 1 => Nat.sqrt ((2 * 2 ^ 100 + nestedRootLo n) * 2 ^ 100)

/-- An upper bound of the nested root of depth n, in units of 2^−100. -/
def nestedRootHi : Nat → Nat
  | 0 => 0
  | n + 1 => Nat.sqrt ((2 * 2 ^ 100 + nestedRootHi n) * 2 ^ 100) + 1

/-- The root of a number given in units of 2^−100, in the same units. -/
theorem sqrt_units (a : Nat) : √(2 + (a : ℝ) / 2 ^ 100) * 2 ^ 100 = √(((2 * 2 ^ 100 + a) * 2 ^ 100 : Nat) : ℝ) := by
  have h : (((2 * 2 ^ 100 + a) * 2 ^ 100 : Nat) : ℝ) = (2 + (a : ℝ) / 2 ^ 100) * (2 ^ 100) ^ 2 := by
    push_cast
    ring
  rw [h, Real.sqrt_mul (by positivity), Real.sqrt_sq (by positivity)]

/-- The lower bounds are below the roots: the integer root of a lower bound is. -/
theorem nestedRootLo_le (n : Nat) : (nestedRootLo n : ℝ) / 2 ^ 100 ≤ Real.sqrtTwoAddSeries 0 n := by
  induction n with
  | zero => simp [nestedRootLo]
  | succ n ih =>
    rw [div_le_iff₀ (by positivity), Real.sqrtTwoAddSeries]
    calc (nestedRootLo (n + 1) : ℝ) ≤ √(((2 * 2 ^ 100 + nestedRootLo n) * 2 ^ 100 : Nat) : ℝ) :=
          Real.nat_sqrt_le_real_sqrt
      _ = √(2 + (nestedRootLo n : ℝ) / 2 ^ 100) * 2 ^ 100 := (sqrt_units _).symm
      _ ≤ √(2 + Real.sqrtTwoAddSeries 0 n) * 2 ^ 100 := by gcongr

/-- The upper bounds are above the roots: the integer root of an upper bound, plus one, is. -/
theorem le_nestedRootHi (n : Nat) : Real.sqrtTwoAddSeries 0 n ≤ (nestedRootHi n : ℝ) / 2 ^ 100 := by
  induction n with
  | zero => simp [nestedRootHi]
  | succ n ih =>
    rw [le_div_iff₀ (by positivity), Real.sqrtTwoAddSeries]
    calc √(2 + Real.sqrtTwoAddSeries 0 n) * 2 ^ 100 ≤ √(2 + (nestedRootHi n : ℝ) / 2 ^ 100) * 2 ^ 100 := by gcongr
      _ = √(((2 * 2 ^ 100 + nestedRootHi n) * 2 ^ 100 : Nat) : ℝ) := sqrt_units _
      _ ≤ (nestedRootHi (n + 1) : ℝ) := by
        rw [nestedRootHi]
        push_cast
        exact_mod_cast Real.real_sqrt_le_nat_sqrt_succ

/-- The enclosure of the nested root of depth n lies between the rounding boundaries of pattern m. -/
abbrev RootRoundsTo (n m : Nat) : Prop :=
  boundaryBelow m * 2 ^ 100 < nestedRootLo n * 2 ^ 149 ∧ nestedRootHi n * 2 ^ 149 < boundaryAbove m * 2 ^ 100

/-- The enclosure of 2 minus the nested root of depth n lies between the squares of the rounding boundaries of
pattern m. -/
abbrev ConjugateRootRoundsTo (n m : Nat) : Prop :=
  boundaryBelow m ^ 2 * 2 ^ 100 + nestedRootHi n * (2 ^ 149) ^ 2 < 2 * 2 ^ 100 * (2 ^ 149) ^ 2 ∧
    2 * 2 ^ 100 * (2 ^ 149) ^ 2 < boundaryAbove m ^ 2 * 2 ^ 100 + nestedRootLo n * (2 ^ 149) ^ 2

theorem RootRoundsTo.betweenBoundaries {n m : Nat} (h : RootRoundsTo n m) :
    BetweenBoundaries (Real.sqrtTwoAddSeries 0 n) m := by
  have hlo := nestedRootLo_le n
  have hhi := le_nestedRootHi n
  have h1 : (boundaryBelow m : ℝ) * 2 ^ 100 < nestedRootLo n * 2 ^ 149 := by exact_mod_cast h.1
  have h2 : (nestedRootHi n : ℝ) * 2 ^ 149 < boundaryAbove m * 2 ^ 100 := by exact_mod_cast h.2
  constructor <;> linarith

theorem ConjugateRootRoundsTo.betweenBoundaries {n m : Nat} (h : ConjugateRootRoundsTo n m) :
    BetweenBoundaries √(2 - Real.sqrtTwoAddSeries 0 n) m := by
  have hlo := (div_le_iff₀ (by positivity)).1 (nestedRootLo_le n)
  have hhi := (le_div_iff₀ (by positivity)).1 (le_nestedRootHi n)
  have h1 : (boundaryBelow m : ℝ) ^ 2 * 2 ^ 100 + nestedRootHi n * (2 ^ 149) ^ 2 < 2 * 2 ^ 100 * (2 ^ 149) ^ 2 := by
    exact_mod_cast h.1
  have h2 : 2 * 2 ^ 100 * (2 ^ 149) ^ 2 < (boundaryAbove m : ℝ) ^ 2 * 2 ^ 100 + nestedRootLo n * (2 ^ 149) ^ 2 := by
    exact_mod_cast h.2
  have scale : √(2 - Real.sqrtTwoAddSeries 0 n) * 2 ^ 149 = √((2 - Real.sqrtTwoAddSeries 0 n) * (2 ^ 149) ^ 2) := by
    rw [Real.sqrt_mul' _ (by positivity), Real.sqrt_sq (by positivity)]
  rw [BetweenBoundaries, scale]
  have hP : (0 : ℝ) < (2 ^ 149) ^ 2 := by positivity
  have hA : (0 : ℝ) < boundaryAbove m := by
    have : 0 < magUnits (m + 1) := (Nat.zero_le _).trans_lt (magUnits_strictMono (Nat.lt_succ_self m))
    exact_mod_cast Nat.add_pos_right _ this
  generalize ((2 : ℝ) ^ 149) ^ 2 = P at *
  have hloP := mul_le_mul_of_nonneg_right hlo hP.le
  have hhiP := mul_le_mul_of_nonneg_right hhi hP.le
  exact ⟨(Real.lt_sqrt (by positivity)).2 (by linarith), (Real.sqrt_lt' hA).2 (by linarith)⟩

/-- Rows 3 .. 15 of R56's table: the cosine's word, and the sine's with its sign changed.
Each row compares whole numbers of some 500 bits. -/
theorem romRows : ∀ k, k < 13 →
    (PositiveFinite (romSr (k + 3)) ∧ RootRoundsTo (k + 1) (magPattern (romSr (k + 3)))) ∧
    PositiveFinite (fneg (romSi (k + 3))) ∧ ConjugateRootRoundsTo k (magPattern (fneg (romSi (k + 3)))) := by
  decide +kernel

/-- The cosine and the sine of a stage from the third on, doubled, are nested roots. -/
theorem cos_step (k : Nat) : 2 * Real.cos (Real.pi / 2 ^ (k + 2)) = Real.sqrtTwoAddSeries 0 (k + 1) := by
  rw [Real.cos_pi_over_two_pow]
  ring

theorem sin_step (k : Nat) : 2 * Real.sin (Real.pi / 2 ^ (k + 2)) = √(2 - Real.sqrtTwoAddSeries 0 k) := by
  rw [Real.sin_pi_over_two_pow_succ]
  ring

/-- Stage 1 steps by half a turn: (−1, −0) with −sin π = +0. -/
theorem romStage_one : IsRN (Real.cos (Real.pi / 2 ^ 0)) (romSr 1) ∧ IsRN (-Real.sin (Real.pi / 2 ^ 0)) (romSi 1) := by
  have hr : val (romSr 1) = -1 := by decide +kernel
  have hi : val (romSi 1) = 0 := by decide +kernel
  have nr : isNeg (romSr 1) = true := by decide
  have ni : isNeg (romSi 1) = false := by decide
  simp only [pow_zero, div_one, Real.cos_pi, Real.sin_pi, neg_zero]
  exact ⟨isRN_of_eq (by norm_num) (by decide) (by simp [nr]) (by simp [hr]),
    isRN_of_eq (by norm_num) (by decide) (by simp [ni]) (by simp [hi])⟩

/-- Stage 2 steps by a quarter turn: (0, −1). -/
theorem romStage_two : IsRN (Real.cos (Real.pi / 2 ^ 1)) (romSr 2) ∧ IsRN (-Real.sin (Real.pi / 2 ^ 1)) (romSi 2) := by
  have hr : val (romSr 2) = 0 := by decide +kernel
  have hi : val (romSi 2) = -1 := by decide +kernel
  have nr : isNeg (romSr 2) = false := by decide
  have ni : isNeg (romSi 2) = true := by decide
  simp only [pow_one, Real.cos_pi_div_two, Real.sin_pi_div_two]
  exact ⟨isRN_of_eq (by norm_num) (by decide) (by simp [nr]) (by simp [hr]),
    isRN_of_eq (by norm_num) (by decide) (by simp [ni]) (by simp [hi])⟩

/-- Stages 3 .. 15: both doubled values lie between the rounding boundaries of the ROM's words. -/
theorem romStage_add_three {k : Nat} (hk : k < 13) :
    IsRN (Real.cos (Real.pi / 2 ^ (k + 2))) (romSr (k + 3)) ∧
      IsRN (-Real.sin (Real.pi / 2 ^ (k + 2))) (romSi (k + 3)) := by
  obtain ⟨⟨pr, rr⟩, pi, ri⟩ := romRows k hk
  have hpow : (1 : ℝ) < 2 ^ (k + 2) := one_lt_pow₀ (by norm_num) (by omega)
  have hsin : 0 < Real.sin (Real.pi / 2 ^ (k + 2)) :=
    Real.sin_pos_of_pos_of_lt_pi (by positivity) (div_lt_self Real.pi_pos hpow)
  constructor
  · exact isRN_of_betweenBoundaries (Real.abs_cos_le_one _) pr (cos_step k ▸ rr.betweenBoundaries)
  · have hs := isRN_of_betweenBoundaries (Real.abs_sin_le_one _) pi (sin_step k ▸ ri.betweenBoundaries)
    exact fneg_fneg (romSi (k + 3)) ▸ isRN_fneg hs hsin

/-- Settles O60. -/
theorem romHoldsRoundedSteps : Obligations.RomHoldsRoundedSteps := by
  intro s h1 h15
  match s with
  | 1 => exact romStage_one
  | 2 => exact romStage_two
  | k + 3 => exact romStage_add_three (by omega)

end Sys2Proof.Machine

namespace Sys2Proof.Machine

/-! ## The registers a command leaves alone (spec/10_state.md R41, R66) -/

/-- Outside memory, WINTAG, the draws and STATUS a command changes nothing, and it ends with BUSY = 0 (R370). -/
theorem exec_frame {i : Instr} {s t : State} (h : exec i s = .next t) : SameOutsideStatus s t ∧ t.busy = false := by
  obtain ⟨e, he⟩ | ⟨u, ⟨m, tag, d, -, rfl⟩, he⟩ := exec_cases i s
  · cases he.symm.trans h
    exact ⟨⟨rfl, rfl, rfl, rfl, rfl, rfl⟩, rfl⟩
  · cases he.symm.trans h
    exact ⟨⟨rfl, rfl, rfl, rfl, rfl, rfl⟩, rfl⟩

/-- Only GENWIN and SPECTRUM write WINTAG (R66). -/
theorem bodyOf_winTag {i : Instr} (h : ∀ kind n, i ≠ .genwin kind n ∧ i ≠ .spectrum kind n) (s : State) :
    (bodyOf i s).winTag = s.winTag := by
  cases i with
  | genwin kind n => exact absurd rfl (h kind n).1
  | spectrum kind n => exact absurd rfl (h kind n).2
  | _ => rfl

@[simp] theorem State.applyWindow_draws (s : State) (C : Nat) : (s.applyWindow C).draws = s.draws := rfl
@[simp] theorem State.realForward_draws (s : State) (n : Nat) : (s.realForward n).draws = s.draws := rfl
@[simp] theorem State.toPolar_draws (s : State) (C : Nat) : (s.toPolar C).draws = s.draws := rfl
@[simp] theorem State.toDecibel_draws (s : State) (n : Nat) : (s.toDecibel n).draws = s.draws := rfl

@[simp] theorem State.generateWindow_draws (s : State) (k : WindowKind) (kind : BitVec 3) (n : BitVec 4) :
    (s.generateWindow k kind n).draws = s.draws := rfl

/-- SPECTRUM draws nothing, on a tag hit or a miss (R342). -/
@[simp] theorem State.spectrum_draws (s : State) (k : WindowKind) (kind : BitVec 3) (n : BitVec 4) :
    (s.spectrum k kind n).draws = s.draws := by
  simp only [State.spectrum, toDecibel_draws, toPolar_draws, realForward_draws, applyWindow_draws, ensureWindow]
  split
  · rfl
  · exact s.generateWindow_draws k kind n

/-- Only RFFT_INV uses up a draw (R268; log entry 4). -/
theorem bodyOf_draws {i : Instr} (h : ∀ n, i ≠ .rfftInv n) (s : State) : (bodyOf i s).draws = s.draws := by
  cases i with
  | rfftInv n => exact absurd rfl (h n)
  | genwin kind n =>
    cases hk : WindowKind.ofField kind with
    | none => simp [bodyOf, hk]
    | some k => simp [bodyOf_genwin hk]
  | spectrum kind n =>
    cases hk : WindowKind.ofField kind with
    | none => simp [bodyOf, hk]
    | some k => simp [bodyOf_spectrum hk]
  | _ => rfl

/-- Settles O30: a rejected command changes STATUS only, and a legal one what its body does. -/
theorem commandsLeaveOtherRegistersAlone : Obligations.CommandsLeaveOtherRegistersAlone := by
  intro i s t h
  obtain ⟨hframe, hbusy⟩ := exec_frame h
  refine ⟨hframe, ?_, ?_, hbusy⟩
  · obtain ⟨e, -, rfl⟩ | ⟨-, rfl⟩ := exec_next_cases h
    · exact fun _ => rfl
    · exact fun hi => bodyOf_winTag hi s
  · obtain ⟨e, -, rfl⟩ | ⟨-, rfl⟩ := exec_next_cases h
    · exact fun _ => rfl
    · exact fun hi => bodyOf_draws hi s

/-! ## Host reads (spec/20_memory.md R103, R109) -/

/-- Settles O31: a read that is routed to the core records one response, one that is not records none. -/
theorem readsHaveNoSideEffect : Obligations.ReadsHaveNoSideEffect := by
  intro s ts addr size lanes h
  rw [step_turn h]
  simp only [State.takeTurn]
  obtain he | ⟨w, -, he⟩ | ⟨-, he⟩ := State.hostRead_cases { s with turns := ts } addr size lanes <;> rw [he]
  · exact ⟨[], by simp, by simp⟩
  · exact ⟨[.read w true], le_rfl, rfl⟩
  · exact ⟨[.read 0 false], le_rfl, rfl⟩

/-! ## The TWROM window (spec/20_memory.md R101, R111) -/

/-- Entry `stage` of the TWROM window holds the SR word at its even word and the SI word at its odd one. -/
theorem decodeOffset_rom (log2Nmax : Nat) {stage : Nat} (h1 : 1 ≤ stage) (h16 : stage ≤ 16) (imag : Bool) :
    decodeOffset log2Nmax (0x200 + 8 * (stage - 1) + 4 * imag.toNat) = .rom stage imag := by
  have hword := imag.toNat_lt
  have hstage : (0x200 + 8 * (stage - 1) + 4 * imag.toNat - 0x200) / 8 + 1 = stage := by omega
  have himag : decide ((0x200 + 8 * (stage - 1) + 4 * imag.toNat) / 4 % 2 = 1) = imag := by
    cases imag <;> simp <;> omega
  unfold decodeOffset
  rw [if_neg (by omega), if_neg (by omega), if_neg (by omega), if_neg (by omega), if_neg (by omega),
    if_neg (by omega), if_pos (by omega), hstage, himag]

/-- The data of a read of a TWROM word, busy or idle. -/
theorem State.readData_rom (s : State) {stage : Nat} (h1 : 1 ≤ stage) (h16 : stage ≤ 16) (imag : Bool) :
    s.readData (0x200 + 8 * (stage - 1) + 4 * imag.toNat) 4 0xF#4 =
      some (romRead s.params.log2Nmax stage imag) := by
  rw [State.readData, wellFormedAccess_word (by omega), decodeOffset_rom _ h1 h16]
  rfl

/-- A write to a TWROM word has no effect, busy or idle. -/
theorem State.writeEffect_rom (s : State) {stage : Nat} (h1 : 1 ≤ stage) (h16 : stage ≤ 16) (imag : Bool)
    (v : Word) : s.writeEffect (0x200 + 8 * (stage - 1) + 4 * imag.toNat) 4 0xF#4 v = none := by
  rw [State.writeEffect, wellFormedAccess_word (by omega), decodeOffset_rom _ h1 h16]
  rfl

/-- A TWROM word lies in the core's window. -/
theorem rom_offset_lt {stage : Nat} (h16 : stage ≤ 16) (imag : Bool) :
    0x200 + 8 * (stage - 1) + 4 * imag.toNat < 0x100000 := by
  have hword := imag.toNat_lt
  omega

/-- Settles O33: the even and the odd word of an entry, each read and written. -/
theorem romWindowIsReadOnly : Obligations.RomWindowIsReadOnly := by
  intro s ts stage h1 h16
  simp only [Nat.add_assoc]
  have hread (imag : Bool) := State.readData_rom { s with turns := ts } h1 h16 imag
  have hwrite (imag : Bool) := State.writeEffect_rom { s with turns := ts } h1 h16 imag
  refine ⟨fun h => ?_, fun h => ?_, fun v h => ?_⟩
  · exact step_read_okay (rom_offset_lt h16 false) h (hread false)
  · exact step_read_okay (rom_offset_lt h16 true) h (hread true)
  · obtain h | h := h
    · exact step_write_error (rom_offset_lt h16 false) h (hwrite false v)
    · exact step_write_error (rom_offset_lt h16 true) h (hwrite true v)

/-! ## RAM words (spec/20_memory.md R101, R103, R104, R110) -/

/-- Every RAM window lies in the core's window, at an aligned offset (R101). -/
theorem Ram.base_window (r : Ram) : r.base % 4 = 0 ∧ r.base + 0x20000 ≤ 0x100000 := by
  cases r <;> decide

/-- In a RAM's window the address map asks only whether the RAM has the word: registers and TWROM lie below, and the
four windows are disjoint (R101). -/
theorem decodeOffset_ramWindow (log2Nmax : Nat) {off : Nat} {r : Ram} (hlo : r.base ≤ off)
    (hhi : off < r.base + 0x20000) : decodeOffset log2Nmax off = ramTarget log2Nmax off r := by
  have habove : 0x20000 ≤ off := by cases r <;> simp only [Ram.base] at hlo <;> omega
  unfold decodeOffset
  rw [if_neg (by omega), if_neg (by omega), if_neg (by omega), if_neg (by omega), if_neg (by omega),
    if_neg (by omega), if_neg (by omega)]
  cases r <;> simp only [Ram.base] at hlo hhi
  case re => rw [if_pos (by omega)]
  case im => rw [if_neg (by omega), if_pos (by omega)]
  case win => rw [if_neg (by omega), if_neg (by omega), if_pos (by omega)]
  case db => rw [if_neg (by omega), if_neg (by omega), if_neg (by omega), if_pos (by omega)]

/-- The address map at an existing RAM word. -/
theorem decodeOffset_ram {log2Nmax i : Nat} {r : Ram} (h : i < r.words log2Nmax) (hi : i < 2 ^ 15) :
    decodeOffset log2Nmax (r.base + 4 * i) = .ram r i := by
  rw [decodeOffset_ramWindow log2Nmax (by omega : r.base ≤ r.base + 4 * i) (by omega)]
  simp [ramTarget, h]

/-- The data of an idle read of an existing RAM word. -/
theorem State.readData_ram {s : State} {r : Ram} {i : Nat} (hb : s.busy = false)
    (h : i < r.words s.params.log2Nmax) (hi : i < 2 ^ 15) :
    s.readData (r.base + 4 * i) 4 0xF#4 = some (s.ram r i) := by
  have hr := r.base_window
  simp [State.readData, wellFormedAccess_word (show (r.base + 4 * i) % 4 = 0 by omega), decodeOffset_ram h hi, hb]

/-- The effect of an idle write to an existing RAM word. -/
theorem State.writeEffect_ram {s : State} {r : Ram} {i : Nat} (w : Word) (hb : s.busy = false)
    (h : i < r.words s.params.log2Nmax) (hi : i < 2 ^ 15) :
    s.writeEffect (r.base + 4 * i) 4 0xF#4 w = some (s.hostRamWrite r i w) := by
  have hr := r.base_window
  simp [State.writeEffect, wellFormedAccess_word (show (r.base + 4 * i) % 4 = 0 by omega), decodeOffset_ram h hi, hb]

/-- Settles O40: the read's offset is mapped to the word, and the core is idle. -/
theorem hostRamReadGivesTheWord : Obligations.HostRamReadGivesTheWord := by
  intro s ts r i hb hw hi h
  have hr := r.base_window
  rw [Nat.add_assoc] at h
  exact step_read_okay (by omega) h (State.readData_ram (s := { s with turns := ts }) hb hw hi)

/-- A host RAM write is the store of one word, with WINTAG cleared if the RAM is WIN (R110). -/
theorem State.hostRamWrite_eq (s : State) (r : Ram) (i : Nat) (w : Word) :
    s.hostRamWrite r i w = { s.setRamWord r i w with winTag := if r = .win then WinTag.zero else s.winTag } := by
  cases r <;> rfl

/-- Settles O39: the step is the store of the word, which changes its four bytes and WINTAG only. -/
theorem hostRamWriteStoresOneWord : Obligations.HostRamWriteStoresOneWord := by
  intro s ts r i w hb hw hi h
  have hr := r.base_window
  rw [Nat.add_assoc] at h
  refine ⟨_, step_write_okay (by omega) h (State.writeEffect_ram (s := { s with turns := ts }) w hb hw hi), ?_⟩
  rw [State.hostRamWrite_eq]
  refine ⟨rfl, ?_, fun a ha => ?_, rfl, rfl, rfl, rfl, rfl, rfl, rfl⟩
  · exact s.ram_setRamWord_same r i w
  · exact s.byteAt_setRamWord_other r i w ha

end Sys2Proof.Machine

namespace Sys2Proof.Machine

open Sys2Proof.Laws

/-! ## Command words (spec/30_encoding.md R141, R145 to R151) -/

/-- Every instruction's word holds its opcode and operands, and 0 in the other fields (R141, R147). -/
theorem encodedFields (i : Instr) : EncodedFields.Statement i := by
  cases i <;> exact fields_assemble ..

/-- A word with RSVD = 0 is put together from its opcode and its other three fields (R141). -/
theorem assemble_fields {w : Word} {op : Nat} (hop : (fieldOp w).toNat = op) (hr : fieldRsvd w = 0) :
    assemble (fieldCount w) (fieldKind w) (fieldLog2N w) (BitVec.ofNat 4 op) = w := by
  have hsplit : fieldCount w ++ fieldRsvd w ++ fieldKind w ++ fieldLog2N w ++ fieldOp w = w := by
    simp only [fieldCount, fieldRsvd, fieldKind, fieldLog2N, fieldOp]
    rw [BitVec.extractLsb'_append_extractLsb'_eq_extractLsb' (show 16 = 11 + 5 from rfl),
      BitVec.extractLsb'_append_extractLsb'_eq_extractLsb' (show 11 = 8 + 3 from rfl),
      BitVec.extractLsb'_append_extractLsb'_eq_extractLsb' (show 8 = 4 + 4 from rfl),
      BitVec.extractLsb'_append_extractLsb'_eq_extractLsb' (show 4 = 0 + 4 from rfl)]
    exact BitVec.extractLsb'_eq_self
  rw [← hop, BitVec.ofNat_toNat, BitVec.setWidth_eq]
  rwa [hr] at hsplit

/-- A word with OP = 0 and every other field 0 is NOP's, the zero word (R371). -/
theorem eq_zero_of_fields {w : Word} (hop : (fieldOp w).toNat = 0) (hr : fieldRsvd w = 0) (hn : fieldLog2N w = 0)
    (hk : fieldKind w = 0) (hc : fieldCount w = 0) : w = 0 := by
  rw [← assemble_fields hop hr, hc, hk, hn]
  rfl

/-! ### The decoder on an encoded word (R145, R152) -/

@[simp] theorem decodeSized_assemble (n op : BitVec 4) (i : Instr) : decodeSized (assemble 0#16 0#3 n op) i = .ok i :=
  if_pos ⟨fieldRsvd_assemble .., fieldKind_assemble .., fieldCount_assemble ..⟩

@[simp] theorem decodeCounted_assemble (c : BitVec 16) (op : BitVec 4) (i : Instr) :
    decodeCounted (assemble c 0#3 0#4 op) i = .ok i :=
  if_pos ⟨fieldRsvd_assemble .., fieldLog2N_assemble .., fieldKind_assemble ..⟩

@[simp] theorem decodeWindowed_assemble (kind : BitVec 3) (n op : BitVec 4) (i : Instr) :
    decodeWindowed (assemble 0#16 kind n op) i = .ok i :=
  if_pos ⟨fieldRsvd_assemble .., fieldCount_assemble ..⟩

/-- Settles O1: the word's OP selects the instruction's row, whose operands are the word's fields and whose unused
fields are 0. -/
theorem decodeInvertsEncode : Obligations.DecodeInvertsEncode := by
  intro i
  cases i with
  | nop => rfl
  | bitrev n | cfftFwd n | cfftInv n | rfftFwd n | rfftInv n | dbconv n =>
    simp [decode, encode, fieldOp_assemble, fieldLog2N_assemble]
  | polar c | winapply c => simp [decode, encode, fieldOp_assemble, fieldCount_assemble]
  | genwin kind n | spectrum kind n =>
    simp [decode, encode, fieldOp_assemble, fieldKind_assemble, fieldLog2N_assemble]

/-! ### Words the decoder accepts (R147) -/

/-- An accepted word of format N is put together from OP and LOG2N alone. -/
theorem decodeSized_ok {w : Word} {i j : Instr} {op : Nat} (hop : (fieldOp w).toNat = op)
    (h : decodeSized w i = .ok j) : i = j ∧ assemble 0 0 (fieldLog2N w) (BitVec.ofNat 4 op) = w := by
  simp only [decodeSized, ite_eq_iff, Except.ok.injEq, reduceCtorEq, and_false, or_false] at h
  obtain ⟨⟨hr, hk, hc⟩, hij⟩ := h
  exact ⟨hij, by rw [← hk, ← hc, assemble_fields hop hr]⟩

/-- An accepted word of format C is put together from OP and COUNT alone. -/
theorem decodeCounted_ok {w : Word} {i j : Instr} {op : Nat} (hop : (fieldOp w).toNat = op)
    (h : decodeCounted w i = .ok j) : i = j ∧ assemble (fieldCount w) 0 0 (BitVec.ofNat 4 op) = w := by
  simp only [decodeCounted, ite_eq_iff, Except.ok.injEq, reduceCtorEq, and_false, or_false] at h
  obtain ⟨⟨hr, hn, hk⟩, hij⟩ := h
  exact ⟨hij, by rw [← hk, ← hn, assemble_fields hop hr]⟩

/-- An accepted word of format KN is put together from OP, LOG2N and KIND alone. -/
theorem decodeWindowed_ok {w : Word} {i j : Instr} {op : Nat} (hop : (fieldOp w).toNat = op)
    (h : decodeWindowed w i = .ok j) : i = j ∧ assemble 0 (fieldKind w) (fieldLog2N w) (BitVec.ofNat 4 op) = w := by
  simp only [decodeWindowed, ite_eq_iff, Except.ok.injEq, reduceCtorEq, and_false, or_false] at h
  obtain ⟨⟨hr, hc⟩, hij⟩ := h
  exact ⟨hij, by rw [← hc, assemble_fields hop hr]⟩

/-- Settles O2: an accepted word has 0 in RSVD and in every field its row does not use, and the other fields are the
operands read. -/
theorem encodeInvertsDecode : Obligations.EncodeInvertsDecode := by
  intro w i h
  unfold decode at h
  split at h
  case h_1 hop =>
    simp only [ite_eq_iff, Except.ok.injEq, reduceCtorEq, and_false, or_false] at h
    obtain ⟨rfl, rfl⟩ := h
    rfl
  case h_2 hop | h_3 hop | h_4 hop | h_5 hop | h_6 hop | h_10 hop =>
    obtain ⟨rfl, hw⟩ := decodeSized_ok hop h
    exact hw
  case h_7 hop | h_9 hop =>
    obtain ⟨rfl, hw⟩ := decodeCounted_ok hop h
    exact hw
  case h_8 hop | h_11 hop =>
    obtain ⟨rfl, hw⟩ := decodeWindowed_ok hop h
    exact hw
  case h_12 => cases h

/-! ### The checks of R151 -/

theorem legalKind_eq_false_iff {kind : BitVec 3} : legalKind kind = false ↔ 6 ≤ kind.toNat := by
  simp [legalKind, Nat.lt_iff_add_one_le]

/-- On the word of an instruction only the range checks of R151 can fail (R147, R148). -/
theorem classify_encode (log2Nmax : Nat) (i : Instr) : classify log2Nmax (encode i) = i.rangeError log2Nmax := by
  obtain ⟨hop, hn, hk, hr, hc⟩ := encodedFields i
  simp only [classify, hop, hn, hk, hr, hc]
  cases i with
  | nop => rfl
  | bitrev n | cfftFwd n | cfftInv n | rfftFwd n | rfftInv n | dbconv n =>
    simp [opcodeOf, log2nOf, kindOf, countOf, opUsesLog2N, opUsesKind, opUsesCount, opNmin, Instr.rangeError,
      legalLog2N_iff, -not_and]
  | polar c | winapply c =>
    simp [opcodeOf, log2nOf, kindOf, countOf, opUsesLog2N, opUsesKind, opUsesCount, Instr.rangeError,
      legalCount_iff, -not_and]
  | genwin kind n | spectrum kind n =>
    simp [opcodeOf, log2nOf, kindOf, countOf, opUsesLog2N, opUsesKind, opUsesCount, opNmin, Instr.rangeError,
      legalKind_eq_false_iff, legalLog2N_iff, -not_and]

/-- Settles O4: R151 finds on the instruction's word just the instruction's range error. -/
theorem wellFormedIsLegalWord : Obligations.WellFormedIsLegalWord := by
  intro log2Nmax i
  rw [classify_encode, Instr.rangeError_eq_none_iff]

/-- Check 2 of R151: a nonzero RSVD, or a nonzero field the opcode does not use. -/
def NonzeroUnused (w : Word) : Prop :=
  fieldRsvd w ≠ 0 ∨ (opUsesLog2N (fieldOp w).toNat = false ∧ fieldLog2N w ≠ 0) ∨
    (opUsesKind (fieldOp w).toNat = false ∧ fieldKind w ≠ 0) ∨
    (opUsesCount (fieldOp w).toNat = false ∧ fieldCount w ≠ 0)

theorem classify_opcode {w : Word} (log2Nmax : Nat) (h : 0xB ≤ (fieldOp w).toNat) :
    classify log2Nmax w = some .opcode := if_pos h

theorem classify_rsvd {w : Word} (log2Nmax : Nat) (hop : (fieldOp w).toNat < 0xB) (h : NonzeroUnused w) :
    classify log2Nmax w = some .rsvd := by
  have hne {k : Nat} {x : BitVec k} (hx : x ≠ 0) : x.toNat ≠ 0 := by simpa [BitVec.toNat_eq] using hx
  have hcheck := h.imp_right (Or.imp (And.imp_right hne) (Or.imp (And.imp_right hne) (And.imp_right hne)))
  exact (if_neg (by omega)).trans (if_pos hcheck)

theorem decodeSized_error {w : Word} {i : Instr} {e : CmdError} (hk : opUsesKind (fieldOp w).toNat = false)
    (hc : opUsesCount (fieldOp w).toNat = false) (h : decodeSized w i = .error e) : e = .rsvd ∧ NonzeroUnused w := by
  simp only [decodeSized, ite_eq_iff, Except.error.injEq, reduceCtorEq, and_false, false_or] at h
  obtain ⟨hf, rfl⟩ := h
  refine ⟨rfl, ?_⟩
  simp only [NonzeroUnused, hk, hc]
  tauto

theorem decodeCounted_error {w : Word} {i : Instr} {e : CmdError} (hn : opUsesLog2N (fieldOp w).toNat = false)
    (hk : opUsesKind (fieldOp w).toNat = false) (h : decodeCounted w i = .error e) : e = .rsvd ∧ NonzeroUnused w := by
  simp only [decodeCounted, ite_eq_iff, Except.error.injEq, reduceCtorEq, and_false, false_or] at h
  obtain ⟨hf, rfl⟩ := h
  refine ⟨rfl, ?_⟩
  simp only [NonzeroUnused, hk, hn]
  tauto

theorem decodeWindowed_error {w : Word} {i : Instr} {e : CmdError} (hc : opUsesCount (fieldOp w).toNat = false)
    (h : decodeWindowed w i = .error e) : e = .rsvd ∧ NonzeroUnused w := by
  simp only [decodeWindowed, ite_eq_iff, Except.error.injEq, reduceCtorEq, and_false, false_or] at h
  obtain ⟨hf, rfl⟩ := h
  refine ⟨rfl, ?_⟩
  simp only [NonzeroUnused, hc]
  tauto

/-- The decoder's two errors are the checks 1 and 2 of R151 (R147, R148). -/
theorem classify_of_decode_error {w : Word} {e : CmdError} (log2Nmax : Nat) (h : decode w = .error e) :
    classify log2Nmax w = some e := by
  unfold decode at h
  split at h
  case h_1 hop =>
    simp only [ite_eq_iff, Except.error.injEq, reduceCtorEq, and_false, false_or] at h
    obtain ⟨hw, rfl⟩ := h
    refine classify_rsvd log2Nmax (by omega) ?_
    by_contra hz
    simp only [NonzeroUnused, hop, show opUsesLog2N 0 = false from rfl, show opUsesKind 0 = false from rfl,
      show opUsesCount 0 = false from rfl, true_and, not_or, not_not] at hz
    obtain ⟨hr, hn, hk, hc⟩ := hz
    exact hw (eq_zero_of_fields hop hr hn hk hc)
  case h_2 hop | h_3 hop | h_4 hop | h_5 hop | h_6 hop | h_10 hop =>
    obtain ⟨rfl, hw⟩ := decodeSized_error (by rw [hop]; rfl) (by rw [hop]; rfl) h
    exact classify_rsvd log2Nmax (by omega) hw
  case h_7 hop | h_9 hop =>
    obtain ⟨rfl, hw⟩ := decodeCounted_error (by rw [hop]; rfl) (by rw [hop]; rfl) h
    exact classify_rsvd log2Nmax (by omega) hw
  case h_8 hop | h_11 hop =>
    obtain ⟨rfl, hw⟩ := decodeWindowed_error (by rw [hop]; rfl) h
    exact classify_rsvd log2Nmax (by omega) hw
  case h_12 =>
    cases h
    simp only [imp_false] at *
    exact classify_opcode log2Nmax (by omega)

/-- Settles O3: an accepted word is its instruction's, so only the range checks are left; a refused word fails check 1
or 2. -/
theorem decodeAndRangeChecksFollowDecodeOrder : Obligations.DecodeAndRangeChecksFollowDecodeOrder := by
  intro log2Nmax w
  split
  next e h => exact (classify_of_decode_error log2Nmax h).symm
  next i h => rw [← encodeInvertsDecode w i h, classify_encode]

/-- Settles O5: the eleven legal words are the encodings of their commands; of the other two, the first has RSVD = 1
and the second OP = 0xB. -/
theorem workedCommandWordsDecode : Obligations.WorkedCommandWordsDecode :=
  ⟨decodeInvertsEncode .nop, decodeInvertsEncode (.bitrev 1), decodeInvertsEncode (.cfftFwd 2),
    decodeInvertsEncode (.cfftInv 2), decodeInvertsEncode (.rfftFwd 3), decodeInvertsEncode (.rfftInv 3),
    decodeInvertsEncode (.polar 4), decodeInvertsEncode (.genwin 0 2), decodeInvertsEncode (.winapply 8),
    decodeInvertsEncode (.dbconv 3), decodeInvertsEncode (.spectrum 0 3), rfl, rfl⟩

end Sys2Proof.Machine

namespace Sys2Proof.Machine

/-! ## A number against the rounding boundaries (spec/40_numerics.md R181, R182)

With exponents unbounded above, a number x ≥ 0 rounds to the pattern whose boundaries it lies between, a boundary itself
to the even pattern.  The pattern 0x7F800000 would stand for 2^128, and its lower boundary is the overflow threshold. -/

/-- y, in units of 2^−149, rounds to the magnitude pattern m of the format without a largest exponent. -/
def RoundsTo (y : ℝ) (m : Nat) : Prop :=
  (boundaryBelow m : ℝ) ≤ 2 * y ∧ 2 * y ≤ boundaryAbove m ∧
    (2 * y = boundaryBelow m ∨ 2 * y = boundaryAbove m → Even m)

theorem magUnits_zero : magUnits 0 = 0 := by simp [magUnits]

theorem boundaryBelow_mono : Monotone boundaryBelow := fun _ _ h =>
  Nat.add_le_add (magUnits_strictMono.monotone (Nat.sub_le_sub_right h 1)) (magUnits_strictMono.monotone h)

theorem boundaryAbove_strictMono : StrictMono boundaryAbove := fun _ _ h =>
  Nat.add_lt_add (magUnits_strictMono h) (magUnits_strictMono (Nat.succ_lt_succ h))

/-- The overflow threshold 2^128 − 2^103 is the boundary between the largest finite pattern and the next. -/
theorem boundaryBelow_inf : (boundaryBelow 0x7F800000 : ℝ) = 2 * ((2 ^ 128 - 2 ^ 103) * 2 ^ 149) := by
  norm_num [boundaryBelow, magUnits]

theorem boundaryAbove_maxFinite : boundaryAbove 0x7F7FFFFF = boundaryBelow 0x7F800000 := rfl

/-- From the overflow threshold on a number rounds to an infinity's pattern. -/
theorem RoundsTo.inf_le {y : ℝ} {m : Nat} (h : RoundsTo y m) (hy : (2 ^ 128 - 2 ^ 103) * 2 ^ 149 ≤ y) :
    0x7F800000 ≤ m := by
  obtain ⟨_, hhi, heven⟩ := h
  by_contra hm
  have hle : boundaryAbove m ≤ boundaryAbove 0x7F7FFFFF := boundaryAbove_strictMono.monotone (by omega)
  have hle' : (boundaryAbove m : ℝ) ≤ 2 * ((2 ^ 128 - 2 ^ 103) * 2 ^ 149) := by
    rw [← boundaryBelow_inf, ← boundaryAbove_maxFinite]
    exact_mod_cast hle
  have hmax : boundaryAbove m = boundaryAbove 0x7F7FFFFF := by
    rw [boundaryAbove_maxFinite]
    exact_mod_cast (boundaryBelow_inf ▸ by linarith : (boundaryAbove m : ℝ) = boundaryBelow 0x7F800000)
  have hm' : m = 0x7F7FFFFF := boundaryAbove_strictMono.injective hmax
  subst hm'
  exact absurd (heven (.inr (by linarith))) (by decide)

/-- Below the overflow threshold a number rounds to a finite pattern. -/
theorem RoundsTo.lt_inf {y : ℝ} {m : Nat} (h : RoundsTo y m) (hy : y < (2 ^ 128 - 2 ^ 103) * 2 ^ 149) :
    m < 0x7F800000 := by
  by_contra hm
  have hle : (boundaryBelow 0x7F800000 : ℝ) ≤ boundaryBelow m := by exact_mod_cast boundaryBelow_mono (not_lt.1 hm)
  rw [boundaryBelow_inf] at hle
  linarith [h.1]

/-- No pattern's value is nearer than the one a number rounds to, and on a tie that one is even. -/
theorem RoundsTo.nearest {y : ℝ} {m : Nat} (h : RoundsTo y m) {j : Nat} (hj : j ≠ m) :
    |y - magUnits m| ≤ |y - magUnits j| ∧ (|y - magUnits j| = |y - magUnits m| → Even m) := by
  obtain ⟨hlo, hhi, heven⟩ := h
  obtain hlt | hgt := Nat.lt_or_gt_of_ne hj
  · have hstep : (magUnits j : ℝ) ≤ magUnits (m - 1) := by
      exact_mod_cast magUnits_strictMono.monotone (Nat.le_sub_one_of_lt hlt)
    have hjm : (magUnits j : ℝ) < magUnits m := by exact_mod_cast magUnits_strictMono hlt
    simp only [boundaryBelow, Nat.cast_add] at hlo heven
    have hd : |y - magUnits j| = y - magUnits j := abs_of_nonneg (by linarith)
    rw [hd]
    refine ⟨abs_le.2 ⟨by linarith, by linarith⟩, fun htie => heven (.inl ?_)⟩
    obtain ha | ha := abs_cases (y - magUnits m) <;> linarith
  · have hstep : (magUnits (m + 1) : ℝ) ≤ magUnits j := by exact_mod_cast magUnits_strictMono.monotone hgt
    have hjm : (magUnits m : ℝ) < magUnits j := by exact_mod_cast magUnits_strictMono hgt
    simp only [boundaryAbove, Nat.cast_add] at hhi heven
    have hd : |y - magUnits j| = magUnits j - y := by rw [abs_sub_comm]; exact abs_of_nonneg (by linarith)
    rw [hd]
    refine ⟨abs_le.2 ⟨by linarith, by linarith⟩, fun htie => heven (.inr ?_)⟩
    obtain ha | ha := abs_cases (y - magUnits m) <;> linarith

/-! ## Words by sign and magnitude pattern -/

theorem magPattern_lt (a : Word) : magPattern a < 2 ^ 31 := Nat.mod_lt _ (by norm_num)

theorem isNeg_eq (a : Word) : isNeg a = decide (2 ^ 31 ≤ a.toNat) := by
  exact (BitVec.msb_eq_getLsbD_last a).symm.trans (BitVec.msb_eq_decide a)

theorem toNat_pack {s : Bool} {m : Nat} (hm : m < 2 ^ 31) : (pack s m).toNat = (if s then 2 ^ 31 else 0) + m := by
  rw [pack, BitVec.toNat_ofNat, Nat.mod_eq_of_lt]
  split <;> omega

@[simp] theorem isNeg_pack {s : Bool} {m : Nat} (hm : m < 2 ^ 31) : isNeg (pack s m) = s := by
  rw [isNeg_eq, toNat_pack hm]
  cases s
  · simpa using hm
  · simp

theorem magPattern_pack {s : Bool} {m : Nat} (hm : m < 2 ^ 31) : magPattern (pack s m) = m := by
  rw [magPattern, toNat_pack hm]
  split <;> omega

/-- A word is its sign and its magnitude pattern. -/
theorem pack_isNeg_magPattern (a : Word) : pack (isNeg a) (magPattern a) = a := by
  apply BitVec.eq_of_toNat_eq
  rw [toNat_pack (magPattern_lt a), isNeg_eq, magPattern]
  simp only [decide_eq_true_eq]
  split <;> omega

theorem isFinite_iff {a : Word} : isFinite a = true ↔ magPattern a < 0x7F800000 := by
  have := magPattern_lt a
  simp only [isFinite, expField_eq, bne_iff_ne]
  omega

theorem isInf_iff {a : Word} : isInf a = true ↔ magPattern a = 0x7F800000 := by
  have := magPattern_lt a
  simp only [isInf, expField_eq, fracField_eq, Bool.and_eq_true, beq_iff_eq]
  omega

theorem isNaN_iff {a : Word} : isNaN a = true ↔ 0x7F800000 < magPattern a := by
  have := magPattern_lt a
  simp only [isNaN, expField_eq, fracField_eq, Bool.and_eq_true, beq_iff_eq, bne_iff_ne]
  omega

theorem isZero_iff {a : Word} : isZero a = true ↔ magPattern a = 0 := by
  simp only [isZero, expField_eq, fracField_eq, Bool.and_eq_true, beq_iff_eq]
  omega

@[simp] theorem getLsbD_zero_eq (a : Word) : a.getLsbD 0 = decide (magPattern a % 2 = 1) := by
  rw [BitVec.getLsbD, Nat.testBit_zero, magPattern, Nat.mod_mod_of_dvd _ (by norm_num)]

theorem fneg_pack (s : Bool) {m : Nat} (hm : m < 2 ^ 31) : fneg (pack s m) = pack (!s) m := by
  rw [← pack_isNeg_magPattern (fneg (pack s m)), isNeg_fneg, isNeg_pack hm]
  congr 1
  have he := expField_fneg (pack s m)
  have hf := fracField_fneg (pack s m)
  rw [expField_eq, expField_eq, magPattern_pack hm] at he
  rw [fracField_eq, fracField_eq, magPattern_pack hm] at hf
  omega

/-- |val a| is the magnitude of the pattern. -/
theorem abs_val (a : Word) : |(val a : ℝ)| = magUnits (magPattern a) / 2 ^ 149 := by
  have hm : (magVal a : ℝ) = magUnits (magPattern a) / 2 ^ 149 := by
    rw [magVal_eq]
    push_cast
    rfl
  have hnonneg : (0 : ℝ) ≤ magUnits (magPattern a) / 2 ^ 149 := by positivity
  cases hs : isNeg a <;> simp [val, hs, hm, abs_of_nonneg hnonneg]

/-- A distance, in units of 2^−149. -/
theorem abs_sub_units (x : ℝ) (j : Nat) : |x - magUnits j / 2 ^ 149| = |x * 2 ^ 149 - magUnits j| / 2 ^ 149 := by
  have hunit : (0 : ℝ) < 2 ^ 149 := by positivity
  rw [← abs_of_pos hunit, ← abs_div, abs_of_pos hunit]
  congr 1
  field_simp

/-- A positive number is at least as near to a word's magnitude as to the word. -/
theorem abs_sub_magnitude_le {x : ℝ} (hx : 0 < x) (v : Word) :
    |x - magUnits (magPattern v) / 2 ^ 149| ≤ |x - val v| := by
  simpa only [abs_of_pos hx, abs_val] using abs_abs_sub_abs_le_abs_sub x (val v)

/-- No word's value is nearer to x > 0 than the one of the pattern x rounds to. -/
theorem RoundsTo.val_nearest {x : ℝ} {m : Nat} {w : Word} (hx : 0 < x) (h : RoundsTo (x * 2 ^ 149) m)
    (hw : (val w : ℝ) = magUnits m / 2 ^ 149) (v : Word) : |x - val w| ≤ |x - val v| := by
  rw [hw]
  refine le_trans ?_ (abs_sub_magnitude_le hx v)
  obtain he | he := eq_or_ne (magPattern v) m
  · rw [he]
  · rw [abs_sub_units, abs_sub_units, div_le_div_iff_of_pos_right (by positivity)]
    exact (h.nearest he).1

/-- Where another value is as near, the pattern x > 0 rounds to is even. -/
theorem RoundsTo.even_of_tie {x : ℝ} {m : Nat} {w v : Word} (hx : 0 < x) (h : RoundsTo (x * 2 ^ 149) m)
    (hw : (val w : ℝ) = magUnits m / 2 ^ 149) (hv : val v ≠ val w) (htie : |x - val v| = |x - val w|) : Even m := by
  obtain he | he := eq_or_ne (magPattern v) m
  · have habs : |(val v : ℝ)| = val w := by rw [abs_val, he, hw]
    have hzero : (val w : ℝ) = 0 := by
      obtain hp | hn := eq_or_eq_neg_of_abs_eq habs
      · exact absurd (Rat.cast_injective hp) hv
      · rw [hn] at htie
        obtain hc | hc := abs_eq_abs.1 htie <;> linarith
    rw [hzero, abs_eq_zero, ← hzero] at habs
    exact absurd (Rat.cast_injective habs) hv
  · have hle := abs_sub_magnitude_le hx v
    rw [htie, hw, abs_sub_units, abs_sub_units, div_le_div_iff_of_pos_right (by positivity)] at hle
    exact (h.nearest he).2 (hle.antisymm (h.nearest he).1)

/-- The word of the pattern a positive number rounds to, infinity from 0x7F800000 on, is the number rounded. -/
theorem isRN_pack {x : ℝ} {m : Nat} (hx : 0 < x) (h : RoundsTo (x * 2 ^ 149) m) :
    IsRN x (pack false (min m 0x7F800000)) := by
  have hmin : min m 0x7F800000 < 2 ^ 31 := by omega
  rw [IsRN, abs_of_pos hx, isNeg_pack hmin]
  refine ⟨by simp [hx.le], fun hbig => ?_, fun hsmall => ?_⟩
  · have := h.inf_le (by gcongr)
    rw [isInf_iff, magPattern_pack hmin]
    omega
  · have hm := h.lt_inf (by gcongr)
    rw [min_eq_left hm.le] at hmin ⊢
    have hw : (val (pack false m) : ℝ) = magUnits m / 2 ^ 149 := by
      rw [val_of_not_isNeg (isNeg_pack hmin), magPattern_pack hmin]
    refine ⟨?_, fun v _ => h.val_nearest hx hw v, fun v _ hv htie => ?_⟩
    · rw [isFinite_iff, magPattern_pack hmin]
      exact hm
    · rw [getLsbD_zero_eq, magPattern_pack hmin]
      simpa [Nat.even_iff] using h.even_of_tie hx hw hv htie

end Sys2Proof.Machine

namespace Sys2Proof.Machine

/-! ## RN finds the pattern (spec/40_numerics.md R181, R182) -/

/-- The pattern of `roundMag` before it is held to infinity's. -/
def roundPattern (num den : Nat) : Nat :=
  spacingExp num den * 2 ^ 23 + roundHalfEven num (den * 2 ^ spacingExp num den)

theorem roundMag_eq (num den : Nat) : roundMag num den = min (roundPattern num den) 0x7F800000 := rfl

theorem roundMag_lt (num den : Nat) : roundMag num den < 2 ^ 31 := by
  rw [roundMag_eq]
  omega

/-- The floor of n in units of the spacing has 24 bits, or fewer where the spacing is the smallest. -/
theorem spacing_quotient (n : Nat) :
    n / 2 ^ (Nat.log2 n - 23) < 2 ^ 24 ∧ (Nat.log2 n - 23 = 0 ∨ 2 ^ 23 ≤ n / 2 ^ (Nat.log2 n - 23)) := by
  constructor
  · rw [Nat.div_lt_iff_lt_mul (by positivity), ← pow_add]
    exact Nat.lt_log2_self.trans_le (Nat.pow_le_pow_right (by norm_num) (by omega))
  · obtain h | h := Nat.eq_zero_or_pos (Nat.log2 n - 23)
    · exact .inl h
    · have hn : n ≠ 0 := by rintro rfl; simp at h
      rw [Nat.le_div_iff_mul_le (by positivity), ← pow_add, show 23 + (Nat.log2 n - 23) = Nat.log2 n by omega]
      exact .inr (Nat.log2_self_le hn)

theorem le_roundHalfEven (num d : Nat) : num / d ≤ roundHalfEven num d := by
  unfold roundHalfEven
  split <;> omega

theorem roundHalfEven_le (num d : Nat) : roundHalfEven num d ≤ num / d + 1 := by
  unfold roundHalfEven
  split <;> omega

/-- `roundHalfEven` is within half a unit of the quotient, and even at half a unit. -/
theorem roundHalfEven_spec (num : Nat) {d : Nat} (hd : 0 < d) :
    2 * num ≤ (2 * roundHalfEven num d + 1) * d ∧ 2 * roundHalfEven num d * d ≤ 2 * num + d ∧
    (2 * num = (2 * roundHalfEven num d + 1) * d ∨ 2 * roundHalfEven num d * d = 2 * num + d →
      roundHalfEven num d % 2 = 0) := by
  have hq := Nat.div_add_mod num d
  have hr := Nat.mod_lt num hd
  unfold roundHalfEven
  generalize num / d = q, num % d = r at *
  have down : (2 * q + 1) * d = 2 * (d * q) + d ∧ 2 * q * d = 2 * (d * q) := by constructor <;> ring
  have up : (2 * (q + 1) + 1) * d = 2 * (d * q) + 3 * d ∧ 2 * (q + 1) * d = 2 * (d * q) + 2 * d := by
    constructor <;> ring
  split
  · rw [up.1, up.2]
    omega
  · rw [down.1, down.2]
    omega

/-- Pattern k · 2^23 + t stands for t units of 2^k, carries into the next exponent included. -/
theorem magUnits_spaced {k t : Nat} (ht : t ≤ 2 ^ 24) (hk : k = 0 ∨ 2 ^ 23 ≤ t) :
    magUnits (k * 2 ^ 23 + t) = t * 2 ^ k := by
  obtain h | ⟨h, hlt⟩ | rfl : t < 2 ^ 23 ∨ (2 ^ 23 ≤ t ∧ t < 2 ^ 24) ∨ t = 2 ^ 24 := by omega
  · obtain rfl : k = 0 := by omega
    rw [zero_mul, zero_add, pow_zero, mul_one, magUnits, if_pos (Nat.div_eq_of_lt h), Nat.mod_eq_of_lt h]
  · have hd : (k * 2 ^ 23 + t) / 2 ^ 23 = k + 1 := by omega
    have hm : 2 ^ 23 + (k * 2 ^ 23 + t) % 2 ^ 23 = t := by omega
    rw [magUnits, hd, hm, if_neg (Nat.succ_ne_zero k), Nat.add_sub_cancel]
  · have hd : (k * 2 ^ 23 + 2 ^ 24) / 2 ^ 23 = k + 2 := by omega
    have hm : (k * 2 ^ 23 + 2 ^ 24) % 2 ^ 23 = 0 := by omega
    rw [magUnits, hd, hm, if_neg (Nat.succ_ne_zero _), show k + 2 - 1 = k + 1 by omega, pow_succ]
    ring

/-- The upper boundary of pattern k · 2^23 + t lies at least half a unit of 2^k above it. -/
theorem le_boundaryAbove_spaced {k t : Nat} (ht : t ≤ 2 ^ 24) (hk : k = 0 ∨ 2 ^ 23 ≤ t) :
    (2 * t + 1) * 2 ^ k ≤ boundaryAbove (k * 2 ^ 23 + t) := by
  have hsucc : (t + 1) * 2 ^ k ≤ magUnits (k * 2 ^ 23 + t + 1) := by
    obtain hlt | rfl := ht.lt_or_eq
    · rw [add_assoc, magUnits_spaced hlt (by omega)]
    · rw [show k * 2 ^ 23 + 2 ^ 24 + 1 = (k + 1) * 2 ^ 23 + (2 ^ 23 + 1) by ring,
        magUnits_spaced (by norm_num) (by norm_num), pow_succ]
      omega
  rw [boundaryAbove, magUnits_spaced ht hk]
  linarith

/-- The lower boundary of pattern k · 2^23 + t is half a unit of 2^k below it, where t is not the least significand. -/
theorem boundaryBelow_spaced {k t : Nat} (ht : t ≤ 2 ^ 24) (h0 : 0 < t) (hk : k = 0 ∨ 2 ^ 23 < t) :
    boundaryBelow (k * 2 ^ 23 + t) + 2 ^ k = 2 * t * 2 ^ k := by
  obtain ⟨u, rfl⟩ := Nat.exists_eq_succ_of_ne_zero h0.ne'
  rw [boundaryBelow, magUnits_spaced ht (by omega), show k * 2 ^ 23 + u.succ - 1 = k * 2 ^ 23 + u by omega,
    magUnits_spaced (by omega) (by omega), Nat.succ_eq_add_one]
  ring

/-- A fraction is held against the boundaries in integers. -/
theorem roundsTo_div {num den m : Nat} (hden : 0 < den) (hlo : boundaryBelow m * den ≤ 2 * num)
    (hhi : 2 * num ≤ boundaryAbove m * den)
    (heven : boundaryBelow m * den = 2 * num ∨ 2 * num = boundaryAbove m * den → Even m) :
    RoundsTo ((num : ℝ) / den) m := by
  have hden' : (0 : ℝ) < den := by exact_mod_cast hden
  simp only [RoundsTo, ← mul_div_assoc, le_div_iff₀ hden', div_le_iff₀ hden', div_eq_iff hden'.ne']
  refine ⟨mod_cast hlo, mod_cast hhi, fun h => heven ?_⟩
  exact h.imp (fun h => by exact_mod_cast Eq.symm h) fun h => by exact_mod_cast h

/-- num/den, in units of 2^−149, rounds to the pattern `roundMag` finds. -/
theorem roundsTo_roundPattern (num : Nat) {den : Nat} (hden : 0 < den) :
    RoundsTo ((num : ℝ) / den) (roundPattern num den) := by
  obtain ⟨hq, hk⟩ := spacing_quotient (num / den)
  rw [Nat.div_div_eq_div_mul, ← spacingExp] at hq hk
  rw [roundPattern]
  generalize spacingExp num den = k at *
  obtain ⟨hhi, hlo, heven⟩ := roundHalfEven_spec num (d := den * 2 ^ k) (by positivity)
  have hle := le_roundHalfEven num (den * 2 ^ k)
  have hge := roundHalfEven_le num (den * 2 ^ k)
  have hfloor := Nat.div_mul_le_self num (den * 2 ^ k)
  generalize roundHalfEven num (den * 2 ^ k) = t at *
  have ht : t ≤ 2 ^ 24 := by omega
  have hk' : k = 0 ∨ 2 ^ 23 ≤ t := by omega
  have even_of_even (h : t % 2 = 0) : Even (k * 2 ^ 23 + t) := by rw [Nat.even_iff]; omega
  have above : (2 * t + 1) * (den * 2 ^ k) ≤ boundaryAbove (k * 2 ^ 23 + t) * den := by
    rw [mul_left_comm, mul_comm den]
    exact Nat.mul_le_mul_right den (le_boundaryAbove_spaced ht hk')
  have below : boundaryBelow (k * 2 ^ 23 + t) * den ≤ 2 * num ∧
      (boundaryBelow (k * 2 ^ 23 + t) * den = 2 * num → t % 2 = 0) := by
    obtain rfl | h0 := Nat.eq_zero_or_pos t
    · obtain rfl : k = 0 := by omega
      simp [boundaryBelow, magUnits_zero]
    by_cases hfirst : k = 0 ∨ 2 ^ 23 < t
    · have hb : boundaryBelow (k * 2 ^ 23 + t) * den + den * 2 ^ k = 2 * t * (den * 2 ^ k) := by
        linear_combination den * boundaryBelow_spaced ht h0 hfirst
      exact ⟨by omega, fun h => heven (.inr (by omega))⟩
    · obtain rfl : t = 2 ^ 23 := by omega
      have hb : boundaryBelow (k * 2 ^ 23 + 2 ^ 23) < 2 * (2 ^ 23 * 2 ^ k) := by
        have hm := magUnits_spaced ht hk'
        have hlt := magUnits_strictMono (show k * 2 ^ 23 + 2 ^ 23 - 1 < k * 2 ^ 23 + 2 ^ 23 by omega)
        rw [boundaryBelow]
        omega
      have hq : 2 ^ 23 * (den * 2 ^ k) ≤ num := (Nat.mul_le_mul_right _ (by omega)).trans hfloor
      have hlt : boundaryBelow (k * 2 ^ 23 + 2 ^ 23) * den < 2 * num := by
        calc _ < 2 * (2 ^ 23 * 2 ^ k) * den := Nat.mul_lt_mul_of_pos_right hb hden
          _ = 2 * (2 ^ 23 * (den * 2 ^ k)) := by ring
          _ ≤ 2 * num := Nat.mul_le_mul_left 2 hq
      exact ⟨hlt.le, fun h => absurd h hlt.ne⟩
  exact roundsTo_div hden below.1 (hhi.trans above) fun h => even_of_even <|
    h.elim below.2 fun h => heven (.inl (hhi.antisymm (h ▸ above)))

/-- The word `roundMag` gives for num/den > 0, in units of 2^−149, is it rounded. -/
theorem isRN_roundMag {x : ℝ} {num den : Nat} (hden : 0 < den) (hnum : 0 < num)
    (hx : x * 2 ^ 149 = num / den) : IsRN x (pack false (roundMag num den)) := by
  have hpos : 0 < x * 2 ^ 149 := by rw [hx]; positivity
  exact isRN_pack (pos_of_mul_pos_left hpos (by positivity)) (hx ▸ roundsTo_roundPattern num hden)

theorem rnMag_neg (x : ℚ) : rnMag (-x) = rnMag x := by
  simp [rnMag]

/-- RN changes the sign with its operand's, zero excepted. -/
theorem RN_neg {x : ℚ} (hx : x ≠ 0) : RN (-x) = fneg (RN x) := by
  rw [RN, RN, rnMag_neg, fneg_pack _ (show rnMag x < 2 ^ 31 from roundMag_lt _ _)]
  congr 1
  obtain h | h := hx.lt_or_gt <;> simp [h, h.not_gt]

/-- RN of a positive rational is it rounded. -/
theorem isRN_RN_of_pos {x : ℚ} (hx : 0 < x) : IsRN (x : ℝ) (RN x) := by
  have hnum : (x.num.natAbs : ℝ) = x.num := by
    rw [Nat.cast_natAbs, abs_of_nonneg (Rat.num_nonneg.2 hx.le)]
  rw [RN, decide_eq_false hx.not_gt, rnMag]
  refine isRN_roundMag x.den_pos (by have := Rat.num_pos.2 hx; positivity) ?_
  rw [Rat.cast_def x, ← hnum, Nat.cast_mul, Nat.cast_pow, Nat.cast_ofNat, div_mul_eq_mul_div]

/-- RN of a nonzero rational is it rounded. -/
theorem isRN_RN {x : ℚ} (hx : x ≠ 0) : IsRN (x : ℝ) (RN x) := by
  obtain h | h := hx.lt_or_gt
  · have hpos := neg_pos.2 h
    have hneg := isRN_fneg (isRN_RN_of_pos hpos) (by exact_mod_cast hpos)
    rwa [← RN_neg hpos.ne', neg_neg, Rat.cast_neg, neg_neg] at hneg
  · exact isRN_RN_of_pos h

/-- Settles O51: the pattern RN computes is the one whose boundaries the number lies between; a negative number rounds
as its negation does. -/
theorem rnIsNearestTiesToEven : Obligations.RnIsNearestTiesToEven := fun _ hx => isRN_RN hx

end Sys2Proof.Machine

namespace Sys2Proof.Machine

/-! ## Classes of words (spec/40_numerics.md R180) -/

theorem isInf_iff_eq {a : Word} : isInf a = true ↔ a = plusInf ∨ a = minusInf := by
  constructor
  · intro h
    rw [← pack_isNeg_magPattern a, isInf_iff.1 h]
    cases isNeg a
    · exact .inl rfl
    · exact .inr rfl
  · rintro (rfl | rfl) <;> rfl

/-- An infinity is no NaN and no zero. -/
theorem class_of_isInf {a : Word} (h : isInf a = true) : isNaN a = false ∧ isZero a = false := by
  simp only [Bool.eq_false_iff, ne_eq, isNaN_iff, isZero_iff]
  rw [isInf_iff] at h
  omega

/-- A finite word is no NaN and no infinity. -/
theorem class_of_isFinite {a : Word} (h : isFinite a = true) : isNaN a = false ∧ isInf a = false := by
  simp only [Bool.eq_false_iff, ne_eq, isNaN_iff, isInf_iff]
  rw [isFinite_iff] at h
  omega

theorem ne_inf_of_isFinite {a : Word} (h : isFinite a = true) : a ≠ plusInf ∧ a ≠ minusInf := by
  rw [← not_or, ← isInf_iff_eq, (class_of_isFinite h).2]
  exact Bool.false_ne_true

theorem isFinite_of_isZero {a : Word} (h : isZero a = true) : isFinite a = true := by
  rw [isZero_iff] at h
  rw [isFinite_iff]
  omega

theorem isFinite_of_class {a : Word} (hn : isNaN a = false) (hi : isInf a = false) : isFinite a = true := by
  simp only [Bool.eq_false_iff, ne_eq, isNaN_iff, isInf_iff] at hn hi
  rw [isFinite_iff]
  omega

theorem magUnits_pos {m : Nat} (h : 0 < m) : 0 < magUnits m := magUnits_zero ▸ magUnits_strictMono h

theorem magPattern_pos {a : Word} (h : isZero a = false) : 0 < magPattern a := by
  rw [Bool.eq_false_iff, ne_eq, isZero_iff] at h
  omega

theorem magVal_pos {a : Word} (h : isZero a = false) : 0 < magVal a := by
  have := magUnits_pos (magPattern_pos h)
  rw [magVal_eq]
  positivity

theorem val_eq_zero_iff {a : Word} : val a = 0 ↔ isZero a = true := by
  constructor
  · intro h
    by_contra hz
    rw [Bool.not_eq_true] at hz
    have hpos := magVal_pos hz
    cases hs : isNeg a <;> simp [val, hs, hpos.ne'] at h
  · intro h
    simp [val, magVal_eq, isZero_iff.1 h, magUnits_zero]

/-! ## The sum (spec/40_numerics.md R184) -/

theorem fadd_of_isNaN {a b : Word} (h : isNaN a = true ∨ isNaN b = true) : fadd a b = canonicalNaN := by
  simp [fadd, h]

/-- An infinite first operand is the sum, unless the other is the opposite infinity. -/
theorem fadd_of_isInf_left {a b : Word} (ha : isInf a = true) (hb : isNaN b = false) :
    fadd a b = if isInf b = true ∧ b ≠ a then canonicalNaN else a := by
  have opposite : (a = plusInf ∧ b = minusInf) ∨ (a = minusInf ∧ b = plusInf) ↔ isInf b = true ∧ b ≠ a := by
    rw [isInf_iff_eq]
    obtain rfl | rfl := isInf_iff_eq.1 ha <;> simp [plusInf, minusInf] <;> grind
  simp [fadd, (class_of_isInf ha).1, hb, opposite, ha]

theorem fadd_of_isInf_right {a b : Word} (ha : isFinite a = true) (hb : isInf b = true) : fadd a b = b := by
  obtain ⟨hna, hia⟩ := class_of_isFinite ha
  simp [fadd, hna, (class_of_isInf hb).1, ne_inf_of_isFinite ha, hia, hb]

theorem fadd_of_isFinite {a b : Word} (ha : isFinite a = true) (hb : isFinite b = true) :
    fadd a b = if val a + val b = 0 then (if a = minusZero ∧ b = minusZero then minusZero else 0)
      else RN (val a + val b) := by
  obtain ⟨hna, hia⟩ := class_of_isFinite ha
  obtain ⟨hnb, hib⟩ := class_of_isFinite hb
  simp [fadd, hna, hnb, ne_inf_of_isFinite ha, hia, hib]

/-- Settles O52: one lemma for each class of operands; the exact sum is rounded by `isRN_RN`. -/
theorem sumFollowsItsRule : Obligations.SumFollowsItsRule := by
  refine ⟨fun a b => ⟨fadd_of_isNaN, fun hb ha => fadd_of_isInf_left ha hb, fadd_of_isInf_right, fun ha hb => ?_⟩,
    fun _ _ => rfl⟩
  rw [fadd_of_isFinite ha hb]
  exact ⟨fun h => by rw [if_pos h]; rfl, fun h => by rw [if_neg h]; exact isRN_RN h⟩

/-! ## Product and quotient (spec/40_numerics.md R185, R186) -/

theorem signedZero_eq (s : Bool) : signedZero s = if s = true then 0x80000000 else 0 := by
  cases s <;> rfl

theorem signedInf_eq (s : Bool) : signedInf s = if s = true then 0xFF800000 else 0x7F800000 := by
  cases s <;> rfl

/-- An underflow to a zero of the sign the exact result has is what RN gives (R182). -/
theorem signedZero_eq_RN {x : ℚ} (h : rnMag x = 0) : signedZero (decide (x < 0)) = RN x := by
  rw [RN, h, signedZero]

/-- The product of two nonzero values has the exclusive or of the signs. -/
theorem mul_val_neg {a b : Word} (ha : isZero a = false) (hb : isZero b = false) :
    decide (val a * val b < 0) = (isNeg a ^^ isNeg b) := by
  have ha' := magVal_pos ha
  have hb' := magVal_pos hb
  cases hsa : isNeg a <;> cases hsb : isNeg b <;> simp [val, hsa, hsb, mul_pos ha' hb', (mul_pos ha' hb').le]

/-- A quotient has the product's sign. -/
theorem div_val_neg {a b : Word} (ha : isZero a = false) (hb : isZero b = false) :
    decide (val a / val b < 0) = (isNeg a ^^ isNeg b) := by
  rw [← mul_val_neg ha hb]
  simp only [div_neg_iff, mul_neg_iff]

theorem fmul_of_isFinite {a b : Word} (ha : isFinite a = true) (hb : isFinite b = true) :
    fmul a b = if val a * val b = 0 then signedZero (isNeg a ^^ isNeg b) else RN (val a * val b) := by
  obtain ⟨hna, hia⟩ := class_of_isFinite ha
  obtain ⟨hnb, hib⟩ := class_of_isFinite hb
  simp only [fmul, hna, hnb, hia, hib, Bool.false_and, Bool.and_false, Bool.or_self, Bool.false_eq_true, if_false]
  by_cases h : val a * val b = 0
  · rw [if_pos (.inl h), if_pos h]
  · rw [if_neg h]
    split
    next hz =>
      obtain ⟨h0, h1⟩ := mul_ne_zero_iff.1 h
      rw [← mul_val_neg (by simpa [val_eq_zero_iff] using h0) (by simpa [val_eq_zero_iff] using h1)]
      exact signedZero_eq_RN (hz.resolve_left h)
    next => rfl

theorem fdiv_of_isFinite {a b : Word} (ha : isFinite a = true) (hb : isFinite b = true) (hb0 : isZero b = false) :
    fdiv a b = if isZero a = true then signedZero (isNeg a ^^ isNeg b) else RN (val a / val b) := by
  obtain ⟨hna, hia⟩ := class_of_isFinite ha
  obtain ⟨hnb, hib⟩ := class_of_isFinite hb
  have hvb : val b ≠ 0 := by rw [ne_eq, val_eq_zero_iff, hb0]; exact Bool.false_ne_true
  simp only [fdiv, hna, hnb, hia, hib, hb0, Bool.and_false, Bool.or_self, Bool.false_eq_true, if_false,
    div_eq_zero_iff, hvb, or_false, val_eq_zero_iff]
  cases hz : isZero a with
  | true => simp
  | false =>
    simp only [Bool.false_eq_true, false_or, if_false]
    split
    next h => rw [← div_val_neg hz hb0, signedZero_eq_RN h]
    next => rfl

/-- Settles O53: the special cases are branches of the definitions; finite operands go through the two lemmas above. -/
theorem productAndQuotientFollowTheirRules : Obligations.ProductAndQuotientFollowTheirRules := by
  intro a b
  simp only [← signedZero_eq, ← signedInf_eq]
  refine ⟨fun h => ?_, fun ha hb => ?_, fun ha hb => ?_, fun ha hb hb0 => ?_, fun ha hb => ?_, fun ha hb => ?_,
    fun ha ha0 hb => ?_, fun ha hb => ⟨fun h => ?_, fun h => ?_, fun ha0 hb0 => ?_, fun ha0 hb0 => ?_⟩⟩
  · simp [fmul, fdiv, h, canonicalNaN]
  · simp [fmul, fdiv, ha, hb, class_of_isInf ha, class_of_isFinite (isFinite_of_isZero hb), canonicalNaN]
  · simp [fmul, fdiv, ha, hb, class_of_isInf ha, class_of_isInf hb, canonicalNaN]
  · simp [fmul, fdiv, ha, hb0, class_of_isInf ha, class_of_isFinite hb, Bool.xor_comm (isNeg b)]
  · simp [fdiv, hb, class_of_isInf hb, class_of_isFinite ha]
  · simp [fdiv, ha, hb, class_of_isFinite (isFinite_of_isZero ha), class_of_isFinite (isFinite_of_isZero hb),
      canonicalNaN]
  · simp [fdiv, ha0, hb, class_of_isFinite ha, class_of_isFinite (isFinite_of_isZero hb)]
  · rw [fmul_of_isFinite ha hb, if_pos h]
  · rw [fmul_of_isFinite ha hb, if_neg h]
    exact isRN_RN h
  · rw [fdiv_of_isFinite ha hb hb0, if_pos ha0]
  · rw [fdiv_of_isFinite ha hb hb0, ha0, if_neg Bool.false_ne_true]
    refine isRN_RN (div_ne_zero ?_ ?_) <;> simp [val_eq_zero_iff, ha0, hb0]

end Sys2Proof.Machine

namespace Sys2Proof.Machine

/-! ## NaNs (spec/40_numerics.md R183) -/

/-- A word that is 0x7FC00000 if it is a NaN. -/
def CanonicalIfNaN (w : Word) : Prop := isNaN w = true → w = canonicalNaN

theorem canonicalIfNaN_canonicalNaN : CanonicalIfNaN canonicalNaN := fun _ => rfl

theorem CanonicalIfNaN.of_not_isNaN {w : Word} (h : isNaN w = false) : CanonicalIfNaN w :=
  fun hn => absurd (h.symm.trans hn) Bool.false_ne_true

theorem canonicalIfNaN_pack (s : Bool) {m : Nat} (h : m ≤ 0x7F800000) : CanonicalIfNaN (pack s m) :=
  .of_not_isNaN (by rw [Bool.eq_false_iff, ne_eq, isNaN_iff, magPattern_pack (by omega)]; omega)

theorem canonicalIfNaN_RN (x : ℚ) : CanonicalIfNaN (RN x) := canonicalIfNaN_pack _ (min_le_right _ _)

theorem canonicalIfNaN_signedZero (s : Bool) : CanonicalIfNaN (signedZero s) := canonicalIfNaN_pack s (by norm_num)

theorem canonicalIfNaN_signedInf (s : Bool) : CanonicalIfNaN (signedInf s) := canonicalIfNaN_pack s le_rfl

theorem canonicalIfNaN_fadd (a b : Word) : CanonicalIfNaN (fadd a b) := by
  unfold fadd
  split
  · exact canonicalIfNaN_canonicalNaN
  next hn =>
    obtain ⟨hna, hnb⟩ : isNaN a = false ∧ isNaN b = false := by simpa using hn
    split
    · exact canonicalIfNaN_canonicalNaN
    split
    · exact .of_not_isNaN hna
    split
    · exact .of_not_isNaN hnb
    split
    · split
      · exact canonicalIfNaN_signedZero true
      · exact canonicalIfNaN_signedZero false
    · exact canonicalIfNaN_RN _

theorem canonicalIfNaN_fmul (a b : Word) : CanonicalIfNaN (fmul a b) := by
  unfold fmul
  extract_lets s
  split
  · exact canonicalIfNaN_canonicalNaN
  split
  · exact canonicalIfNaN_canonicalNaN
  split
  · exact canonicalIfNaN_signedInf _
  split
  · exact canonicalIfNaN_signedZero _
  · exact canonicalIfNaN_RN _

theorem canonicalIfNaN_fdiv (a b : Word) : CanonicalIfNaN (fdiv a b) := by
  unfold fdiv
  extract_lets s
  split
  · exact canonicalIfNaN_canonicalNaN
  split
  · exact canonicalIfNaN_canonicalNaN
  split
  · exact canonicalIfNaN_signedInf _
  split
  · exact canonicalIfNaN_signedZero _
  split
  · exact canonicalIfNaN_signedInf _
  split
  · exact canonicalIfNaN_signedZero _
  · exact canonicalIfNaN_RN _

theorem canonicalIfNaN_fsqrt (a : Word) : CanonicalIfNaN (fsqrt a) := by
  unfold fsqrt
  split
  · exact canonicalIfNaN_canonicalNaN
  next hn =>
    split
    · exact .of_not_isNaN (by simpa using hn)
    split
    · exact canonicalIfNaN_canonicalNaN
    split
    · exact canonicalIfNaN_signedInf false
    · exact canonicalIfNaN_pack _ (min_le_right _ _)

/-- A result of `firstRounded` is RN of an end of an enclosure that settles the rounding. -/
theorem firstRounded_eq_some {f : Nat → Enclosure} {ps : List Nat} {w : Word} (h : firstRounded f ps = some w) :
    ∃ p, (f p).rounded = some w := by
  induction ps with
  | nil => simp [firstRounded] at h
  | cons p ps ih =>
    rw [firstRounded] at h
    split at h
    next hp => exact ⟨p, hp.trans h⟩
    next => exact ih h

/-- An enclosure settles the rounding where its ends have one sign and round alike. -/
theorem Enclosure.rounded_eq_some {e : Enclosure} {w : Word} (h : e.rounded = some w) :
    (0 < e.lo ∨ e.hi < 0) ∧ RN e.lo = w ∧ RN e.hi = w := by
  unfold Enclosure.rounded at h
  split at h
  next hc =>
    cases h
    exact ⟨hc.1, rfl, hc.2.symm⟩
  next => cases h

theorem canonicalIfNaN_roundEnclosed (up : Bool) (f : Nat → Enclosure) : CanonicalIfNaN (roundEnclosed up f) := by
  unfold roundEnclosed
  split
  next w h =>
    obtain ⟨p, hp⟩ := firstRounded_eq_some h
    rw [← (Enclosure.rounded_eq_some hp).2.1]
    exact canonicalIfNaN_RN _
  next => split <;> exact canonicalIfNaN_RN _

theorem canonicalIfNaN_COSF (a : Word) : CanonicalIfNaN (COSF a) := by
  unfold COSF
  split
  · exact canonicalIfNaN_canonicalNaN
  split
  · exact .of_not_isNaN rfl
  · exact canonicalIfNaN_roundEnclosed _ _

theorem canonicalIfNaN_ATANF (a : Word) : CanonicalIfNaN (ATANF a) := by
  unfold ATANF
  split
  · exact canonicalIfNaN_canonicalNaN
  next hn =>
    split
    · exact .of_not_isNaN (by simpa using hn)
    split
    · exact .of_not_isNaN rfl
    split
    · exact .of_not_isNaN rfl
    · exact canonicalIfNaN_roundEnclosed _ _

theorem canonicalIfNaN_LOG10F (a : Word) : CanonicalIfNaN (LOG10F a) := by
  unfold LOG10F
  split
  · exact canonicalIfNaN_canonicalNaN
  split
  · exact canonicalIfNaN_signedInf true
  split
  · exact canonicalIfNaN_canonicalNaN
  split
  · exact canonicalIfNaN_signedInf false
  split
  · exact canonicalIfNaN_signedZero false
  · exact canonicalIfNaN_roundEnclosed _ _

theorem fneg_getLsbD (a : Word) {i : Nat} (hi : i < 32) :
    (fneg a).getLsbD i = if i = 31 then !(a.getLsbD 31) else a.getLsbD i := by
  rw [fneg, BitVec.getLsbD_xor, show (0x80000000 : Word) = BitVec.twoPow 32 31 from rfl, BitVec.getLsbD_twoPow]
  by_cases h : i = 31
  · subst h
    simp
  · simp [h, Ne.symm h]

/-- Settles O55: every branch is a NaN of the rule, a rounded number, a signed zero or infinity, or an operand
that is no NaN. -/
theorem naNResultsAreCanonical : Obligations.NaNResultsAreCanonical :=
  ⟨fun a b => ⟨canonicalIfNaN_fadd a b, canonicalIfNaN_fadd a (fneg b), canonicalIfNaN_fmul a b,
      canonicalIfNaN_fdiv a b⟩,
    fun a => ⟨canonicalIfNaN_fsqrt a, canonicalIfNaN_COSF a, canonicalIfNaN_ATANF a, canonicalIfNaN_LOG10F a,
      fun _ => fneg_getLsbD a⟩⟩

/-! ## Special operands and comparison (spec/40_numerics.md R190 to R193) -/

/-- Settles O58: each case is a branch of the definitions. -/
theorem transcendentalSpecialCases : Obligations.TranscendentalSpecialCases := by
  intro a
  refine ⟨fun h => ?_, fun h => ?_, fun h => ?_, fun hs hz => ?_, rfl⟩
  · simp [COSF, ATANF, LOG10F, h, canonicalNaN]
  · obtain rfl | rfl := isInf_iff_eq.1 h
    · exact ⟨rfl, rfl, rfl⟩
    · exact ⟨rfl, rfl, rfl⟩
  · obtain ⟨hn, hi⟩ := class_of_isFinite (isFinite_of_isZero h)
    simp [COSF, ATANF, LOG10F, h, hn, hi, minusInf]
  · simp [LOG10F, hs, hz, canonicalNaN]

theorem flt_of_isFinite {a b : Word} (ha : isFinite a = true) (hb : isFinite b = true) :
    flt a b = decide (val a < val b) := by
  simp [flt, class_of_isFinite ha, class_of_isFinite hb]

/-- −∞ lies below every finite value, +∞ below none. -/
theorem flt_of_isInf_left {a b : Word} (ha : isInf a = true) (hb : isFinite b = true) : flt a b = isNeg a := by
  simp [flt, ha, class_of_isInf ha, class_of_isFinite hb]

theorem flt_of_isInf_right {a b : Word} (ha : isFinite a = true) (hb : isInf b = true) : flt a b = !isNeg b := by
  simp [flt, hb, class_of_isInf hb, class_of_isFinite ha]

theorem flt_self (a : Word) : flt a a = false := by
  cases hn : isNaN a with
  | true => simp [flt, hn]
  | false =>
    cases hi : isInf a with
    | true =>
      obtain rfl | rfl := isInf_iff_eq.1 hi
      · rfl
      · rfl
    | false => simp [flt_of_isFinite (isFinite_of_class hn hi) (isFinite_of_class hn hi)]

/-- Settles O59: one lemma for each pair of classes. -/
theorem quietComparisonOrdersValues : Obligations.QuietComparisonOrdersValues := by
  intro a b
  refine ⟨fun h => ?_, fun ha hb => ?_, fun hb => ?_, ?_, rfl, rfl, flt_self a⟩
  · simp [flt, h]
  · rw [flt_of_isFinite ha hb, decide_eq_true_iff]
  · exact ⟨flt_of_isInf_left rfl hb, flt_of_isInf_right hb rfl, flt_of_isInf_right hb rfl, flt_of_isInf_left rfl hb⟩
  · have hz : val 0x80000000 = 0 ∧ val 0 = 0 := ⟨val_eq_zero_iff.2 rfl, val_eq_zero_iff.2 rfl⟩
    rw [flt_of_isFinite rfl rfl, hz.1, hz.2]
    rfl

/-! ## Integers (spec/40_numerics.md R188) -/

/-- A number some finite word has as its value rounds to a word of that value. -/
theorem IsRN.val_eq {x : ℝ} {w v : Word} (h : IsRN x w) (hx : |x| < 2 ^ 128 - 2 ^ 103) (hf : isFinite v = true)
    (hv : (val v : ℝ) = x) : (val w : ℝ) = x := by
  have hle := (h.2.2 hx).2.1 v hf
  rw [hv, sub_self, abs_zero, abs_nonpos_iff] at hle
  linarith

/-- Every natural number up to 2^24 is the value of a word. -/
theorem exists_val_eq_natCast {n : Nat} (h0 : 0 < n) (h : n ≤ 2 ^ 24) :
    ∃ v : Word, isFinite v = true ∧ (val v : ℝ) = n := by
  obtain ⟨j, hj, hlo, hhi⟩ : ∃ j ≤ 23, 2 ^ 23 ≤ n * 2 ^ j ∧ n * 2 ^ j ≤ 2 ^ 24 := by
    refine ⟨23 - Nat.log2 n, by omega, ?_, ?_⟩
    · calc 2 ^ 23 ≤ 2 ^ (Nat.log2 n + (23 - Nat.log2 n)) := Nat.pow_le_pow_right (by norm_num) (by omega)
        _ ≤ n * 2 ^ (23 - Nat.log2 n) := by rw [pow_add]; exact Nat.mul_le_mul_right _ (Nat.log2_self_le h0.ne')
    · obtain hl | hl := Nat.lt_or_ge (Nat.log2 n) 24
      · calc n * 2 ^ (23 - Nat.log2 n) ≤ 2 ^ (Nat.log2 n + 1) * 2 ^ (23 - Nat.log2 n) :=
              Nat.mul_le_mul_right _ Nat.lt_log2_self.le
          _ = 2 ^ 24 := by rw [← pow_add]; congr 1; omega
      · rwa [show 23 - Nat.log2 n = 0 by omega, pow_zero, mul_one]
  have hm : (149 - j) * 2 ^ 23 + n * 2 ^ j < 2 ^ 31 := by omega
  refine ⟨pack false ((149 - j) * 2 ^ 23 + n * 2 ^ j), ?_, ?_⟩
  · rw [isFinite_iff, magPattern_pack hm]
    omega
  · rw [val_of_not_isNeg (isNeg_pack hm), magPattern_pack hm, magUnits_spaced hhi (.inr hlo), mul_assoc, ← pow_add,
      show j + (149 - j) = 149 by omega]
    rw [Nat.cast_mul, Nat.cast_pow, Nat.cast_ofNat, mul_div_cancel_right₀ _ (by positivity)]

theorem exists_val_eq_intCast {k : Int} (h0 : k ≠ 0) (h : |k| ≤ 2 ^ 24) :
    ∃ v : Word, isFinite v = true ∧ (val v : ℝ) = k := by
  rw [Int.abs_eq_natAbs] at h
  obtain ⟨v, hf, hv⟩ := exists_val_eq_natCast (n := k.natAbs) (by omega) (by omega)
  rw [Nat.cast_natAbs, Int.cast_abs] at hv
  obtain hk | hk := abs_cases (k : ℝ)
  · exact ⟨v, hf, hv.trans hk.1⟩
  · exact ⟨fneg v, (isFinite_fneg v).trans hf, by rw [val_fneg, Rat.cast_neg, hv, hk.1, neg_neg]⟩

theorem isRN_i2f {k : Int} (hk : k ≠ 0) : IsRN (k : ℝ) (i2f k) := by
  have h := isRN_RN (x := k) (by exact_mod_cast hk)
  rwa [Rat.cast_intCast] at h

theorem i2f_zero : i2f 0 = 0 := rfl

/-- Settles O56: up to 2^24 the integer is a word's value, so the nearest value is it. -/
theorem integersConvertExactly : Obligations.IntegersConvertExactly := by
  refine ⟨fun k => isRN_i2f, i2f_zero, fun k hlo hhi => ?_⟩
  obtain rfl | hk := eq_or_ne k 0
  · rw [i2f_zero]
    exact ⟨rfl, val_eq_zero_iff.2 rfl⟩
  have habs : |k| ≤ 2 ^ 24 := abs_le.2 ⟨hlo, hhi⟩
  have hsmall : |(k : ℝ)| < 2 ^ 128 - 2 ^ 103 := by
    have : |(k : ℝ)| ≤ 2 ^ 24 := by exact_mod_cast habs
    exact this.trans_lt (by norm_num)
  obtain ⟨v, hf, hv⟩ := exists_val_eq_intCast hk habs
  exact ⟨((isRN_i2f hk).2.2 hsmall).1, by exact_mod_cast (isRN_i2f hk).val_eq hsmall hf hv⟩

end Sys2Proof.Machine

namespace Sys2Proof.Machine

/-! ## The square root (spec/40_numerics.md R187) -/

/-- The loop of `isqrt` ends between the square root less one and the square root. -/
theorem isqrtFrom_spec {n : Nat} (i : Nat) {r : Nat} (hlo : r * r ≤ n) (hhi : n < (r + 2 ^ i) * (r + 2 ^ i)) :
    isqrtFrom n i r * isqrtFrom n i r ≤ n ∧ n < (isqrtFrom n i r + 1) * (isqrtFrom n i r + 1) := by
  induction i generalizing r with
  | zero => exact ⟨hlo, hhi⟩
  | succ i ih =>
    rw [isqrtFrom]
    split
    next h => exact ih h (by rwa [add_assoc, ← two_mul, ← pow_succ'])
    next h => exact ih hlo (not_le.1 h)

theorem isqrt_spec (n : Nat) : isqrt n * isqrt n ≤ n ∧ n < (isqrt n + 1) * (isqrt n + 1) := by
  refine isqrtFrom_spec _ (by simp) ?_
  rw [zero_add, ← pow_add]
  exact Nat.lt_log2_self.trans_le (Nat.pow_le_pow_right (by norm_num) (by omega))

/-- Where the spacing is 2 or more, in units of 2^−149, every value is even. -/
theorem even_magUnits {m : Nat} (h : 2 ^ 24 ≤ m) : Even (magUnits m) := by
  rw [magUnits, if_neg (by omega)]
  exact (even_two.pow_of_ne_zero (by omega)).mul_left _

/-- Far enough above zero the boundaries are even integers 2b, so all numbers strictly between two integers round as
the one halfway does. -/
theorem RoundsTo.of_halfway {y : ℝ} {q m : Nat} (hq : 2 ^ 26 ≤ q) (hlo : q < y) (hhi : y < q + 1)
    (h : RoundsTo ((2 * q + 1 : Nat) / (2 : Nat)) m) : RoundsTo y m := by
  have hhalf : 2 * (((2 * q + 1 : Nat) : ℝ) / (2 : Nat)) = ((2 * q + 1 : Nat) : ℝ) := by push_cast; ring
  obtain ⟨hb, ha, -⟩ := h
  rw [hhalf, Nat.cast_le] at hb ha
  have hm : 2 ^ 24 < m := by
    by_contra hc
    have := ha.trans (boundaryAbove_strictMono.monotone (not_lt.1 hc))
    rw [show boundaryAbove (2 ^ 24) = 2 ^ 24 + (2 ^ 24 + 2) from rfl] at this
    omega
  obtain ⟨b, hb'⟩ : Even (boundaryBelow m) := (even_magUnits (by omega)).add (even_magUnits (by omega))
  obtain ⟨a, ha'⟩ : Even (boundaryAbove m) := (even_magUnits (by omega)).add (even_magUnits (by omega))
  have hbq : (boundaryBelow m : ℝ) ≤ 2 * q := by exact_mod_cast (by omega : boundaryBelow m ≤ 2 * q)
  have haq : (2 * q + 2 : ℝ) ≤ boundaryAbove m := by exact_mod_cast (by omega : 2 * q + 2 ≤ boundaryAbove m)
  exact ⟨by linarith, by linarith, fun h => by obtain h | h := h <;> linarith⟩

/-- The integer root, with half a unit for a remainder, rounds as the root of m does. -/
theorem roundsTo_sqrt {m : Nat} (hm : 2 ^ 52 ≤ m) {j : Nat}
    (h : RoundsTo ((2 * isqrt m + (if isqrt m * isqrt m = m then 0 else 1) : Nat) / (2 : Nat)) j) : RoundsTo √m j := by
  obtain ⟨hlo, hhi⟩ := isqrt_spec m
  generalize isqrt m = q at *
  split at h
  next hsq =>
    rw [← hsq, Nat.cast_mul, Real.sqrt_mul_self (by positivity)]
    convert h using 1
    push_cast
    ring
  next hsq =>
    refine h.of_halfway (by by_contra hc; nlinarith) ?_ ?_
    · rw [Real.lt_sqrt (by positivity)]
      exact_mod_cast (sq q ▸ lt_of_le_of_ne hlo hsq : q ^ 2 < m)
    · rw [Real.sqrt_lt' (by positivity)]
      exact_mod_cast (sq (q + 1) ▸ hhi : m < (q + 1) ^ 2)

/-- `rnSqrt` of a positive value is its square root rounded. -/
theorem isRN_rnSqrt {a : Word} (hz : isZero a = false) (hs : isNeg a = false) : IsRN √(val a : ℝ) (rnSqrt (val a)) := by
  have hpos := magUnits_pos (magPattern_pos hz)
  have hval := val_of_not_isNeg hs
  have hm : (val a * 2 ^ 298).num.natAbs = magUnits (magPattern a) * 2 ^ 149 := by
    have h : val a * 2 ^ 298 = ((magUnits (magPattern a) * 2 ^ 149 : Nat) : ℚ) := by
      rw [val, hs, if_neg Bool.false_ne_true, magVal_eq, show 298 = 149 + 149 from rfl, pow_add, ← mul_assoc,
        div_mul_cancel₀ _ (by positivity)]
      push_cast
      rfl
    rw [h, Rat.num_natCast, Int.natAbs_natCast]
  have hroot : √(val a : ℝ) * 2 ^ 149 = √((magUnits (magPattern a) * 2 ^ 149 : Nat) : ℝ) := by
    rw [← Real.sqrt_sq (show (0 : ℝ) ≤ 2 ^ 149 by positivity), ← Real.sqrt_mul' _ (by positivity), hval]
    congr 1
    push_cast
    ring
  rw [rnSqrt, hm, roundMag_eq]
  refine isRN_pack (Real.sqrt_pos.2 (by rw [hval]; positivity)) ?_
  rw [hroot]
  refine roundsTo_sqrt (by omega) (roundsTo_roundPattern _ (by norm_num))

/-- Settles O54: the special cases are branches of the definition, the root is `isRN_rnSqrt`. -/
theorem sqrtFollowsItsRule : Obligations.SqrtFollowsItsRule := by
  intro a
  refine ⟨fun h => ?_, fun h => ?_, fun hn hz hs => ?_, rfl, fun hf hs hz => ?_⟩
  · simp [fsqrt, h, canonicalNaN]
  · simp [fsqrt, h, class_of_isFinite (isFinite_of_isZero h)]
  · simp [fsqrt, hn, hz, hs, canonicalNaN]
  · obtain ⟨hn, hi⟩ := class_of_isFinite hf
    rw [show fsqrt a = rnSqrt (val a) by simp [fsqrt, hn, hz, hs, hi]]
    exact isRN_rnSqrt hz hs

end Sys2Proof.Machine

namespace Sys2Proof.Machine

/-! ## Enclosures (spec/40_numerics.md R191 to R193) -/

/-- |y − w| ≤ |y − v| says on which side of the midpoint y lies. -/
theorem abs_sub_le_abs_sub_iff {y v w : ℝ} : |y - w| ≤ |y - v| ↔ 2 * y * (v - w) ≤ v ^ 2 - w ^ 2 := by
  rw [← sq_le_sq]
  constructor <;> intro h <;> linarith

theorem abs_sub_eq_abs_sub_iff {y v w : ℝ} : |y - v| = |y - w| ↔ 2 * y * (v - w) = v ^ 2 - w ^ 2 := by
  rw [← sq_eq_sq_iff_abs_eq_abs]
  constructor <;> intro h <;> linarith

/-- What rounds to a word is an interval: a number between two of one sign that round to w rounds to w. -/
theorem IsRN.of_mem_Icc {a b y : ℝ} {w : Word} (ha : IsRN a w) (hb : IsRN b w) (hsign : 0 < a ∨ b < 0)
    (hay : a ≤ y) (hyb : y ≤ b) : IsRN y w := by
  obtain ⟨sa, bigA, smallA⟩ := ha
  obtain ⟨-, bigB, smallB⟩ := hb
  refine ⟨sa.trans ?_, fun hbig => ?_, fun hsmall => ?_⟩
  · obtain h | h := hsign <;> constructor <;> intro _ <;> linarith
  · obtain h | h := le_max_iff.1 (hbig.trans (abs_le_max_abs_abs hay hyb))
    · exact bigA h
    · exact bigB h
  have hf : isFinite w = true := by
    obtain h | h := hsign
    · exact (smallA (by rw [abs_of_pos h]; exact (hay.trans (le_abs_self y)).trans_lt hsmall)).1
    · refine (smallB ?_).1
      rw [abs_of_neg h]
      exact ((neg_le_neg hyb).trans (neg_le_abs y)).trans_lt hsmall
  have notInf : ¬ isInf w = true := by simp [class_of_isFinite hf]
  obtain ⟨-, nearA, tieA⟩ := smallA (lt_of_not_ge fun h => notInf (bigA h))
  obtain ⟨-, nearB, tieB⟩ := smallB (lt_of_not_ge fun h => notInf (bigB h))
  refine ⟨hf, fun v hv => ?_, fun v hv hne htie => ?_⟩
  · have hA := abs_sub_le_abs_sub_iff.1 (nearA v hv)
    have hB := abs_sub_le_abs_sub_iff.1 (nearB v hv)
    rw [abs_sub_le_abs_sub_iff]
    obtain h | h := le_total (val w : ℝ) (val v) <;> nlinarith
  · have hA := abs_sub_le_abs_sub_iff.1 (nearA v hv)
    have hB := abs_sub_le_abs_sub_iff.1 (nearB v hv)
    have hY := abs_sub_eq_abs_sub_iff.1 htie
    have hne' : (val v : ℝ) ≠ val w := fun h => hne (Rat.cast_injective h)
    obtain h | h := hne'.lt_or_gt
    · obtain rfl : a = y := by nlinarith
      exact tieA v hv hne htie
    · obtain rfl : y = b := by nlinarith
      exact tieB v hv hne htie

/-- The real number x lies in the enclosure. -/
def Enclosure.Holds (e : Enclosure) (x : ℝ) : Prop := (e.lo : ℝ) ≤ x ∧ x ≤ e.hi

theorem Enclosure.Holds.neg {e : Enclosure} {x : ℝ} (h : e.Holds x) : e.neg.Holds (-x) := by
  obtain ⟨hlo, hhi⟩ := h
  constructor <;> simp only [Enclosure.neg, Rat.cast_neg, neg_le_neg_iff, hlo, hhi]

theorem Enclosure.Holds.add {e f : Enclosure} {x y : ℝ} (h : e.Holds x) (g : f.Holds y) : (e.add f).Holds (x + y) := by
  obtain ⟨hlo, hhi⟩ := h
  obtain ⟨glo, ghi⟩ := g
  constructor <;> simp only [Enclosure.add, Rat.cast_add, add_le_add hlo glo, add_le_add hhi ghi]

theorem Enclosure.Holds.scale {e : Enclosure} {x : ℝ} (h : e.Holds x) (c : ℚ) : (e.scale c).Holds (c * x) := by
  obtain ⟨hlo, hhi⟩ := h
  unfold Enclosure.scale
  split
  next hc =>
    have hc' : (0 : ℝ) ≤ c := by exact_mod_cast hc
    constructor <;> push_cast <;> gcongr
  next hc =>
    have hc' : (c : ℝ) ≤ 0 := by exact_mod_cast (not_le.1 hc).le
    constructor
    · push_cast
      exact mul_le_mul_of_nonpos_left hhi hc'
    · push_cast
      exact mul_le_mul_of_nonpos_left hlo hc'

/-- The quotient's ends are reached at opposite ends of the divisor's enclosure, at the same end for a negative one. -/
theorem Enclosure.Holds.divPos {e f : Enclosure} {x y : ℝ} (h : e.Holds x) (g : f.Holds y) (hf : 0 < f.lo) :
    (e.divPos f).Holds (x / y) := by
  obtain ⟨hlo, hhi⟩ := h
  obtain ⟨glo, ghi⟩ := g
  have hf' : (0 : ℝ) < f.lo := by exact_mod_cast hf
  have hy := hf'.trans_le glo
  have hfhi := hy.trans_le ghi
  unfold Enclosure.divPos
  constructor
  · refine le_trans ?_ (div_le_div_of_nonneg_right hlo hy.le)
    simp only
    split
    next he =>
      have he' : (0 : ℝ) ≤ e.lo := by exact_mod_cast he
      push_cast
      gcongr
    next he =>
      have he' : (e.lo : ℝ) ≤ 0 := by exact_mod_cast (not_le.1 he).le
      push_cast
      exact (div_le_div_iff₀ hf' hy).2 (mul_le_mul_of_nonpos_left glo he')
  · refine (div_le_div_of_nonneg_right hhi hy.le).trans ?_
    simp only
    split
    next he =>
      have he' : (0 : ℝ) ≤ e.hi := by exact_mod_cast he
      push_cast
      gcongr
    next he =>
      have he' : (e.hi : ℝ) ≤ 0 := by exact_mod_cast (not_le.1 he).le
      push_cast
      exact (div_le_div_iff₀ hy hfhi).2 (mul_le_mul_of_nonpos_left ghi he')

theorem Enclosure.Holds.widen {e : Enclosure} {x y : ℝ} {d : ℚ} (h : e.Holds x) (hd : |y - x| ≤ d) :
    (e.widen d).Holds y := by
  obtain ⟨hlo, hhi⟩ := h
  obtain ⟨dlo, dhi⟩ := abs_le.1 hd
  constructor <;> simp only [Enclosure.widen, Rat.cast_sub, Rat.cast_add] <;> linarith

theorem Enclosure.Holds.coarsen {e : Enclosure} {x : ℝ} (h : e.Holds x) (p : Nat) : (e.coarsen p).Holds x := by
  obtain ⟨hlo, hhi⟩ := h
  constructor
  · refine le_trans ?_ hlo
    rw [Enclosure.coarsen]
    exact_mod_cast (div_le_iff₀ (by positivity)).2 (Int.floor_le (e.lo * 2 ^ p))
  · refine hhi.trans ?_
    rw [Enclosure.coarsen]
    exact_mod_cast (le_div_iff₀ (by positivity)).2 (Int.le_ceil (e.hi * 2 ^ p))

/-- An enclosure that settles the rounding gives the rounded number. -/
theorem Enclosure.Holds.isRN {e : Enclosure} {x : ℝ} {w : Word} (h : e.Holds x) (hw : e.rounded = some w) :
    IsRN x w := by
  obtain ⟨hsign, rfl, heq⟩ := Enclosure.rounded_eq_some hw
  obtain ⟨hlo, hhi⟩ := h
  have hle : e.lo ≤ e.hi := by exact_mod_cast hlo.trans hhi
  have hne : e.lo ≠ 0 ∧ e.hi ≠ 0 := by
    obtain h | h := hsign
    · exact ⟨h.ne', (h.trans_le hle).ne'⟩
    · exact ⟨(hle.trans_lt h).ne, h.ne⟩
  exact (isRN_RN hne.1).of_mem_Icc (heq ▸ isRN_RN hne.2) (by exact_mod_cast hsign) hlo hhi

/-- Where some precision settles the rounding, `roundEnclosed` of sound enclosures of x is x rounded. -/
theorem isRN_roundEnclosed {up : Bool} {f : Nat → Enclosure} {x : ℝ} (hf : ∀ p, (f p).Holds x)
    (h : (firstRounded f (precisions ++ [lastPrecision])).isSome = true) : IsRN x (roundEnclosed up f) := by
  obtain ⟨w, hw⟩ := Option.isSome_iff_exists.1 h
  obtain ⟨p, hp⟩ := firstRounded_eq_some hw
  rw [roundEnclosed, hw]
  exact (hf p).isRN hp

end Sys2Proof.Machine

namespace Sys2Proof.Machine

/-! ## Arctangent and π (spec/40_numerics.md R192) -/

theorem altSign_cast (k : Nat) : (altSign k : ℝ) = (-1) ^ k := by
  unfold altSign
  split
  next h => rw [(Nat.even_iff.2 h).neg_one_pow, Rat.cast_one]
  next h => rw [(Nat.odd_iff.2 (by omega)).neg_one_pow, Rat.cast_neg, Rat.cast_one]

theorem atanSum_cast (z : ℚ) (n : Nat) :
    (atanSum z n : ℝ) = ∑ i ∈ Finset.range n, (-1) ^ i * ((z : ℝ) ^ (2 * i + 1) / (2 * i + 1 : Nat)) := by
  induction n with
  | zero => simp [atanSum]
  | succ n ih =>
    rw [Finset.sum_range_succ, ← ih, atanSum, ← altSign_cast, ← mul_div_assoc]
    push_cast
    rfl

/-- The terms fall, so an even number of them is too little and an odd number too much. -/
theorem holds_atanSeries {z : ℚ} (h0 : 0 ≤ z) (h1 : z < 1) (m : Nat) : (atanSeries z m).Holds (Real.arctan z) := by
  have z0 : (0 : ℝ) ≤ z := by exact_mod_cast h0
  have z1 : (z : ℝ) < 1 := by exact_mod_cast h1
  have anti : Antitone fun i : ℕ => (z : ℝ) ^ (2 * i + 1) / (2 * i + 1 : Nat) := by
    refine antitone_nat_of_succ_le fun i => ?_
    exact div_le_div₀ (by positivity) (pow_le_pow_of_le_one z0 z1.le (by omega)) (by positivity) (by gcongr; omega)
  have lim := (Real.hasSum_arctan (x := z) (by rwa [Real.norm_of_nonneg z0])).tendsto_sum_nat
  simp only [mul_div_assoc] at lim
  rw [Enclosure.Holds, atanSeries, atanSum_cast, atanSum_cast]
  exact ⟨anti.alternating_series_le_tendsto lim m, anti.tendsto_le_alternating_series lim m⟩

theorem holds_atanSmall {z : ℚ} (h : |z| < 1) (m : Nat) : (atanSmall z m).Holds (Real.arctan z) := by
  obtain ⟨hlo, hhi⟩ := abs_lt.1 h
  unfold atanSmall
  split
  next h0 => exact holds_atanSeries h0 hhi m
  next h0 =>
    have hn := (holds_atanSeries (z := -z) (by linarith) (by linarith) m).neg
    rwa [Rat.cast_neg, Real.arctan_neg, neg_neg] at hn

/-- Machin's formula. -/
theorem holds_piEnclosure (p : Nat) : (piEnclosure p).Holds Real.pi := by
  have h5 := (holds_atanSeries (z := 1 / 5) (by norm_num) (by norm_num) (p / 8 + 1)).scale 16
  have h239 := (holds_atanSeries (z := 1 / 239) (by norm_num) (by norm_num) (p / 16 + 1)).scale (-4)
  have machin := Real.four_mul_arctan_inv_5_sub_arctan_inv_239
  rw [piEnclosure]
  convert (h5.add h239).coarsen p using 1
  push_cast
  rw [one_div, one_div]
  linarith

/-- arctan x is π/4 beyond the arctangent of the tangent of the difference. -/
theorem arctan_eq_pi_div_four_add {x : ℝ} (h : 0 < x) :
    Real.arctan x = Real.pi / 4 + Real.arctan ((x - 1) / (x + 1)) := by
  have hlt : 1 * ((x - 1) / (x + 1)) < 1 := by
    rw [one_mul, div_lt_one (by linarith)]
    linarith
  rw [← Real.arctan_one, Real.arctan_add hlt]
  congr 1
  field_simp
  ring

theorem holds_atanNonneg {x : ℚ} (h : 0 ≤ x) (p : Nat) : (atanNonneg p x).Holds (Real.arctan x) := by
  unfold atanNonneg
  split
  next h2 => exact holds_atanSeries h (by linarith) _
  next h2 =>
  have hx : (0 : ℝ) < x := by exact_mod_cast (by linarith : 0 < x)
  split
  next h3 =>
    have hz : |(x - 1) / (x + 1)| < 1 := by
      rw [abs_lt, lt_div_iff₀ (by linarith), div_lt_iff₀ (by linarith)]
      constructor <;> linarith
    convert ((holds_piEnclosure p).scale (1 / 4)).add (holds_atanSmall hz (p / 6 + 1)) using 1
    rw [arctan_eq_pi_div_four_add hx]
    push_cast
    ring
  next h3 =>
    have hinv : 1 / x < 1 := by
      rw [div_lt_one (by linarith)]
      linarith
    have hs := (holds_atanSeries (one_div_nonneg.2 h) hinv (p / 4 + 1)).neg
    convert ((holds_piEnclosure p).scale (1 / 2)).add hs using 1
    push_cast
    rw [one_div (x : ℝ), Real.arctan_inv_of_pos hx]
    ring

theorem holds_atanEnclosure (x : ℚ) (p : Nat) : (atanEnclosure p x).Holds (Real.arctan x) := by
  unfold atanEnclosure
  split
  next h => exact holds_atanNonneg h p
  next h =>
    have hn := (holds_atanNonneg (x := -x) (by linarith) p).neg
    rwa [Rat.cast_neg, Real.arctan_neg, neg_neg] at hn

end Sys2Proof.Machine

namespace Sys2Proof.Machine

/-! ## Decimal logarithm (spec/40_numerics.md R193) -/

theorem atanhSum_cast (z : ℚ) (n : Nat) :
    (atanhSum z n : ℝ) = ∑ i ∈ Finset.range n, (z : ℝ) ^ (2 * i + 1) / (2 * i + 1) := by
  induction n with
  | zero => simp [atanhSum]
  | succ n ih =>
    rw [Finset.sum_range_succ, ← ih, atanhSum]
    push_cast
    rfl

/-- The series of artanh z = ½ ln((1+z)/(1−z)). -/
theorem hasSum_artanh {z : ℝ} (h0 : 0 ≤ z) (h1 : z < 1) :
    HasSum (fun i : ℕ => z ^ (2 * i + 1) / (2 * i + 1)) (1 / 2 * Real.log ((1 + z) / (1 - z))) := by
  have h := (Real.hasSum_log_sub_log_of_abs_lt_one (x := z) (by rwa [abs_of_nonneg h0])).mul_left (1 / 2)
  rw [← Real.log_div (by linarith) (by linarith)] at h
  convert! h using 2
  ring

/-- The terms left out are at most those of a geometric series from the first of them on. -/
theorem artanh_sub_sum_le {z : ℝ} (h0 : 0 ≤ z) (h1 : z < 1) (n : Nat) :
    1 / 2 * Real.log ((1 + z) / (1 - z)) - ∑ i ∈ Finset.range n, z ^ (2 * i + 1) / (2 * i + 1) ≤
      z ^ (2 * n + 1) / ((2 * n + 1) * (1 - z ^ 2)) := by
  have tail := (hasSum_nat_add_iff' n).2 (hasSum_artanh h0 h1)
  have geom := (hasSum_geometric_of_lt_one (sq_nonneg z) (by nlinarith)).mul_left (z ^ (2 * n + 1) / (2 * n + 1))
  rw [← div_eq_mul_inv, div_div] at geom
  refine hasSum_le (fun i => ?_) tail geom
  rw [div_mul_eq_mul_div, ← pow_mul, ← pow_add]
  push_cast
  rw [show 2 * (i + n) + 1 = 2 * n + 1 + 2 * i by ring]
  gcongr
  linarith

theorem holds_atanhSeries {z : ℚ} (h0 : 0 ≤ z) (h1 : z < 1) (n : Nat) :
    (atanhSeries z n).Holds (1 / 2 * Real.log ((1 + z) / (1 - z))) := by
  have z0 : (0 : ℝ) ≤ z := by exact_mod_cast h0
  have z1 : (z : ℝ) < 1 := by exact_mod_cast h1
  constructor
  · rw [atanhSeries, atanhSum_cast]
    exact Real.sum_range_le_log_div z0 z1 n
  · have h := artanh_sub_sum_le z0 z1 n
    rw [atanhSeries, Rat.cast_add, atanhSum_cast]
    push_cast
    linarith

theorem holds_atanhSmall {z : ℚ} (h : |z| < 1) (n : Nat) :
    (atanhSmall z n).Holds (1 / 2 * Real.log ((1 + z) / (1 - z))) := by
  obtain ⟨hlo, hhi⟩ := abs_lt.1 h
  unfold atanhSmall
  split
  next h0 => exact holds_atanhSeries h0 hhi n
  next h0 =>
    have hn := (holds_atanhSeries (z := -z) (by linarith) (by linarith) n).neg
    rwa [Rat.cast_neg, sub_neg_eq_add, ← sub_eq_add_neg, ← inv_div (1 + (z : ℝ)), Real.log_inv, mul_neg, neg_neg] at hn

theorem holds_lnNearOne {y : ℚ} (h : 0 < y) (p : Nat) : (lnNearOne p y).Holds (Real.log y) := by
  have hz : |(y - 1) / (y + 1)| < 1 := by
    rw [abs_lt, lt_div_iff₀ (by linarith), div_lt_iff₀ (by linarith)]
    constructor <;> linarith
  have hy : (0 : ℝ) < y := by exact_mod_cast h
  have inv : (1 + ((y - 1) / (y + 1) : ℚ) : ℝ) / (1 - ((y - 1) / (y + 1) : ℚ)) = y := by
    push_cast
    field_simp
    ring
  have hs := (holds_atanhSmall hz (p / 4 + 2)).scale 2
  rwa [inv, Rat.cast_ofNat, ← mul_assoc, mul_one_div_cancel two_ne_zero, one_mul] at hs

/-- ln x = e · ln 2 + ln(x · 2^−e), for any e. -/
theorem holds_lnEnclosure {x : ℚ} (h : 0 < x) (p : Nat) : (lnEnclosure p x).Holds (Real.log x) := by
  have hsum := ((holds_lnNearOne two_pos p).scale (logExponent x)).add
    (holds_lnNearOne (y := x / 2 ^ logExponent x) (by positivity) p)
  have hx : (x : ℝ) ≠ 0 := by exact_mod_cast h.ne'
  rw [lnEnclosure]
  convert hsum using 1
  push_cast
  rw [Real.log_div hx (by positivity), Real.log_zpow]
  ring

theorem holds_ln10Enclosure (p : Nat) : (ln10Enclosure p).Holds (Real.log 10) := by
  have hsum := ((holds_lnNearOne two_pos p).scale 3).add (holds_lnNearOne (y := 5 / 4) (by norm_num) p)
  rw [ln10Enclosure]
  convert hsum using 1
  push_cast
  rw [← Real.log_rpow two_pos, ← Real.log_mul (by positivity) (by norm_num)]
  norm_num

theorem atanhSum_nonneg {z : ℚ} (h : 0 ≤ z) (n : Nat) : 0 ≤ atanhSum z n := by
  induction n with
  | zero => exact le_rfl
  | succ n ih => rw [atanhSum]; positivity

theorem atanhSum_pos {z : ℚ} (h : 0 < z) (n : Nat) : 0 < atanhSum z (n + 1) := by
  have := atanhSum_nonneg h.le n
  rw [atanhSum]
  positivity

theorem lnNearOne_lo_pos {y : ℚ} (h : 1 < y) (p : Nat) : 0 < (lnNearOne p y).lo := by
  have hz : 0 < (y - 1) / (y + 1) := div_pos (by linarith) (by linarith)
  rw [lnNearOne, Enclosure.scale, if_pos zero_le_two, atanhSmall, if_pos hz.le]
  exact mul_pos two_pos (atanhSum_pos hz _)

theorem ln10Enclosure_lo_pos (p : Nat) : 0 < (ln10Enclosure p).lo := by
  rw [ln10Enclosure, Enclosure.add, Enclosure.scale, if_pos (by norm_num)]
  exact add_pos (mul_pos three_pos (lnNearOne_lo_pos one_lt_two p)) (lnNearOne_lo_pos (by norm_num) p)

theorem holds_log10Enclosure {x : ℚ} (h : 0 < x) (p : Nat) : (log10Enclosure p x).Holds (Real.logb 10 x) :=
  (holds_lnEnclosure h p).divPos (holds_ln10Enclosure p) (ln10Enclosure_lo_pos p)

end Sys2Proof.Machine

namespace Sys2Proof.Machine

/-! ## Cosine (spec/40_numerics.md R191) -/

/-- The first n terms of the series of cos, at a real number. -/
noncomputable def cosPoly (n : Nat) (x : ℝ) : ℝ := ∑ i ∈ Finset.range n, (-1) ^ i * x ^ (2 * i) / (2 * i).factorial

/-- The first n terms of the series of sin, at a real number. -/
noncomputable def sinPoly (n : Nat) (x : ℝ) : ℝ :=
  ∑ i ∈ Finset.range n, (-1) ^ i * x ^ (2 * i + 1) / (2 * i + 1).factorial

theorem cosSum_cast (r : ℚ) (n : Nat) : (cosSum r n : ℝ) = cosPoly n r := by
  induction n with
  | zero => simp [cosSum, cosPoly]
  | succ n ih =>
    rw [cosPoly, Finset.sum_range_succ, ← cosPoly, ← ih, cosSum, ← altSign_cast]
    push_cast
    rfl

theorem sinSum_cast (r : ℚ) (n : Nat) : (sinSum r n : ℝ) = sinPoly n r := by
  induction n with
  | zero => simp [sinSum, sinPoly]
  | succ n ih =>
    rw [sinPoly, Finset.sum_range_succ, ← sinPoly, ← ih, sinSum, ← altSign_cast]
    push_cast
    rfl

theorem cosPoly_succ_zero (n : Nat) : cosPoly (n + 1) 0 = 1 := by
  rw [cosPoly, Finset.sum_range_succ', Finset.sum_eq_zero]
  · simp
  · simp

theorem sinPoly_zero (n : Nat) : sinPoly n 0 = 0 := by simp [sinPoly]

theorem hasDerivAt_sinPoly (n : Nat) (x : ℝ) : HasDerivAt (sinPoly n) (cosPoly n x) x := by
  refine HasDerivAt.fun_sum fun i _ => ?_
  convert! ((hasDerivAt_pow (2 * i + 1) x).const_mul ((-1 : ℝ) ^ i)).div_const ((2 * i + 1).factorial : ℝ) using 1
  rw [Nat.factorial_succ, Nat.add_sub_cancel]
  push_cast
  field_simp

theorem hasDerivAt_cosPoly (n : Nat) (x : ℝ) : HasDerivAt (cosPoly (n + 1)) (-sinPoly n x) x := by
  have hterm (i : ℕ) : HasDerivAt (fun y : ℝ => (-1) ^ (i + 1) * y ^ (2 * (i + 1)) / (2 * (i + 1)).factorial)
      (-((-1) ^ i * x ^ (2 * i + 1) / (2 * i + 1).factorial)) x := by
    convert! ((hasDerivAt_pow (2 * (i + 1)) x).const_mul ((-1 : ℝ) ^ (i + 1))).div_const
      ((2 * (i + 1)).factorial : ℝ) using 1
    rw [show 2 * (i + 1) = 2 * i + 1 + 1 by ring, Nat.factorial_succ (2 * i + 1), Nat.add_sub_cancel, pow_succ (-1 : ℝ)]
    push_cast
    field_simp
  have hsum := (HasDerivAt.fun_sum fun i (_ : i ∈ Finset.range n) => hterm i).add_const 1
  rw [Finset.sum_neg_distrib] at hsum
  convert! hsum using 1
  ext y
  rw [cosPoly, Finset.sum_range_succ']
  simp

/-- A function that starts at 0 and never falls is not negative. -/
theorem nonneg_of_hasDerivAt {f f' : ℝ → ℝ} (hf : ∀ x, HasDerivAt f (f' x) x) (h0 : f 0 = 0)
    (hf' : ∀ x, 0 ≤ x → 0 ≤ f' x) {x : ℝ} (hx : 0 ≤ x) : 0 ≤ f x := by
  have mono : MonotoneOn f (Set.Ici 0) := monotoneOn_of_hasDerivWithinAt_nonneg (convex_Ici 0)
    (fun y _ => (hf y).continuousAt.continuousWithinAt) (fun y _ => (hf y).hasDerivWithinAt)
    fun y hy => hf' y (interior_subset hy)
  exact h0 ▸ mono Set.self_mem_Ici hx hx

/-- The error of the cosine's sum is the derivative of the error of the sine's sum of as many terms. -/
theorem sin_error_of_cos_error {n : Nat} (h : ∀ x : ℝ, 0 ≤ x → 0 ≤ (-1) ^ n * (cosPoly (n + 1) x - Real.cos x)) {x : ℝ}
    (hx : 0 ≤ x) : 0 ≤ (-1) ^ n * (sinPoly (n + 1) x - Real.sin x) :=
  nonneg_of_hasDerivAt (fun y => ((hasDerivAt_sinPoly (n + 1) y).sub (Real.hasDerivAt_sin y)).const_mul _)
    (by simp [sinPoly_zero]) h hx

/-- The sums of 1, 2, … terms are by turns too much and too little: the derivative of the cosine's error is the sine's
error one term before, negated. -/
theorem cos_error (n : Nat) : ∀ x : ℝ, 0 ≤ x → 0 ≤ (-1) ^ n * (cosPoly (n + 1) x - Real.cos x) := by
  induction n with
  | zero =>
    intro x _
    simpa [cosPoly] using Real.cos_le_one x
  | succ n ih =>
    intro x hx
    refine nonneg_of_hasDerivAt (fun y => ((hasDerivAt_cosPoly (n + 1) y).sub (Real.hasDerivAt_cos y)).const_mul _)
      (by simp [cosPoly_succ_zero]) (fun y hy => ?_) hx
    have h := sin_error_of_cos_error ih hy
    rw [pow_succ]
    linarith

theorem sin_error (n : Nat) {x : ℝ} (hx : 0 ≤ x) : 0 ≤ (-1) ^ n * (sinPoly (n + 1) x - Real.sin x) :=
  sin_error_of_cos_error (cos_error n) hx

theorem holds_cosSeries {r : ℚ} (h : 0 ≤ r) (m : Nat) : (cosSeries r (m + 1)).Holds (Real.cos r) := by
  have hr : (0 : ℝ) ≤ r := by exact_mod_cast h
  have hlo := cos_error (2 * m + 1) _ hr
  have hhi := cos_error (2 * (m + 1)) _ hr
  rw [(odd_two_mul_add_one m).neg_one_pow, show 2 * m + 1 + 1 = 2 * (m + 1) from rfl] at hlo
  rw [(even_two_mul _).neg_one_pow] at hhi
  rw [Enclosure.Holds, cosSeries, cosSum_cast, cosSum_cast]
  constructor <;> linarith

theorem holds_sinSeries {r : ℚ} (h : 0 ≤ r) (m : Nat) : (sinSeries r (m + 1)).Holds (Real.sin r) := by
  have hr : (0 : ℝ) ≤ r := by exact_mod_cast h
  have hlo := sin_error (2 * m + 1) hr
  have hhi := sin_error (2 * (m + 1)) hr
  rw [(odd_two_mul_add_one m).neg_one_pow, show 2 * m + 1 + 1 = 2 * (m + 1) from rfl] at hlo
  rw [(even_two_mul _).neg_one_pow] at hhi
  rw [Enclosure.Holds, sinSeries, sinSum_cast, sinSum_cast]
  constructor <;> linarith

/-- The cosine by the quarter turn: k quarter turns on, cos and sin change places and signs. -/
theorem cos_add_quarter_turns (k : Nat) (ρ : ℝ) :
    Real.cos (ρ + k * (Real.pi / 2)) =
      if k % 4 = 0 then Real.cos ρ else if k % 4 = 1 then -Real.sin ρ else if k % 4 = 2 then -Real.cos ρ
      else Real.sin ρ := by
  have turn : ρ + k * (Real.pi / 2) = ρ + (k % 4 : Nat) * (Real.pi / 2) + (k / 4 : Nat) * (2 * Real.pi) := by
    have hk : (k : ℝ) = 4 * (k / 4 : Nat) + (k % 4 : Nat) := by exact_mod_cast (Nat.div_add_mod k 4).symm
    linear_combination Real.pi / 2 * hk
  rw [turn, Real.cos_add_nat_mul_two_pi]
  have hlt : k % 4 < 4 := Nat.mod_lt k (by norm_num)
  generalize k % 4 = i at *
  interval_cases i
  · simp
  · simp [Real.cos_add_pi_div_two]
  · simp [mul_div_cancel₀, Real.cos_add_pi]
  · rw [show ρ + (3 : ℕ) * (Real.pi / 2) = ρ + Real.pi + Real.pi / 2 by push_cast; ring, Real.cos_add_pi_div_two,
      Real.sin_add_pi]
    simp

theorem coarsen_lo_nonneg {e : Enclosure} (h : 0 ≤ e.lo) (p : Nat) : 0 ≤ (e.coarsen p).lo := by
  rw [Enclosure.coarsen]
  have : 0 ≤ ⌊e.lo * 2 ^ p⌋ := Int.floor_nonneg.2 (by positivity)
  positivity

/-- Sine and cosine at any number of an enclosure, from their values at its lower end. -/
theorem holds_cosEnclosure {x : ℚ} (hx : 0 ≤ x) (p : Nat) : (cosEnclosure p x).Holds (Real.cos x) := by
  unfold cosEnclosure
  extract_lets q pi k r c s
  obtain ⟨pilo, pihi⟩ : pi.Holds Real.pi := holds_piEnclosure q
  have hpos : 0 < pi.hi := by exact_mod_cast Real.pi_pos.trans_le pihi
  have hk : (k : ℚ) * pi.hi / 2 ≤ x := by
    have hfloor : (k : ℚ) ≤ x * 2 / pi.hi := Nat.floor_le (by positivity)
    rw [le_div_iff₀ hpos] at hfloor
    linarith
  have hr : r.Holds (x - k * (Real.pi / 2)) := by
    refine Enclosure.Holds.coarsen ⟨?_, ?_⟩ p <;> push_cast <;> nlinarith [(Nat.cast_nonneg k : (0 : ℝ) ≤ k)]
  have hr0 : 0 ≤ r.lo := coarsen_lo_nonneg (sub_nonneg.2 hk) p
  have near : |(x - k * (Real.pi / 2)) - r.lo| ≤ (r.hi - r.lo : ℚ) := by
    rw [abs_of_nonneg (sub_nonneg.2 hr.1), Rat.cast_sub]
    exact sub_le_sub_right hr.2 _
  have hc : c.Holds (Real.cos (x - k * (Real.pi / 2))) :=
    (holds_cosSeries hr0 _).widen ((Real.abs_cos_sub_cos_le _ _).trans near)
  have hs : s.Holds (Real.sin (x - k * (Real.pi / 2))) :=
    (holds_sinSeries hr0 _).widen ((Real.abs_sin_sub_sin_le _ _).trans near)
  have turns := cos_add_quarter_turns k (x - k * (Real.pi / 2))
  rw [sub_add_cancel] at turns
  rw [turns]
  split
  · exact hc
  split
  · exact hs.neg
  split
  · exact hc.neg
  · exact hs

/-! ## Correct rounding -/

/-- Settles O57: every enclosure holds the exact value, and one that settles the rounding rounds it. -/
theorem transcendentalsAreCorrectlyRounded : Obligations.TranscendentalsAreCorrectlyRounded := by
  intro a hf hz
  obtain ⟨hn, hi⟩ := class_of_isFinite hf
  obtain ⟨hp, hm⟩ := ne_inf_of_isFinite hf
  refine ⟨fun h => ?_, fun h => ?_, fun hs h1 h => ?_⟩
  · have habs : Real.cos (val a) = Real.cos (magVal a) := by
      cases hs : isNeg a <;> simp [val, hs]
    rw [COSF, hn, hi, hz, habs]
    exact isRN_roundEnclosed (holds_cosEnclosure (magVal_pos hz).le) h
  · rw [ATANF, hn, hz, if_neg Bool.false_ne_true, if_neg Bool.false_ne_true, if_neg hp, if_neg hm]
    exact isRN_roundEnclosed (holds_atanEnclosure (val a)) h
  · rw [LOG10F, hn, hz, hs, if_neg Bool.false_ne_true, if_neg Bool.false_ne_true, if_neg Bool.false_ne_true,
      if_neg hp, if_neg h1]
    refine isRN_roundEnclosed (holds_log10Enclosure ?_) h
    rw [val, hs]
    exact magVal_pos hz

end Sys2Proof.Machine

namespace Sys2Proof.Machine

/-! ## Elements of a complex buffer (spec/41_complex_fft.md R220) -/

/-- Element i of the complex buffer: the pair (RE[i], IM[i]) (R220). -/
def elem (b : Cplx) (i : Nat) : Word × Word := (rd b.re i, rd b.im i)

/-- A buffer of N elements. -/
def HasSize (N : Nat) (b : Cplx) : Prop := b.re.length = N ∧ b.im.length = N

theorem HasSize.of_sameLength {N : Nat} {b c : Cplx} (hb : HasSize N b) (h : SameLength b c) : HasSize N c :=
  ⟨h.1.trans hb.1, h.2.trans hb.2⟩

/-- Two buffers of N elements with the same elements are equal. -/
theorem HasSize.ext {N : Nat} {b c : Cplx} (hb : HasSize N b) (hc : HasSize N c)
    (h : ∀ p, p < N → elem b p = elem c p) : b = c :=
  AgreeBelow.eq (fun p hp => Prod.ext_iff.1 (h p hp)) hb hc

theorem State.loadCplx_hasSize (s : State) (N : Nat) : HasSize N (s.loadCplx N) := by
  simp [HasSize, State.loadCplx, State.loadRam]

theorem State.elem_loadCplx (s : State) {N p : Nat} (hp : p < N) :
    elem (s.loadCplx N) p = (s.ram .re p, s.ram .im p) :=
  Prod.ext_iff.2 (s.rd_loadCplx hp)

/-- A pass that sets element i of the buffer: the element set there, every other as before. -/
theorem elem_set {N i : Nat} {b : Cplx} (hb : HasSize N b) (hi : i < N) (v w : Word) (p : Nat) :
    elem ⟨b.re.set i v, b.im.set i w⟩ p = if p = i then (v, w) else elem b p := by
  obtain ⟨hr, hm⟩ := hb
  simp only [elem, rd_set p _ (hr ▸ hi), rd_set p _ (hm ▸ hi)]
  split <;> rfl

theorem hasSize_set {N : Nat} {b : Cplx} (hb : HasSize N b) (i : Nat) (v w : Word) :
    HasSize N ⟨b.re.set i v, b.im.set i w⟩ :=
  hb.of_sameLength (by simp [SameLength])

/-- A completed command that ran `f` on RE[0..N) and IM[0..N): the elements `f` made of those before. -/
theorem State.runSized_onCplx {s : State} {nmin : Nat} {n : BitVec 4} (f : Cplx → Cplx)
    (h : legalLog2N s.params.log2Nmax nmin n = true) :
    ∃ t, (s.runSized nmin n fun s => s.onCplx (2 ^ n.toNat) f) = .next t ∧ CompletedFrom s t ∧
      ∀ i, i < 2 ^ n.toNat → (t.ram .re i, t.ram .im i) = elem (f (s.loadCplx (2 ^ n.toNat))) i := by
  have hN : 2 ^ n.toNat ≤ 2 ^ 15 := Nat.pow_le_pow_right (by decide) (Nat.le_of_lt_succ n.isLt)
  refine ⟨_, State.runSized_legal _ h, ⟨rfl, rfl, rfl, rfl⟩, fun i hi => Prod.ext ?_ ?_⟩
  · exact (State.ram_congr rfl rfl _ _).trans (State.ram_storeCplx_re s _ hN hi)
  · exact (State.ram_congr rfl rfl _ _).trans (State.ram_storeCplx_im s _ hi)

end Sys2Proof.Machine

namespace Sys2Proof.Machine

/-! ## rev_n (spec/00_scope.md R13) -/

@[simp] theorem revBits_zero_width (i : Nat) : revBits 0 i = 0 := rfl

theorem revBits_succ (n i : Nat) : revBits (n + 1) i = 2 ^ n * (i % 2) + revBits n (i / 2) := rfl

@[simp] theorem revBits_zero (n : Nat) : revBits n 0 = 0 := by
  induction n with
  | zero => rfl
  | succ n ih => simpa [revBits_succ] using ih

theorem revBits_even (n i : Nat) : revBits (n + 1) (2 * i) = revBits n i := by
  simp [revBits_succ]

theorem revBits_odd (n i : Nat) : revBits (n + 1) (2 * i + 1) = 2 ^ n + revBits n i := by
  have h1 : (2 * i + 1) % 2 = 1 := by omega
  have h2 : (2 * i + 1) / 2 = i := by omega
  rw [revBits_succ, h1, h2, Nat.mul_one]

theorem revBits_lt (n i : Nat) : revBits n i < 2 ^ n := by
  induction n generalizing i with
  | zero => exact Nat.one_pos
  | succ n ih =>
    have hr := ih (i / 2)
    obtain h | h : i % 2 = 0 ∨ i % 2 = 1 := by omega
    all_goals
      rw [revBits_succ, h, pow_succ]
      omega

/-- The top bit of the operand is the low bit of its reversal. -/
theorem revBits_topBit (n c i : Nat) (hc : c < 2) (hi : i < 2 ^ n) :
    revBits (n + 1) (2 ^ n * c + i) = 2 * revBits n i + c := by
  induction n generalizing i with
  | zero =>
    obtain rfl : i = 0 := by omega
    simp [revBits_succ, Nat.mod_eq_of_lt hc]
  | succ n ih =>
    have hmod : (2 ^ (n + 1) * c + i) % 2 = i % 2 := by
      rw [pow_succ', Nat.mul_assoc, Nat.mul_add_mod]
    have hdiv : (2 ^ (n + 1) * c + i) / 2 = 2 ^ n * c + i / 2 := by
      rw [pow_succ', Nat.mul_assoc, Nat.mul_add_div Nat.two_pos]
    rw [revBits_succ, hmod, hdiv, ih _ (by omega), revBits_succ n i, pow_succ']
    ring

theorem revBits_revBits {n i : Nat} (hi : i < 2 ^ n) : revBits n (revBits n i) = i := by
  induction n generalizing i with
  | zero => simpa using (Nat.lt_one_iff.1 hi).symm
  | succ n ih =>
    rw [revBits_succ n i, revBits_topBit _ _ _ (Nat.mod_lt _ Nat.two_pos) (revBits_lt _ _), ih (by omega)]
    exact Nat.div_add_mod i 2

/-- The index R221's walk starts from, j = N/2, is rev_n(1). -/
theorem revBits_one (n : Nat) : revBits n 1 = 2 ^ n / 2 := by
  cases n with
  | zero => rfl
  | succ n => simp [revBits_odd n 0, pow_succ]

/-- Clearing the leading ones of rev_n(i) and setting the bit below them adds 1 to i: a carry that runs downwards. -/
theorem clearLeadingOnes_revBits {n i : Nat} (hi : i + 1 < 2 ^ n) :
    (clearLeadingOnes n (revBits n i) (2 ^ n / 2)).1 + (clearLeadingOnes n (revBits n i) (2 ^ n / 2)).2 =
      revBits n (i + 1) := by
  induction n generalizing i with
  | zero => omega
  | succ n ih =>
    have half : 2 ^ (n + 1) / 2 = 2 ^ n := by omega
    obtain ⟨m, rfl | rfl⟩ := i.even_or_odd'
    · rw [half, revBits_even, revBits_odd, clearLeadingOnes, if_neg (by have := revBits_lt n m; omega), Nat.add_comm]
    · rw [half, revBits_odd, clearLeadingOnes, if_pos (Nat.le_add_right _ _), Nat.add_sub_cancel_left, ih (by omega)]
      exact (revBits_even n (m + 1)).symm

theorem nextReversed_revBits {n i : Nat} (hi : i + 1 < 2 ^ n) : nextReversed n (revBits n i) = revBits n (i + 1) :=
  clearLeadingOnes_revBits hi

/-! ## The bit-reversal walk (spec/41_complex_fft.md R221, R222) -/

theorem elem_swapElems {N i j : Nat} {b : Cplx} (hb : HasSize N b) (hi : i < N) (hj : j < N) (p : Nat) :
    elem (swapElems i j b) p = if p = i then elem b j else if p = j then elem b i else elem b p := by
  rw [swapElems, elem_set (hasSize_set hb j _ _) hi, elem_set hb hj]
  rfl

/-- Where the walk has got element p from when it comes to pass i: the pairs {p, rev_n(p)} with an index below i are
exchanged. -/
def walkSource (n i p : Nat) : Nat := if p < i ∨ revBits n p < i then revBits n p else p

theorem walkSource_moved {n i p : Nat} (h : p < i ∨ revBits n p < i) : walkSource n i p = revBits n p := if_pos h

theorem walkSource_unmoved {n i p : Nat} (h : ¬ (p < i ∨ revBits n p < i)) : walkSource n i p = p := if_neg h

/-- Before the first pass no element has moved: index 0 is its own reversal. -/
theorem walkSource_one {n p : Nat} (hp : p < 2 ^ n) : walkSource n 1 p = p := by
  by_cases h0 : p = 0
  · rw [h0, walkSource_moved (.inl Nat.one_pos), revBits_zero]
  · have hr : revBits n p ≠ 0 := fun h => h0 (by rw [← revBits_revBits hp, h, revBits_zero])
    exact walkSource_unmoved (by omega)

/-- After the last pass every element has moved to its place: the one index not passed is its own reversal, or the
reversal of an index passed. -/
theorem walkSource_last {n i p : Nat} (hp : p < 2 ^ n) (hi : 2 ^ n ≤ i + 1) : walkSource n i p = revBits n p := by
  have hr := revBits_lt n p
  by_cases h : p < i ∨ revBits n p < i
  · exact walkSource_moved h
  · rw [walkSource_unmoved h]
    omega

/-- Pass i moves only the elements i and rev_n(i). -/
theorem walkSource_succ_other {n i p : Nat} (hp : p ≠ i) (hr : revBits n p ≠ i) :
    walkSource n (i + 1) p = walkSource n i p :=
  if_congr (by omega) rfl rfl

/-- A pass that finds rev_n(i) ≤ i has nothing to move: the pair is exchanged already, or is one index. -/
theorem walkSource_succ_of_le {n i p : Nat} (hi : i < 2 ^ n) (hp : p < 2 ^ n) (hle : revBits n i ≤ i) :
    walkSource n (i + 1) p = walkSource n i p := by
  by_cases hpair : p = i ∨ p = revBits n i
  · have hr : revBits n p = revBits n i ∨ revBits n p = i :=
      hpair.imp (fun e => by rw [e]) fun e => by rw [e, revBits_revBits hi]
    rw [walkSource_moved (by omega)]
    by_cases h : p < i ∨ revBits n p < i
    · exact (walkSource_moved h).symm
    · rw [walkSource_unmoved h]
      omega
  · exact walkSource_succ_other (by omega) fun e => hpair (.inr (by rw [← e, revBits_revBits hp]))

theorem bitrevPass_hasSize {N n i j : Nat} {c : Cplx} (hc : HasSize N c) : HasSize N (bitrevPass n i (c, j)).1 := by
  unfold bitrevPass
  split
  · exact hc.of_sameLength (swapElems_length _ _ _)
  · exact hc

/-- Pass i of the walk completes the exchange of the elements i and rev_n(i). -/
theorem elem_bitrevPass {n i p : Nat} {b c : Cplx} (hc : HasSize (2 ^ n) c) (hi : i < 2 ^ n)
    (h : ∀ q, q < 2 ^ n → elem c q = elem b (walkSource n i q)) (hp : p < 2 ^ n) :
    elem (bitrevPass n i (c, revBits n i)).1 p = elem b (walkSource n (i + 1) p) := by
  have hj := revBits_lt n i
  have back := revBits_revBits hi
  unfold bitrevPass
  by_cases hlt : i < revBits n i
  · have fromI : walkSource n i i = i := walkSource_unmoved (by omega)
    have fromJ : walkSource n i (revBits n i) = revBits n i := walkSource_unmoved (by omega)
    rw [if_pos hlt, elem_swapElems hc hi hj, h i hi, h _ hj, h p hp, fromI, fromJ]
    by_cases hpi : p = i
    · rw [if_pos hpi, hpi, walkSource_moved (.inl (Nat.lt_succ_self i))]
    by_cases hpj : p = revBits n i
    · rw [if_neg hpi, if_pos hpj, hpj, walkSource_moved (.inr (by omega)), back]
    · rw [if_neg hpi, if_neg hpj, walkSource_succ_other hpi fun e => hpj (by rw [← e, revBits_revBits hp])]
  · rw [if_neg hlt, h p hp, walkSource_succ_of_le hi hp (Nat.le_of_not_lt hlt)]

theorem bitrevWalk_hasSize {N n : Nat} {b : Cplx} (hb : HasSize N b) : HasSize N (bitrevWalk n b) :=
  hb.of_sameLength (bitrevWalk_length n b)

/-- BITREV_WALK in closed form: element p comes from index rev_n(p) (R222). -/
theorem elem_bitrevWalk {n p : Nat} {b : Cplx} (hb : HasSize (2 ^ n) b) (hp : p < 2 ^ n) :
    elem (bitrevWalk n b) p = elem b (revBits n p) := by
  have inv := forFrom_induct (f := bitrevPass n) (a := 1) (k := 2 ^ n - 2) (x := (b, 2 ^ n / 2))
    (P := fun i c => (HasSize (2 ^ n) c.1 ∧ c.2 = revBits n i) ∧
      ∀ q, q < 2 ^ n → elem c.1 q = elem b (walkSource n i q))
    ⟨⟨hb, (revBits_one n).symm⟩, fun q hq => by rw [walkSource_one hq]⟩ ?_
  · rw [bitrevWalk, inv.2 p hp, walkSource_last hp (by omega)]
  · rintro i ⟨c, j⟩ h1 hi ⟨⟨hc, hj⟩, he⟩
    obtain rfl : j = revBits n i := hj
    exact ⟨⟨bitrevPass_hasSize hc, nextReversed_revBits (by omega)⟩,
      fun q hq => elem_bitrevPass hc (by omega) he hq⟩

theorem bitrevWalk_bitrevWalk {n : Nat} {b : Cplx} (hb : HasSize (2 ^ n) b) : bitrevWalk n (bitrevWalk n b) = b := by
  have hw := bitrevWalk_hasSize (n := n) hb
  refine (bitrevWalk_hasSize hw).ext hb fun p hp => ?_
  rw [elem_bitrevWalk hw hp, elem_bitrevWalk hb (revBits_lt n p), revBits_revBits hp]

/-- Settles O13: the walk's invariant says where each element comes from, and rev_n is its own inverse. -/
theorem bitrevMovesEveryWordToItsReversal : Obligations.BitrevMovesEveryWordToItsReversal := by
  refine ⟨fun s n hl => ?_, fun n i hi => ⟨revBits_lt n i, revBits_revBits hi⟩,
    fun n b _ hr hm => bitrevWalk_bitrevWalk ⟨hr, hm⟩, by decide⟩
  obtain ⟨t, ht, hc, he⟩ := State.runSized_onCplx (bitrevWalk n.toNat) hl
  refine ⟨t, ht, hc, fun i hi => Prod.mk.inj ?_⟩
  rw [he _ (revBits_lt _ i), elem_bitrevWalk (s.loadCplx_hasSize _) (revBits_lt _ i), revBits_revBits hi,
    s.elem_loadCplx hi]

end Sys2Proof.Machine

namespace Sys2Proof.Machine

/-! ## Loops of independent passes

R225's loops over groups and over offsets, and R230's loops over elements: each pass works on elements of its own, so
the loop leaves what each pass makes of the buffer before the loop. -/

/-- Each of the passes 0 .. k−1 changes only elements it owns, and what it leaves in them depends on no others. -/
structure IndependentPasses (N k : Nat) (owner : Nat → Nat) (f : Nat → Cplx → Cplx) : Prop where
  length : ∀ i b, SameLength b (f i b)
  writesOwn : ∀ {i b p}, i < k → HasSize N b → p < N → owner p ≠ i → elem (f i b) p = elem b p
  readsOwn : ∀ {b c p}, HasSize N b → HasSize N c → p < N → owner p < k →
    (∀ q, q < N → owner q = owner p → elem c q = elem b q) → elem (f (owner p) c) p = elem (f (owner p) b) p

/-- A loop of independent passes leaves at p what the pass that owns p makes of the buffer before the loop. -/
theorem IndependentPasses.elem_forFrom {N k : Nat} {owner : Nat → Nat} {f : Nat → Cplx → Cplx}
    (h : IndependentPasses N k owner f) {b : Cplx} (hb : HasSize N b) {p : Nat} (hp : p < N) (ho : owner p < k) :
    elem (forFrom f 0 k b) p = elem (f (owner p) b) p := by
  have inv := forFrom_induct (f := f) (a := 0) (k := k) (x := b)
    (P := fun i c => HasSize N c ∧
      ∀ q, q < N → elem c q = if owner q < i then elem (f (owner q) b) q else elem b q)
    ⟨hb, fun q _ => (if_neg (Nat.not_lt_zero _)).symm⟩ ?_
  · rw [inv.2 p hp, if_pos (by omega)]
  · rintro i c - hi ⟨hc, he⟩
    refine ⟨hc.of_sameLength (h.length i c), fun q hq => ?_⟩
    by_cases hqi : owner q = i
    · subst hqi
      rw [if_pos (Nat.lt_succ_self _)]
      refine h.readsOwn hb hc hq (by omega) fun r hr hrq => ?_
      rw [he r hr, if_neg (by omega)]
    · rw [h.writesOwn (by omega) hc hq hqi, he q hq]
      exact if_congr (by omega) rfl rfl

/-- A loop whose pass i rewrites element i from its own value. -/
theorem elem_forFrom_map {N : Nat} {f : Nat → Cplx → Cplx} {g : Word × Word → Word × Word}
    (hl : ∀ i b, SameLength b (f i b))
    (hf : ∀ i b p, i < N → HasSize N b → elem (f i b) p = if p = i then g (elem b i) else elem b p)
    {b : Cplx} (hb : HasSize N b) {p : Nat} (hp : p < N) : elem (forFrom f 0 N b) p = g (elem b p) := by
  have own : ∀ {c p}, HasSize N c → p < N → elem (f p c) p = g (elem c p) := fun {c p} hc hp =>
    (hf p c p hp hc).trans (if_pos rfl)
  have passes : IndependentPasses N N id f :=
    ⟨hl, fun {i c q} hi hc _ ho => (hf i c q hi hc).trans (if_neg ho), fun {c d q} hc hd hq _ he =>
      (own hd hq).trans ((congrArg g (he q hq rfl)).trans (own hc hq).symm)⟩
  exact (passes.elem_forFrom hb hp hp).trans (own hb hp)

end Sys2Proof.Machine

namespace Sys2Proof.Machine

/-! ## A stage (spec/41_complex_fft.md R224 to R226) -/

/-- The two results of a butterfly with twiddle `u` on the elements `x` and `y`: x + u·y and x − u·y (R224). -/
def butterfly (u x y : Word × Word) : (Word × Word) × (Word × Word) :=
  let tr := fsub (fmul y.1 u.1) (fmul y.2 u.2)
  let ti := fadd (fmul y.1 u.2) (fmul y.2 u.1)
  ((fadd x.1 tr, fadd x.2 ti), (fsub x.1 tr, fsub x.2 ti))

theorem elem_bfly {N i ip : Nat} {b : Cplx} (hb : HasSize N b) (hi : i < N) (hip : ip < N) (u : Word × Word)
    (p : Nat) : elem (bfly i ip u b) p =
      if p = i then (butterfly u (elem b i) (elem b ip)).1
      else if p = ip then (butterfly u (elem b i) (elem b ip)).2 else elem b p := by
  rw [bfly, elem_set (hasSize_set hb ip _ _) hi, elem_set hb hip]
  rfl

/-- The two indices of the butterfly of group g at offset j in stage s (R225). -/
def InPair (s j g p : Nat) : Prop := p = j + g * 2 ^ s ∨ p = j + g * 2 ^ s + 2 ^ (s - 1)

/-- The butterfly of group g at offset j in stage s: one pass of R225's inner loop. -/
def groupPass (s j : Nat) (u : Word × Word) (g : Nat) (b : Cplx) : Cplx :=
  bfly (j + g * 2 ^ s) (j + g * 2 ^ s + 2 ^ (s - 1)) u b

theorem stageOffset_eq_forFrom (s n j : Nat) (u : Word × Word) (b : Cplx) :
    stageOffset s n j u b = forFrom (groupPass s j u) 0 (2 ^ n / 2 ^ s) b := rfl

/-- The loop over offsets with the twiddle of each pass named (R226). -/
theorem stage_eq_forFrom (s n : Nat) (b : Cplx) :
    stage s n b = forFrom (fun j => stageOffset s n j (twiddleAt s j)) 0 (2 ^ (s - 1)) b := by
  have key : ∀ k, forFrom (fun j (bu : Cplx × (Word × Word)) =>
      (stageOffset s n j bu.2 bu.1, recur (romSr s) (romSi s) bu.2)) 0 k (b, (ONE, ZERO)) =
      (forFrom (fun j => stageOffset s n j (twiddleAt s j)) 0 k b, twiddleAt s k) := by
    intro k
    induction k with
    | zero => rfl
    | succ k ih => rw [forFrom_last, forFrom_last, ih, Nat.zero_add, twiddleAt]
  rw [stage, key]

section

variable {s n j g p : Nat} {u : Word × Word} {b c : Cplx} (hs : 1 ≤ s) (hj : j < 2 ^ (s - 1))

include hs hj

/-- An index tells the group and the offset of its butterfly: every index is in one pair of a stage (R225). -/
theorem InPair.group_offset (hp : InPair s j g p) : p / 2 ^ s = g ∧ p % 2 ^ (s - 1) = j := by
  have hw : 2 ^ s = 2 * 2 ^ (s - 1) := by rw [← pow_succ', Nat.sub_add_cancel hs]
  obtain rfl | rfl := hp
  · refine ⟨?_, ?_⟩
    · rw [Nat.add_mul_div_right _ _ (Nat.two_pow_pos s), Nat.div_eq_of_lt (by omega), Nat.zero_add]
    · rw [hw, ← Nat.mul_assoc, Nat.add_mul_mod_self_right, Nat.mod_eq_of_lt hj]
  · refine ⟨?_, ?_⟩
    · rw [Nat.add_right_comm, Nat.add_mul_div_right _ _ (Nat.two_pow_pos s), Nat.div_eq_of_lt (by omega), Nat.zero_add]
    · rw [Nat.add_mod_right, hw, ← Nat.mul_assoc, Nat.add_mul_mod_self_right, Nat.mod_eq_of_lt hj]

theorem InPair.lt (hg : g < 2 ^ n / 2 ^ s) (hp : InPair s j g p) : p < 2 ^ n :=
  Nat.lt_of_div_lt_div ((hp.group_offset hs hj).1 ▸ hg)

theorem elem_groupPass (hg : g < 2 ^ n / 2 ^ s) (hb : HasSize (2 ^ n) b) (p : Nat) :
    elem (groupPass s j u g b) p =
      let r := butterfly u (elem b (j + g * 2 ^ s)) (elem b (j + g * 2 ^ s + 2 ^ (s - 1)))
      if p = j + g * 2 ^ s then r.1 else if p = j + g * 2 ^ s + 2 ^ (s - 1) then r.2 else elem b p :=
  elem_bfly hb (InPair.lt hs hj hg (.inl rfl)) (InPair.lt hs hj hg (.inr rfl)) u p

/-- A butterfly changes only its pair. -/
theorem elem_groupPass_other (hg : g < 2 ^ n / 2 ^ s) (hb : HasSize (2 ^ n) b) (hp : ¬ InPair s j g p) :
    elem (groupPass s j u g b) p = elem b p := by
  obtain ⟨h1, h2⟩ := not_or.1 hp
  rw [elem_groupPass hs hj hg hb]
  exact (if_neg h1).trans (if_neg h2)

/-- A butterfly's results depend on its pair alone. -/
theorem elem_groupPass_congr (hg : g < 2 ^ n / 2 ^ s) (hb : HasSize (2 ^ n) b) (hc : HasSize (2 ^ n) c)
    (hpair : ∀ q, InPair s j g q → elem c q = elem b q) (hp : elem c p = elem b p) :
    elem (groupPass s j u g c) p = elem (groupPass s j u g b) p := by
  rw [elem_groupPass hs hj hg hb, elem_groupPass hs hj hg hc, hpair _ (.inl rfl), hpair _ (.inr rfl), hp]

/-- The groups of one offset are independent: an index belongs to group p div 2^s. -/
theorem groupPass_independent : IndependentPasses (2 ^ n) (2 ^ n / 2 ^ s) (· / 2 ^ s) (groupPass s j u) where
  length _ _ := bfly_length _ _ _ _
  writesOwn hg hb _ ho := elem_groupPass_other hs hj hg hb fun h => ho (h.group_offset hs hj).1
  readsOwn hb hc hp hg he := elem_groupPass_congr hs hj hg hb hc
    (fun q hq => he q (hq.lt hs hj hg) (hq.group_offset hs hj).1) (he _ hp rfl)

/-- The butterflies of one offset leave at index p what the butterfly of its group makes of the buffer before them. -/
theorem elem_stageOffset (hsn : s ≤ n) (hb : HasSize (2 ^ n) b) (hp : p < 2 ^ n) :
    p / 2 ^ s < 2 ^ n / 2 ^ s ∧ elem (stageOffset s n j u b) p = elem (groupPass s j u (p / 2 ^ s) b) p := by
  have hg : p / 2 ^ s < 2 ^ n / 2 ^ s := Nat.div_lt_div_of_lt_of_dvd (Nat.pow_dvd_pow 2 hsn) hp
  exact ⟨hg, (groupPass_independent hs hj).elem_forFrom hb hp hg⟩

end

/-- The offsets of a stage are independent: an index belongs to offset p mod 2^(s−1). -/
theorem stageOffset_independent {s n : Nat} (hs : 1 ≤ s) (hsn : s ≤ n) (u : Nat → Word × Word) :
    IndependentPasses (2 ^ n) (2 ^ (s - 1)) (· % 2 ^ (s - 1)) fun j => stageOffset s n j (u j) where
  length _ _ := stageOffset_length _ _ _ _ _
  writesOwn hj hb hp ho := by
    obtain ⟨hg, he⟩ := elem_stageOffset hs hj hsn hb hp
    rw [he]
    exact elem_groupPass_other hs hj hg hb fun h => ho (h.group_offset hs hj).2
  readsOwn hb hc hp hj he := by
    obtain ⟨hg, eb⟩ := elem_stageOffset hs hj hsn hb hp
    obtain ⟨-, ec⟩ := elem_stageOffset hs hj hsn hc hp
    rw [eb, ec]
    exact elem_groupPass_congr hs hj hg hb hc (fun q hq => he q (hq.lt hs hj hg) (hq.group_offset hs hj).2)
      (he _ hp rfl)

/-- A stage in closed form: index p of a pair holds what its butterfly makes of the buffer before the stage (R225). -/
theorem elem_stage {s n g j p : Nat} {b : Cplx} (hs : 1 ≤ s) (hsn : s ≤ n) (hb : HasSize (2 ^ n) b)
    (hj : j < 2 ^ (s - 1)) (hg : g < 2 ^ n / 2 ^ s) (hp : InPair s j g p) :
    elem (stage s n b) p = elem (groupPass s j (twiddleAt s j) g b) p := by
  have hlt := hp.lt hs hj hg
  obtain ⟨hgrp, hoff⟩ := hp.group_offset hs hj
  subst hgrp hoff
  rw [stage_eq_forFrom, (stageOffset_independent hs hsn (twiddleAt s)).elem_forFrom hb hlt hj]
  exact (elem_stageOffset hs hj hsn hb hlt).2

/-- Settles O14: the passes of both loops are independent, so each pair sees the buffer before the stage. -/
theorem stageIsParallelButterflies : Obligations.StageIsParallelButterflies := by
  intro s n b hs hsn hr hm g j hj hg i ip u tr ti
  have hb : HasSize (2 ^ n) b := ⟨hr, hm⟩
  rw [← Nat.pow_div hsn Nat.two_pos] at hg
  have upper : elem (stage s n b) i = (butterfly u (elem b i) (elem b ip)).1 := by
    rw [elem_stage hs hsn hb hj hg (.inl rfl), elem_groupPass hs hj hg hb]
    exact if_pos rfl
  have lower : elem (stage s n b) ip = (butterfly u (elem b i) (elem b ip)).2 := by
    rw [elem_stage hs hsn hb hj hg (.inr rfl), elem_groupPass hs hj hg hb]
    exact (if_neg (Nat.ne_of_gt (Nat.lt_add_of_pos_right (Nat.two_pow_pos _)))).trans (if_pos rfl)
  obtain ⟨upperRe, upperIm⟩ := Prod.mk.inj upper
  obtain ⟨lowerRe, lowerIm⟩ := Prod.mk.inj lower
  exact ⟨upperRe, upperIm, lowerRe, lowerIm⟩

end Sys2Proof.Machine

namespace Sys2Proof.Machine

/-! ## CFFT_CORE and the transforms (spec/41_complex_fft.md R227, R229, R230) -/

/-- CFFT_CORE computes the transform of the words in its buffer: the walk, then the stages (R227). -/
theorem complexTransform_cfftCore {n : Nat} {b : Cplx} (hb : HasSize (2 ^ n) b) {re im : Nat → Word}
    (h : ∀ i, i < 2 ^ n → elem b i = (re i, im i)) : ComplexTransform n re im (cfftCore n b) := by
  obtain ⟨hr, hm⟩ := bitrevWalk_hasSize (n := n) hb
  refine ⟨fun k => forFrom (fun s => stage s n) 1 k (bitrevWalk n b), hr, hm, fun i hi => Prod.mk.inj ?_,
    fun k _ => ?_, rfl⟩
  · exact (elem_bitrevWalk hb (revBits_lt n i)).trans (by rw [revBits_revBits hi, h i hi])
  · dsimp only
    rw [forFrom_last, Nat.add_comm]

theorem cfftCore_hasSize {N n : Nat} {b : Cplx} (hb : HasSize N b) : HasSize N (cfftCore n b) :=
  hb.of_sameLength (cfftCore_length n b)

/-- R230's first loop inverts every sign of IM. -/
theorem elem_negateIm {N p : Nat} {b : Cplx} (hb : HasSize N b) (hp : p < N) :
    elem (negateIm N b) p = ((elem b p).1, fneg (elem b p).2) := by
  refine elem_forFrom_map (g := fun x => (x.1, fneg x.2)) (fun i c => by simp [SameLength])
    (fun i c q hi ⟨_, hm⟩ => ?_) hb hp
  simp only [elem, rd_set q _ (hm ▸ hi)]
  split
  · rename_i hq
    rw [hq]
  · rfl

theorem negateIm_hasSize {N : Nat} {b : Cplx} (hb : HasSize N b) : HasSize N (negateIm N b) :=
  hb.of_sameLength (SameLength.forFrom (fun _ _ => by simp [SameLength]) _ _ _)

/-- R230's last loop divides by N, IM negated first. -/
theorem elem_scaleConjugate {N p : Nat} {b : Cplx} (hb : HasSize N b) (hp : p < N) :
    elem (scaleConjugate N b) p = (fdiv (elem b p).1 (i2f N), fdiv (fneg (elem b p).2) (i2f N)) :=
  elem_forFrom_map (g := fun x => (fdiv x.1 (i2f N), fdiv (fneg x.2) (i2f N))) (fun i c => by simp [SameLength])
    (fun i c q hi hc => elem_set hc hi _ _ q) hb hp

/-- Settles O15: CFFT_FWD is CFFT_CORE run on the loaded words. -/
theorem cfftFwdRunsWalkThenStages : Obligations.CfftFwdRunsWalkThenStages := by
  intro s n hl
  obtain ⟨t, ht, hc, he⟩ := State.runSized_onCplx (cfftCore n.toNat) hl
  exact ⟨t, ht, hc, _, complexTransform_cfftCore (s.loadCplx_hasSize _) fun i hi => s.elem_loadCplx hi,
    fun i hi => Prod.mk.inj (he i hi)⟩

/-- Settles O16: CFFT_INV is CFFT_CORE run on the loaded words with IM negated, each result then negated and scaled. -/
theorem cfftInvIsConjugateIdentity : Obligations.CfftInvIsConjugateIdentity := by
  intro s n hl
  obtain ⟨t, ht, hc, he⟩ := State.runSized_onCplx (cfftInverse n.toNat) hl
  have size := s.loadCplx_hasSize (2 ^ n.toNat)
  refine ⟨t, ht, hc, _, complexTransform_cfftCore (negateIm_hasSize size) fun i hi => ?_,
    fun i hi => Prod.mk.inj ?_⟩
  · rw [elem_negateIm size hi, s.elem_loadCplx hi]
  · rw [he i hi, cfftInverse, elem_scaleConjugate (cfftCore_hasSize (negateIm_hasSize size)) hi]
    rfl

end Sys2Proof.Machine

namespace Sys2Proof.Machine

/-! ## RFFT_CORE and RFFT_FWD (spec/42_real_fft.md R266, R267) -/

theorem pairBuffer_hasSize (m : Nat) (x : Nat → Word) : HasSize m (pairBuffer m x) := by
  simp [HasSize, pairBuffer]

theorem elem_pairBuffer {m i : Nat} (x : Nat → Word) (hi : i < m) :
    elem (pairBuffer m x) i = (x (2 * i), x (2 * i + 1)) := by
  simp only [elem, pairBuffer, rd_map_range _ hi]

/-- RFFT_CORE computes the real transform of the samples in RE, whatever IM holds (R266). -/
theorem realTransform_rfftCore {n : Nat} {b : Cplx} {x : Nat → Word} (hn : 2 ≤ n) (hb : HasSize (2 ^ n) b)
    (hx : ∀ i, i < 2 ^ n → rd b.re i = x i) : RealTransform n x (rfftCore n b) := by
  obtain ⟨e, he, split, special, hstage⟩ := rfftCore_eq_stage hn hb.1 hb.2
  obtain ⟨er, ei⟩ := hb.of_sameLength he
  obtain ⟨q, -, hN, h2, -, -, hH⟩ := sizeParts hn
  refine ⟨_, e, complexTransform_cfftCore ?_ fun i hi => ?_, er, ei, split, special, hstage⟩
  · rw [h2, hH]
    exact pairBuffer_hasSize _ _
  · rw [elem_pairBuffer _ (by omega), hx _ (by omega), hx _ (by omega)]

/-- Settles O17: RFFT_FWD is RFFT_CORE run on the loaded words, of which it needs RE's alone. -/
theorem rfftFwdResultIgnoresIm : Obligations.RfftFwdResultIgnoresIm := by
  intro s n hl
  obtain ⟨hn, -⟩ := legalLog2N_iff.1 hl
  obtain ⟨t, ht, hc, he⟩ := State.runSized_onCplx (rfftCore n.toNat) hl
  exact ⟨t, ht, hc, _, realTransform_rfftCore hn (s.loadCplx_hasSize _) fun i hi => (s.rd_loadCplx hi).1,
    fun i hi => Prod.mk.inj (he i hi)⟩

/-! ## RFFT_INV (spec/42_real_fft.md R268) -/

/-- A pass that sets word i of RE alone: element i gets the new RE word, every other is as before. -/
theorem elem_setRe {N i : Nat} {b : Cplx} (hb : HasSize N b) (hi : i < N) (v : Word) (p : Nat) :
    elem { b with re := b.re.set i v } p = if p = i then (v, (elem b i).2) else elem b p := by
  simp only [elem, rd_set p v (hb.1 ▸ hi)]
  split
  · rename_i hp
    rw [hp]
  · rfl

/-- R268's first loop: the bins up to N/2 stay, the bins above become the conjugates of their mirrors. -/
theorem elem_mirrorBins {N p : Nat} {b : Cplx} (hN : 2 ≤ N) (heven : N % 2 = 0) (hb : HasSize N b) (hp : p < N) :
    elem (mirrorBins N b) p =
      if p ≤ N / 2 then elem b p else ((elem b (N - p)).1, fneg (elem b (N - p)).2) := by
  have inv := forFrom_induct (a := N / 2 + 1) (k := N / 2 - 1) (x := b)
    (f := fun k b => Cplx.mk (b.re.set k (rd b.re (N - k))) (b.im.set k (fneg (rd b.im (N - k)))))
    (P := fun k c => HasSize N c ∧ ∀ q, elem c q =
      if q ≤ N / 2 ∨ k ≤ q then elem b q else ((elem b (N - q)).1, fneg (elem b (N - q)).2))
    ⟨hb, fun q => (if_pos (by omega)).symm⟩ ?_
  · exact (inv.2 p).trans (if_congr (by omega) rfl rfl)
  · rintro k c hlow hhigh ⟨hc, hq⟩
    have source : elem c (N - k) = elem b (N - k) := (hq _).trans (if_pos (by omega))
    obtain ⟨sourceRe, sourceIm⟩ := Prod.mk.inj source
    refine ⟨hasSize_set hc k _ _, fun q => ?_⟩
    rw [elem_set hc (by omega), sourceRe, sourceIm, hq q]
    by_cases hqk : q = k
    · rw [if_pos hqk, if_neg (by omega), hqk]
      rfl
    · rw [if_neg hqk]
      exact if_congr (by omega) rfl rfl

theorem mirrorBins_hasSize {N : Nat} {b : Cplx} (hb : HasSize N b) : HasSize N (mirrorBins N b) :=
  hb.of_sameLength (mirrorBins_length N b)

/-- R268's second loop adds IM to RE. -/
theorem elem_sumReIm {N p : Nat} {b : Cplx} (hb : HasSize N b) (hp : p < N) :
    elem (sumReIm N b) p = (fadd (elem b p).1 (elem b p).2, (elem b p).2) :=
  elem_forFrom_map (g := fun x => (fadd x.1 x.2, x.2)) (fun i c => by simp [SameLength])
    (fun i c q hi hc => elem_setRe hc hi _ q) hb hp

theorem sumReIm_hasSize {N : Nat} {b : Cplx} (hb : HasSize N b) : HasSize N (sumReIm N b) :=
  hb.of_sameLength (SameLength.forFrom (fun _ _ => by simp [SameLength]) _ _ _)

/-- R268's last loop divides the sum of RE and IM by N. -/
theorem elem_sumAndScale {N p : Nat} {b : Cplx} (hb : HasSize N b) (hp : p < N) :
    elem (sumAndScale N b) p = (fdiv (fadd (elem b p).1 (elem b p).2) (i2f N), (elem b p).2) :=
  elem_forFrom_map (g := fun x => (fdiv (fadd x.1 x.2) (i2f N), x.2)) (fun i c => by simp [SameLength])
    (fun i c q hi hc => elem_setRe hc hi _ q) hb hp

theorem rfftCore_hasSize {N n : Nat} {b : Cplx} (hb : HasSize N b) : HasSize N (rfftCore n b) :=
  hb.of_sameLength (rfftCore_length n b)

/-- R268's y of the half spectrum `re`, `im`: the samples RFFT_CORE is given. -/
def halfSpectrumSum (N : Nat) (re im : Nat → Word) (k : Nat) : Word :=
  if k ≤ N / 2 then fadd (re k) (im k) else fadd (re (N - k)) (fneg (im (N - k)))

/-- The first two loops of RFFT_INV leave R268's y in RE. -/
theorem rd_sumReIm_mirrorBins {N i : Nat} {b : Cplx} {re im : Nat → Word} (hN : 2 ≤ N) (heven : N % 2 = 0)
    (hb : HasSize N b) (h : ∀ i, i < N → elem b i = (re i, im i)) (hi : i < N) :
    rd (sumReIm N (mirrorBins N b)).re i = halfSpectrumSum N re im i := by
  have sum := congrArg Prod.fst (elem_sumReIm (mirrorBins_hasSize hb) hi)
  rw [elem_mirrorBins hN heven hb hi] at sum
  refine sum.trans ?_
  by_cases hlow : i ≤ N / 2
  · rw [if_pos hlow, h i hi, halfSpectrumSum, if_pos hlow]
  · rw [if_neg hlow, h (N - i) (by omega), halfSpectrumSum, if_neg hlow]

/-- RFFT_INV leaves its buffer procedure's result in RE and the free words of a draw in IM (R268, U2). -/
theorem State.ram_realInverse (s : State) {n i : Nat} (hN : 2 ^ n ≤ 2 ^ 15) (hi : i < 2 ^ n) :
    (s.realInverse n).ram .re i = rd (rfftInverse n (s.loadCplx (2 ^ n))).re i ∧
      (s.realInverse n).ram .im i = freeWord s.draws (Ram.im.base + 4 * i) := by
  constructor
  · calc (s.realInverse n).ram .re i
      _ = ((s.onCplx (2 ^ n) (rfftInverse n)).drawRam .im (2 ^ n)).ram .re i := State.ram_congr rfl rfl _ _
      _ = (s.onCplx (2 ^ n) (rfftInverse n)).ram .re i := State.ram_setRam_other _ _ (by decide) hN (by omega)
      _ = rd (rfftInverse n (s.loadCplx (2 ^ n))).re i := State.ram_storeCplx_re _ _ hN hi
  · exact (State.ram_congr rfl rfl _ _).trans (State.ram_setRam_same _ _ _ hi)

/-- Settles O18: RFFT_INV is RFFT_CORE run on R268's y, then the sum scaled; its draw fills IM afterwards. -/
theorem rfftInvResult : Obligations.RfftInvResult := by
  intro s n hl
  obtain ⟨hn, -⟩ := legalLog2N_iff.1 hl
  obtain ⟨q, hq, hN, -⟩ := sizeParts hn
  have hwindow : 2 ^ n.toNat ≤ 2 ^ 15 := Nat.pow_le_pow_right (by decide) (Nat.le_of_lt_succ n.isLt)
  have size := s.loadCplx_hasSize (2 ^ n.toNat)
  have ySize := sumReIm_hasSize (mirrorBins_hasSize size)
  have words : ∀ r i, (s.realInverse n.toNat).complete.ram r i = (s.realInverse n.toNat).ram r i :=
    State.ram_congr rfl rfl
  refine ⟨_, State.runSized_legal _ hl, ⟨rfl, rfl, rfl, rfl⟩, rfl,
    ⟨_, realTransform_rfftCore hn ySize fun i hi => ?_, fun i hi => ?_⟩, fun i hi => ?_⟩
  · exact rd_sumReIm_mirrorBins (by omega) (by omega) size (fun i hi => s.elem_loadCplx hi) hi
  · rw [words, (s.ram_realInverse hwindow hi).1]
    exact congrArg Prod.fst (elem_sumAndScale (rfftCore_hasSize ySize) hi)
  · rw [words, (s.ram_realInverse hwindow hi).2]

end Sys2Proof.Machine

namespace Sys2Proof.Machine

/-! ## POLAR (spec/43_polar.md R290 to R293) -/

@[simp] theorem State.ram_complete (s : State) (r : Ram) (i : Nat) : s.complete.ram r i = s.ram r i :=
  State.ram_congr s.complete_mem s.complete_powerDraw r i

/-- POLAR writes RE first and IM from the words before, which the RE writes leave alone: RE[i] is the magnitude and
IM[i] the phase of the element before. -/
theorem State.ram_toPolar (s : State) {C i : Nat} (hC : C ≤ 2 ^ 15) (hi : i < C) :
    (s.toPolar C).ram .re i = polarMag (s.ram .re i) (s.ram .im i) ∧
      (s.toPolar C).ram .im i = polarPhase (s.ram .re i) (s.ram .im i) :=
  ⟨(State.ram_setRam_other _ _ (by decide) hC (by omega)).trans (State.ram_setRam_same _ _ _ hi),
    State.ram_setRam_same _ _ _ hi⟩

/-- Settles O19: a legal COUNT fits a RAM's window, so each element is converted by `State.ram_toPolar`. -/
theorem polarConvertsEachElement : Obligations.PolarConvertsEachElement := by
  intro s c ⟨_, hmax, _⟩ hl
  have hC : c.toNat ≤ 2 ^ 15 := (legalCount_iff.1 hl).2.trans (Nat.pow_le_pow_right (by decide) hmax)
  refine ⟨_, State.runCounted_legal _ hl, ⟨rfl, rfl, rfl, rfl⟩, fun i hi => ?_⟩
  rw [State.ram_complete, State.ram_complete]
  exact s.ram_toPolar hC hi

/-! ### Signs (spec/40_numerics.md R182 to R187) -/

theorem isNeg_RN (x : ℚ) : isNeg (RN x) = decide (x < 0) := isNeg_pack (roundMag_lt _ _)

theorem val_nonneg {a : Word} (h : isNeg a = false) : 0 ≤ val a := by
  rw [val, h, if_neg Bool.false_ne_true, magVal_eq]
  positivity

/-- The product of a word with itself has sign bit 0: equal signs cancel, and a square is not negative. -/
theorem isNeg_fmul_self (a : Word) : isNeg (fmul a a) = false := by
  simp only [fmul, Bool.xor_self]
  split
  · rfl
  split
  · rfl
  split
  · rfl
  split
  · rfl
  · rw [isNeg_RN, decide_eq_false (mul_self_nonneg _).not_gt]

/-- A sum of words of sign bit 0 has sign bit 0: its exact value is not negative, and an exact zero is +0. -/
theorem isNeg_fadd {a b : Word} (ha : isNeg a = false) (hb : isNeg b = false) : isNeg (fadd a b) = false := by
  unfold fadd
  split
  · rfl
  split
  · rfl
  split
  · exact ha
  split
  · exact hb
  split
  · have hpos : a ≠ minusZero := by rintro rfl; exact absurd ha (by decide)
    rw [if_neg fun h => hpos h.1]
    rfl
  · rw [isNeg_RN, decide_eq_false (add_nonneg (val_nonneg ha) (val_nonneg hb)).not_gt]

/-- A root has its sign bit set for −0 alone, which fsqrt hands back (R187). -/
theorem isNeg_fsqrt {a : Word} (ha : isNeg a = false) : isNeg (fsqrt a) = false := by
  unfold fsqrt
  split
  · rfl
  split
  · exact ha
  split
  · rfl
  split
  · rfl
  · exact isNeg_pack (roundMag_lt _ _)

/-- Settles O20: neither square has its sign bit set, so neither has their sum, nor its root. -/
theorem polarMagnitudeHasNoSign : Obligations.PolarMagnitudeHasNoSign := fun r x =>
  isNeg_fsqrt (isNeg_fadd (isNeg_fmul_self r) (isNeg_fmul_self x))

end Sys2Proof.Machine

namespace Sys2Proof.Machine

/-! ## WINDOW, GENWIN and WINAPPLY (spec/44_window.md R310 to R313) -/

/-- GENWIN's body leaves the coefficients of its window in WIN (R312). -/
theorem State.ram_generateWindow (s : State) (k : WindowKind) (kind : BitVec 3) {n : BitVec 4} {i : Nat}
    (hi : i < 2 ^ n.toNat) : (s.generateWindow k kind n).ram .win i = window k (2 ^ n.toNat) i :=
  s.ram_setRam_same .win (window k (2 ^ n.toNat)) hi

/-- Settles O21: with a legal kind and size GENWIN is its body, which writes the window and then the tag. -/
theorem genwinWritesWindowAndTag : Obligations.GenwinWritesWindowAndTag := by
  intro s kind n k hk hl
  refine ⟨_, State.runWindowed_legal _ hk hl, ⟨rfl, rfl, rfl, rfl⟩, rfl, fun i hi => ?_⟩
  rw [State.ram_complete, s.ram_generateWindow k kind hi]

/-- WINAPPLY's body multiplies the first C words of RE by their coefficients (R313). -/
theorem State.ram_applyWindow (s : State) {C i : Nat} (hi : i < C) :
    (s.applyWindow C).ram .re i = fmul (s.ram .re i) (s.ram .win i) :=
  State.ram_setRam_same _ _ _ hi

/-- WINAPPLY's body writes RE alone (R313). -/
theorem State.ram_applyWindow_other (s : State) {q : Ram} {C i : Nat} (hq : q ≠ .re) (hC : C ≤ 2 ^ 15)
    (hi : i < 2 ^ 15) : (s.applyWindow C).ram q i = s.ram q i :=
  State.ram_setRam_other _ _ hq hC hi

/-- Settles O23: a legal COUNT fits RE, so the products do not reach WIN. -/
theorem winapplyMultipliesEachSample : Obligations.WinapplyMultipliesEachSample := by
  intro s c hp hl
  have hC : c.toNat ≤ 2 ^ 15 := (legalCount_iff.1 hl).2.trans (Ram.words_le hp .re)
  refine ⟨_, State.runCounted_legal _ hl, ⟨rfl, rfl, rfl, rfl⟩, rfl, fun i hi => ?_, fun i hi => ?_⟩
  · rw [State.ram_complete, s.ram_applyWindow hi]
  · rw [State.ram_complete, s.ram_applyWindow_other (by decide) hC hi]

/-- R310's |n| by cases: the distance of i from half, measured on the side where i lies. -/
theorem windowAbs_eq (N i : Nat) :
    windowAbs N i = i2f (if windowHalf N ≤ i then (i - windowHalf N : Nat) else (windowHalf N - i : Nat)) := by
  unfold windowAbs
  congr 1
  split <;> omega

/-- Settles O22: R311's formulas are the definition's cases; only |n| is written otherwise, by `windowAbs_eq`. -/
theorem windowFormulas : Obligations.WindowFormulas := by
  intro N i half k an a2 a4
  have han : windowAbs N i = an := windowAbs_eq N i
  refine ⟨rfl, ?_, rfl, rfl, rfl, ?_⟩
  · exact congrArg (fun x => fsub ONE (fmul k x)) han
  · exact congrArg (fun x => fsub ONE (fsqrt (fmul k x))) han

end Sys2Proof.Machine

namespace Sys2Proof.Machine

/-! ## DB_ELEM and DBCONV (spec/45_db_pipeline.md R340, R341) -/

/-- Settles O25: the floor is not below itself, and a value that is not clamped was not below it. -/
theorem decibelNeverBelowFloor : Obligations.DecibelNeverBelowFloor := by
  intro m N
  unfold dbElem
  split
  · exact flt_self M100
  · exact Bool.eq_false_iff.2 ‹_›

/-- DBCONV's body writes the dB values of the first N/2 words of RE to DB (R341). -/
theorem State.ram_toDecibel (s : State) {n i : Nat} (hi : i < 2 ^ n / 2) :
    (s.toDecibel n).ram .db i = dbElem (s.ram .re i) (2 ^ n) :=
  State.ram_setRam_same _ _ _ hi

/-- DBCONV's body writes DB alone (R341). -/
theorem State.ram_toDecibel_other (s : State) {q : Ram} {n i : Nat} (hq : q ≠ .db) (hn : 2 ^ n / 2 ≤ 2 ^ 15)
    (hi : i < 2 ^ 15) : (s.toDecibel n).ram q i = s.ram q i :=
  State.ram_setRam_other _ _ hq hn hi

/-- Settles O24: R340's clamped value is DB_ELEM, and N/2 words fit DB, so RE and IM keep theirs. -/
theorem dbconvConvertsHalfTheBins : Obligations.DbconvConvertsHalfTheBins := by
  intro s n hl
  have hN : 2 ^ n.toNat / 2 ≤ 2 ^ 15 := (Nat.div_le_self _ _).trans (two_pow_log2n_le n)
  refine ⟨_, State.runSized_legal _ hl, ⟨rfl, rfl, rfl, rfl⟩, fun i hi => ?_, fun i hi => ?_⟩
  · rw [State.ram_complete, s.ram_toDecibel hi]
    rfl
  · rw [State.ram_complete, State.ram_complete]
    exact ⟨s.ram_toDecibel_other (by decide) hN hi, s.ram_toDecibel_other (by decide) hN hi⟩

end Sys2Proof.Machine

namespace Sys2Proof.Machine

/-! ## SPECTRUM as its five commands (spec/45_db_pipeline.md R342) -/

/-- SPECTRUM once its window is in WIN: the products of step 1, then steps 2 to 4 (R342). -/
def State.afterWindow (n : BitVec 4) (s : State) : State :=
  (((s.applyWindow (2 ^ n.toNat)).realForward n.toNat).toPolar (2 ^ n.toNat / 2)).toDecibel n.toNat

@[simp] theorem State.applyWindow_params (s : State) (C : Nat) : (s.applyWindow C).params = s.params :=
  s.setRam_params ..

@[simp] theorem State.realForward_params (s : State) (n : Nat) : (s.realForward n).params = s.params :=
  s.storeCplx_params ..

@[simp] theorem State.toPolar_params (s : State) (C : Nat) : (s.toPolar C).params = s.params := by
  simp only [State.toPolar, State.setRam_params]

@[simp] theorem State.afterWindow_winTag (s : State) (n : BitVec 4) : (s.afterWindow n).winTag = s.winTag := by
  simp only [State.afterWindow, State.toDecibel, State.toPolar, State.realForward, State.onCplx, State.applyWindow,
    State.setRam_winTag, State.storeCplx_winTag]

/-- A legal SPECTRUM puts its window in place, does the rest and completes. -/
theorem exec_spectrum {s : State} {kind : BitVec 3} {k : WindowKind} {n : BitVec 4}
    (hk : WindowKind.ofField kind = some k) (hl : legalLog2N s.params.log2Nmax 2 n = true) :
    exec (.spectrum kind n) s = .next ((s.ensureWindow k kind n).afterWindow n).complete :=
  State.runWindowed_legal _ hk hl

theorem State.ensureWindow_hit {s : State} (k : WindowKind) {kind : BitVec 3} {n : BitVec 4}
    (h : s.tagHit kind n = true) : s.ensureWindow k kind n = s := if_pos h

theorem State.ensureWindow_miss {s : State} (k : WindowKind) {kind : BitVec 3} {n : BitVec 4}
    (h : ¬ s.tagHit kind n = true) : s.ensureWindow k kind n = s.generateWindow k kind n := if_neg h

/-! The bodies neither read nor write DONE and BUSY, so a completion before a body can be done after it. -/

theorem State.complete_complete (s : State) : s.complete.complete = s.complete := rfl

theorem State.setRam_complete (s : State) (r : Ram) (n : Nat) (w : Nat → Word) :
    s.complete.setRam r n w = (s.setRam r n w).complete := rfl

theorem State.loadCplx_complete (s : State) (N : Nat) : s.complete.loadCplx N = s.loadCplx N := by
  simp only [State.loadCplx, State.loadRam, funext (State.ram_complete s _)]

theorem State.applyWindow_complete (s : State) (C : Nat) :
    s.complete.applyWindow C = (s.applyWindow C).complete := by
  simp only [State.applyWindow, State.ram_complete]
  exact State.setRam_complete ..

theorem State.realForward_complete (s : State) (n : Nat) :
    s.complete.realForward n = (s.realForward n).complete := by
  rw [State.realForward, State.onCplx, State.storeCplx, State.loadCplx_complete, State.setRam_complete,
    State.setRam_complete]
  rfl

theorem State.toPolar_complete (s : State) (C : Nat) : s.complete.toPolar C = (s.toPolar C).complete := by
  simp only [State.toPolar, State.ram_complete]
  rw [State.setRam_complete, State.setRam_complete]

theorem State.toDecibel_complete (s : State) (n : Nat) : s.complete.toDecibel n = (s.toDecibel n).complete := by
  simp only [State.toDecibel, State.ram_complete]
  exact State.setRam_complete ..

theorem State.afterWindow_complete (s : State) (n : BitVec 4) :
    s.complete.afterWindow n = (s.afterWindow n).complete := by
  rw [State.afterWindow, State.applyWindow_complete, State.realForward_complete, State.toPolar_complete,
    State.toDecibel_complete, State.afterWindow]

/-- A counted command whose COUNT is written as a number: one up to NMAX that a RAM's window can hold is legal and fits
the field. -/
theorem State.runCounted_ofNat {s : State} {C : Nat} (body : Nat → State → State) (h1 : 1 ≤ C) (hw : C ≤ 2 ^ 15)
    (hmax : C ≤ 2 ^ s.params.log2Nmax) :
    s.runCounted (BitVec.ofNat 16 C) (body (BitVec.ofNat 16 C).toNat) = .next (body C s).complete := by
  have hC : (BitVec.ofNat 16 C).toNat = C := by
    rw [BitVec.toNat_ofNat]
    omega
  rw [State.runCounted_legal _ (legalCount_iff.2 (by rw [hC]; exact ⟨h1, hmax⟩)), hC]

/-- WINAPPLY N, RFFT_FWD n, POLAR N/2 and DBCONV n all complete, and together do what SPECTRUM
does once its window is in WIN. -/
theorem exec_commands_afterWindow {s : State} {n : BitVec 4} (hl : legalLog2N s.params.log2Nmax 2 n = true) :
    ∃ s2 s3 s4,
      exec (.winapply (BitVec.ofNat 16 (2 ^ n.toNat))) s = .next s2 ∧
      exec (.rfftFwd n) s2 = .next s3 ∧
      exec (.polar (BitVec.ofNat 16 (2 ^ n.toNat / 2))) s3 = .next s4 ∧
      exec (.dbconv n) s4 = .next (s.afterWindow n).complete := by
  obtain ⟨hn, hmax⟩ := legalLog2N_iff.1 hl
  obtain ⟨q, hq, -, half, -⟩ := sizeParts hn
  have hw := two_pow_log2n_le n
  have hN : 2 ^ n.toNat ≤ 2 ^ s.params.log2Nmax := Nat.pow_le_pow_right (by decide) hmax
  have h2 : 2 ^ n.toNat / 2 ≤ 2 ^ n.toNat := Nat.div_le_self _ _
  have winapply : exec (.winapply (BitVec.ofNat 16 (2 ^ n.toNat))) s = .next (s.applyWindow (2 ^ n.toNat)).complete :=
    State.runCounted_ofNat State.applyWindow (by omega) hw hN
  have rfft : ∀ u : State, u.params = s.params → exec (.rfftFwd n) u = .next (u.realForward n.toNat).complete :=
    fun u hu => State.runSized_legal _ (hu ▸ hl)
  have polar : ∀ u : State, u.params = s.params →
      exec (.polar (BitVec.ofNat 16 (2 ^ n.toNat / 2))) u = .next (u.toPolar (2 ^ n.toNat / 2)).complete :=
    fun u hu => State.runCounted_ofNat State.toPolar (by omega) (h2.trans hw) (h2.trans (hu ▸ hN))
  have dbconv : ∀ u : State, u.params = s.params → exec (.dbconv n) u = .next (u.toDecibel n.toNat).complete :=
    fun u hu => State.runSized_legal _ (legalLog2N_iff.2 ⟨by omega, hu ▸ hmax⟩)
  have params2 := (State.complete_params _).trans (s.applyWindow_params (2 ^ n.toNat))
  have params3 := (State.complete_params _).trans ((State.realForward_params _ n.toNat).trans params2)
  have params4 := (State.complete_params _).trans ((State.toPolar_params _ (2 ^ n.toNat / 2)).trans params3)
  refine ⟨_, _, _, winapply, rfft _ params2, polar _ params3, (dbconv _ params4).trans ?_⟩
  rw [State.realForward_complete, State.complete_complete, State.toPolar_complete, State.complete_complete,
    State.toDecibel_complete, State.complete_complete, State.afterWindow]

/-- Settles O26: on a tag hit the four commands start from the state itself, on a miss from the one GENWIN completes;
either way SPECTRUM has its window there and goes on as they do. -/
theorem spectrumIsItsFiveCommands : Obligations.SpectrumIsItsFiveCommands := by
  intro s kind n hkind hl
  obtain ⟨k, hk⟩ := WindowKind.exists_of_legalKind hkind
  have spectrum := exec_spectrum hk hl
  by_cases hit : s.tagHit kind n = true
  · obtain ⟨s2, s3, s4, winapply, rfft, polar, dbconv⟩ := exec_commands_afterWindow hl
    rw [State.ensureWindow_hit k hit] at spectrum
    exact ⟨s, s2, s3, s4, _, by rw [if_pos hit], winapply, rfft, polar, dbconv, spectrum⟩
  · have genwin : exec (.genwin kind n) s = .next (s.generateWindow k kind n).complete :=
      State.runWindowed_legal _ hk hl
    obtain ⟨s2, s3, s4, winapply, rfft, polar, dbconv⟩ :=
      exec_commands_afterWindow (s := (s.generateWindow k kind n).complete) hl
    rw [State.afterWindow_complete, State.complete_complete] at dbconv
    rw [State.ensureWindow_miss k hit] at spectrum
    exact ⟨_, s2, s3, s4, _, by rw [if_neg hit, genwin], winapply, rfft, polar, dbconv, spectrum⟩

end Sys2Proof.Machine

namespace Sys2Proof.Machine

/-! ## What SPECTRUM depends on (spec/45_db_pipeline.md R343) -/

theorem State.tagHit_iff {s : State} {kind : BitVec 3} {n : BitVec 4} :
    s.tagHit kind n = true ↔ s.winTag = { valid := true, kind := kind, log2n := n } := by
  cases h : s.winTag
  simp [State.tagHit, h, and_assoc]

/-- With the window in place WINTAG = (1, kind, n), on a hit and on a miss. -/
theorem State.ensureWindow_winTag (s : State) (k : WindowKind) (kind : BitVec 3) (n : BitVec 4) :
    (s.ensureWindow k kind n).winTag = { valid := true, kind := kind, log2n := n } := by
  by_cases hit : s.tagHit kind n = true
  · rw [State.ensureWindow_hit k hit, State.tagHit_iff.1 hit]
  · rw [State.ensureWindow_miss k hit]
    rfl

/-- The window put in place is the one KIND and LOG2N name: R70 says so on a hit, R312 on a miss. -/
theorem State.ram_ensureWindow_win {s : State} (h : s.WindowHeld) {kind : BitVec 3} {k : WindowKind}
    (hk : WindowKind.ofField kind = some k) {n : BitVec 4} {i : Nat} (hi : i < 2 ^ n.toNat) :
    (s.ensureWindow k kind n).ram .win i = window k (2 ^ n.toNat) i := by
  by_cases hit : s.tagHit kind n = true
  · rw [State.ensureWindow_hit k hit]
    unfold State.WindowHeld at h
    rw [State.tagHit_iff.1 hit] at h
    exact h rfl k hk i hi
  · rw [State.ensureWindow_miss k hit, s.ram_generateWindow k kind hi]

/-- Putting the window in place writes WIN alone. -/
theorem State.ram_ensureWindow_other (s : State) (k : WindowKind) (kind : BitVec 3) (n : BitVec 4) {q : Ram} {i : Nat}
    (hq : q ≠ .win) (hi : i < 2 ^ 15) : (s.ensureWindow k kind n).ram q i = s.ram q i := by
  by_cases hit : s.tagHit kind n = true
  · rw [State.ensureWindow_hit k hit]
  · rw [State.ensureWindow_miss k hit]
    exact State.ram_setRam_other s _ hq (two_pow_log2n_le n) hi

/-- Where WINTAG tells the truth, two states with the same samples agree on the window too once it is in place. -/
theorem SameWordsIn.ensureWindow_of_windowHeld {s t : State} (hs : s.WindowHeld) (ht : t.WindowHeld)
    {kind : BitVec 3} {k : WindowKind} (hk : WindowKind.ofField kind = some k) {n : BitVec 4}
    (h : SameWordsIn [(.re, 2 ^ n.toNat)] s t) :
    SameWordsIn [(.win, 2 ^ n.toNat), (.re, 2 ^ n.toNat)] (s.ensureWindow k kind n) (t.ensureWindow k kind n) := by
  simp only [SameWordsIn, List.forall_mem_cons, List.not_mem_nil, false_implies, implies_true, and_true] at h ⊢
  refine ⟨fun i hi => ?_, fun i hi => ?_⟩
  · rw [State.ram_ensureWindow_win hs hk hi, State.ram_ensureWindow_win ht hk hi]
  · have hw : i < 2 ^ 15 := hi.trans_le (two_pow_log2n_le n)
    rw [s.ram_ensureWindow_other _ _ _ (by decide) hw, t.ram_ensureWindow_other _ _ _ (by decide) hw, h i hi]

/-- What SPECTRUM does then depends on RE[0 .. N) and WIN[0 .. N) alone. -/
theorem SameWordsIn.afterWindow {s t : State} {n : BitVec 4} (hn : 2 ≤ n.toNat)
    (h : SameWordsIn [(.win, 2 ^ n.toNat), (.re, 2 ^ n.toNat)] s t) :
    SameWordsIn [(.win, 2 ^ n.toNat), (.re, 2 ^ n.toNat), (.im, 2 ^ n.toNat), (.db, 2 ^ n.toNat / 2)]
      (s.afterWindow n) (t.afterWindow n) := by
  have windowed := h.applyWindow (C := 2 ^ n.toNat) (by simp) (by simp)
  have transformed := windowed.realForward hn (by simp)
  have polar := transformed.toPolar (C := 2 ^ n.toNat / 2) (k := 2 ^ n.toNat) (by simp) (by simp) (Nat.div_le_self _ _)
  exact (polar.toDecibel (n := n.toNat) (by simp)).mono (by simp)

theorem SameWordsIn.complete {bs : List (Ram × Nat)} {s t : State} (h : SameWordsIn bs s t) :
    SameWordsIn bs s.complete t.complete :=
  h.of_mem_eq ⟨rfl, rfl⟩ ⟨rfl, rfl⟩

/-- STATUS after a command with legal operands (R370). -/
theorem completedFrom_bodyOf {i : Instr} {s : State} (hl : i.WellFormed s.params.log2Nmax = true) :
    CompletedFrom s (bodyOf i s).complete := by
  obtain ⟨-, -, herr, hcode⟩ := bodyOf_status hl
  exact ⟨rfl, rfl, herr, hcode⟩

/-- Settles O27: both runs get the same window and tag, and the rest sees the window and the samples only. -/
theorem spectrumDependsOnSamplesAlone : Obligations.SpectrumDependsOnSamplesAlone := by
  intro s1 s2 kind n hkind hl1 hl2 h1 h2 h
  obtain ⟨k, hk⟩ := WindowKind.exists_of_legalKind hkind
  have completed := completedFrom_bodyOf (i := .spectrum kind n) (Bool.and_eq_true_iff.2 ⟨hkind, hl1⟩)
  rw [bodyOf_spectrum hk] at completed
  have words := (h.ensureWindow_of_windowHeld h1 h2 hk).afterWindow (legalLog2N_iff.1 hl1).1
  refine ⟨_, _, exec_spectrum hk hl1, exec_spectrum hk hl2, completed, words.complete, ?_, ?_⟩
  · rw [State.complete_winTag, State.afterWindow_winTag, State.ensureWindow_winTag]
  · rw [State.complete_winTag, State.complete_winTag, State.afterWindow_winTag, State.afterWindow_winTag,
      State.ensureWindow_winTag, State.ensureWindow_winTag]

end Sys2Proof.Machine

namespace Sys2Proof.Machine

/-! ## The core's turn (spec/46_control.md R370, R372) -/

/-- An idle core keeps its state (R370). -/
theorem State.coreTurn_idle {s : State} (hb : s.busy = false) : s.coreTurn = .next s := by
  simp [State.coreTurn, hb]

/-- A busy core executes the instruction its CMD word decodes to (R370). -/
theorem State.coreTurn_decoded {s : State} {i : Instr} (hb : s.busy = true) (hd : decode s.cmd = .ok i) :
    s.coreTurn = exec i s := by
  simp [State.coreTurn, hb, State.execute, hd]

/-- A busy core whose CMD word is no command raises the decoder's error (R386). -/
theorem State.coreTurn_undecoded {s : State} {e : CmdError} (hb : s.busy = true) (hd : decode s.cmd = .error e) :
    s.coreTurn = .next (s.raiseCmdError e) := by
  simp [State.coreTurn, hb, State.execute, hd]

/-- A command with its operands in range does its body and completes (R370). -/
theorem exec_wellFormed {i : Instr} {s : State} (hl : i.WellFormed s.params.log2Nmax = true) :
    exec i s = .next (bodyOf i s).complete := by
  simp [exec_eq, (Instr.rangeError_eq_none_iff _ i).2 hl]

/-- A command with an operand out of range raises its error (R386). -/
theorem exec_rejected {i : Instr} {s : State} {e : CmdError} (hr : i.rangeError s.params.log2Nmax = some e) :
    exec i s = .next (s.raiseCmdError e) := by
  simp [exec_eq, hr]

/-- R151's verdict on an accepted word is the range error of its instruction. -/
theorem classify_of_decode_ok {w : Word} {i : Instr} (log2Nmax : Nat) (hd : decode w = .ok i) :
    classify log2Nmax w = i.rangeError log2Nmax := by
  rw [← encodeInvertsDecode w i hd, classify_encode]

/-- A busy core whose CMD word R151 rejects raises the error of the first failing check (R386). -/
theorem State.coreTurn_rejected {s : State} {e : CmdError} (hb : s.busy = true)
    (hc : classify s.params.log2Nmax s.cmd = some e) : s.coreTurn = .next (s.raiseCmdError e) := by
  cases hd : decode s.cmd with
  | error e' =>
    cases (classify_of_decode_error _ hd).symm.trans hc
    exact State.coreTurn_undecoded hb hd
  | ok i =>
    rw [State.coreTurn_decoded hb hd]
    exact exec_rejected ((classify_of_decode_ok _ hd).symm.trans hc)

/-- A busy core whose CMD word R151 finds legal completes a well-formed command, the one the word encodes (R370). -/
theorem State.coreTurn_legal {s : State} (hb : s.busy = true) (hc : classify s.params.log2Nmax s.cmd = none) :
    ∃ i, decode s.cmd = .ok i ∧ i.WellFormed s.params.log2Nmax = true ∧
      s.coreTurn = .next (bodyOf i s).complete := by
  cases hd : decode s.cmd with
  | error e => cases (classify_of_decode_error _ hd).symm.trans hc
  | ok i =>
    have hl := (Instr.rangeError_eq_none_iff _ i).1 ((classify_of_decode_ok _ hd).symm.trans hc)
    exact ⟨i, rfl, hl, (State.coreTurn_decoded hb hd).trans (exec_wellFormed hl)⟩

/-- Settles O8: a rejected word changes STATUS by its command error alone, and the body of a legal one leaves ERR and
ERRCODE at the 0 the accepting CMD write gave them. -/
theorem executeEndsWithDoneOrErr : Obligations.ExecuteEndsWithDoneOrErr := by
  intro s ts hturns hb hdone herr hcode
  have hstep : step s = State.coreTurn { s with turns := ts } := step_turn hturns
  split
  next hc =>
    obtain ⟨i, -, hl, ht⟩ := State.coreTurn_legal (s := { s with turns := ts }) hb hc
    obtain ⟨hbusy, hdone', herr', hcode'⟩ := completedFrom_bodyOf hl
    exact ⟨_, hstep.trans ht, hbusy, hdone', herr'.trans herr, hcode'.trans hcode⟩
  next e hc => exact ⟨_, hstep.trans (State.coreTurn_rejected hb hc), rfl, hdone, rfl, rfl⟩

/-- Settles O12: with its operands in range a command is its body and a completion, and no command writes outside
memory, WINTAG, the draws and STATUS. -/
theorem wellFormedCommandCompletes : Obligations.WellFormedCommandCompletes := by
  intro i s hl
  obtain ⟨hframe, -⟩ := exec_frame (exec_wellFormed hl)
  exact ⟨_, exec_wellFormed hl, completedFrom_bodyOf hl, hframe⟩

/-- Settles O6: the core's turn, taken off the list or after its end, is EXECUTE on a busy core and nothing on an idle
one. -/
theorem stepRunsDecodedInstruction : Obligations.StepRunsDecodedInstruction := by
  refine ⟨fun s i hb hd => ⟨fun hturns => ?_, fun ts hturns => ?_⟩, fun s hb => ⟨fun hturns => ?_, fun ts hturns => ?_⟩⟩
  · exact (step_silent hturns).trans (State.coreTurn_decoded hb hd)
  · exact (step_turn hturns).trans (State.coreTurn_decoded (s := { s with turns := ts }) hb hd)
  · exact (step_silent hturns).trans (State.coreTurn_idle hb)
  · exact (step_turn hturns).trans (State.coreTurn_idle (s := { s with turns := ts }) hb)

/-! ## NOP (spec/46_control.md R371) -/

/-- NOP has no body: it completes. -/
theorem exec_nop (s : State) : exec .nop s = .next s.complete := rfl

/-- Row 0 of the opcode table has one word. -/
theorem decode_of_op_zero {w : Word} (hop : fieldOp w = 0) : decode w = if w = 0 then .ok .nop else .error .rsvd := by
  simp [decode, hop]

/-- Settles O11. -/
theorem nopOnlyCompletes : Obligations.NopOnlyCompletes :=
  ⟨exec_nop, fun _ => decode_of_op_zero⟩

end Sys2Proof.Machine

namespace Sys2Proof.Machine

/-! ## Every step answers a next state (spec/60_exceptions.md R386, R387, spec/70_reset_and_hazards.md R434) -/

/-- Settles O7: the core's turn on a rejected word, and `exec` on an operand out of range, are the command error. -/
theorem commandErrorWritesStatusOnly : Obligations.CommandErrorWritesStatusOnly := by
  refine ⟨fun s ts e hturns hb hc => ?_, fun i s e => exec_rejected⟩
  have hstep := (step_turn hturns).trans (State.coreTurn_rejected (s := { s with turns := ts }) hb hc)
  exact ⟨_, hstep, rfl, by simp [State.irq]⟩

/-- The core's turn answers a next state: an idle core keeps its own, a command ends completed or rejected (R387). -/
theorem State.coreTurn_next (s : State) : ∃ t, s.coreTurn = .next t := by
  obtain ⟨-, hc⟩ | ⟨-, e, hc⟩ | ⟨-, i, -, hc⟩ := s.coreTurn_cases
  · exact ⟨_, hc⟩
  · exact ⟨_, hc⟩
  · exact ⟨_, hc.trans (exec_eq i s)⟩

/-- Settles O9: the core's turn has a next state, and the turns of the host and the platform are next states. -/
theorem noStepStops : Obligations.NoStepStops := by
  intro s
  obtain ⟨-, hs⟩ | ⟨_, ts, -, ⟨-, hs⟩ | ⟨addr, size, lanes, -, hs⟩ | ⟨addr, size, lanes, w, -, hs⟩ | ⟨-, hs⟩⟩ :=
    step_cases s
  · exact hs ▸ s.coreTurn_next
  · exact hs ▸ State.coreTurn_next _
  · exact ⟨_, hs⟩
  · exact ⟨_, hs⟩
  · exact ⟨_, hs⟩

end Sys2Proof.Machine

namespace Sys2Proof.Machine

/-! ## The address map by kind of target (spec/20_memory.md R101, R110, R111) -/

/-- The offsets a target stands for, in the words of R101's map. -/
def Target.At (log2Nmax off : Nat) : Target → Prop
  | .id => off = 0x000
  | .config => off = 0x004
  | .cmd => off = 0x008
  | .status => off = 0x00C
  | .ctrl => off = 0x010
  | .winTag => off = 0x014
  | .rom _ _ => InRomWindow off
  | .ram _ _ => MappedRam log2Nmax off
  | .reserved => ¬ Mapped log2Nmax off

/-- The RAM windows lie above the registers and TWROM (R101). -/
theorem MappedRam.le_offset {log2Nmax off : Nat} (h : MappedRam log2Nmax off) : 0x20000 ≤ off := by
  obtain ⟨r, i, rfl, -, -⟩ := h
  cases r <;> simp only [Ram.base] <;> omega

/-- Above TWROM only RAM words are mapped (R101). -/
theorem mapped_iff_mappedRam {log2Nmax off : Nat} (h : 0x20000 ≤ off) :
    Mapped log2Nmax off ↔ MappedRam log2Nmax off := by
  simp only [Mapped, InRomWindow]
  constructor
  · rintro (hreg | hrom | hram)
    · omega
    · omega
    · exact hram
  · exact fun hram => .inr (.inr hram)

/-- In a RAM's window exactly the words the RAM has are mapped: the four windows are disjoint (R101, R110). -/
theorem mappedRam_iff_of_window {log2Nmax off : Nat} {r : Ram} (ha : off % 4 = 0) (hlo : r.base ≤ off)
    (hhi : off < r.base + 0x20000) : MappedRam log2Nmax off ↔ (off - r.base) / 4 < r.words log2Nmax := by
  have hr := r.base_window
  constructor
  · rintro ⟨q, i, rfl, hw, hi⟩
    obtain rfl : q = r := by
      by_contra hq
      have := Ram.base_apart hq
      omega
    rwa [Nat.add_sub_cancel_left, Nat.mul_div_cancel_left i (by decide)]
  · exact fun hw => ⟨r, _, by omega, hw, by omega⟩

/-- A RAM window's target stands for its offset. -/
theorem ramTarget_at {log2Nmax off : Nat} {r : Ram} (ha : off % 4 = 0) (hlo : r.base ≤ off)
    (hhi : off < r.base + 0x20000) : (ramTarget log2Nmax off r).At log2Nmax off := by
  have hoff : 0x20000 ≤ off := by cases r <;> simp only [Ram.base] at hlo <;> omega
  have hmapped := mappedRam_iff_of_window (log2Nmax := log2Nmax) ha hlo hhi
  unfold ramTarget
  split
  next hw => exact hmapped.2 hw
  next hw => exact fun hm => hw (hmapped.1 ((mapped_iff_mappedRam hoff).1 hm))

/-- A choice of targets stands for an offset if each target does on its side of the choice. -/
theorem Target.at_ite {log2Nmax off : Nat} {c : Prop} [Decidable c] {t u : Target} (ht : c → t.At log2Nmax off)
    (hu : ¬ c → u.At log2Nmax off) : (if c then t else u).At log2Nmax off := by
  split
  next hc => exact ht hc
  next hc => exact hu hc

/-- The address map gives each aligned offset a target that stands for it. -/
theorem decodeOffset_at (log2Nmax : Nat) {off : Nat} (ha : off % 4 = 0) :
    (decodeOffset log2Nmax off).At log2Nmax off := by
  unfold decodeOffset
  refine Target.at_ite id fun hid => Target.at_ite id fun hconfig => Target.at_ite id fun hcmd =>
    Target.at_ite id fun hstatus => Target.at_ite id fun hctrl => Target.at_ite id fun htag =>
    Target.at_ite id fun hrom => Target.at_ite (fun h => ramTarget_at ha h.1 h.2) fun hre =>
    Target.at_ite (fun h => ramTarget_at ha h.1 h.2) fun him =>
    Target.at_ite (fun h => ramTarget_at ha h.1 h.2) fun hwin =>
    Target.at_ite (fun h => ramTarget_at ha h.1 h.2) fun hdb => ?_
  rintro (hreg | hr | ⟨r, i, rfl, -, hi⟩)
  · omega
  · exact hrom hr
  · cases r <;> simp only [Ram.base] at hre him hwin hdb <;> omega

/-! ## The causes of an ERROR response (spec/60_exceptions.md R381) -/

/-- A well-formed access is of a whole aligned word (R106, R107). -/
theorem wellFormedAccess_iff {off size : Nat} {lanes : BitVec 4} :
    wellFormedAccess off size lanes = true ↔ size = 4 ∧ off % 4 = 0 ∧ lanes = 0xF := by
  simp [wellFormedAccess, and_assoc]

/-- An ill-formed access is a cause of ERROR by its form alone. -/
theorem readFails_of_illFormed {s : State} {off size : Nat} {lanes : BitVec 4}
    (h : ¬ wellFormedAccess off size lanes = true) : ReadFails s off size lanes := by
  rw [wellFormedAccess_iff] at h
  unfold ReadFails
  tauto

/-- The causes left to a read of well-formed access: nothing is there, or a RAM word of a busy core. -/
theorem readFails_iff_of_wellFormed {s : State} {off size : Nat} {lanes : BitVec 4}
    (h : wellFormedAccess off size lanes = true) : ReadFails s off size lanes ↔
      ¬ Mapped s.params.log2Nmax off ∨ (MappedRam s.params.log2Nmax off ∧ s.busy = true) := by
  obtain ⟨rfl, ha, rfl⟩ := wellFormedAccess_iff.1 h
  simp [ReadFails, ha]

/-- A register's offset is mapped, and to no RAM word. -/
theorem mapped_register {log2Nmax off : Nat} (h : off < 0x18) :
    Mapped log2Nmax off ∧ ¬ MappedRam log2Nmax off :=
  ⟨.inl h, fun hram => by have := hram.le_offset; omega⟩

/-- A TWROM offset is mapped, and to no RAM word. -/
theorem mapped_rom {log2Nmax off : Nat} (h : InRomWindow off) : Mapped log2Nmax off ∧ ¬ MappedRam log2Nmax off :=
  ⟨.inr (.inl h), fun hram => by have := hram.le_offset; have := h.2; omega⟩

/-- A read gets no data exactly for a cause of R381's table. -/
theorem State.readData_eq_none_iff (s : State) (off size : Nat) (lanes : BitVec 4) :
    s.readData off size lanes = none ↔ ReadFails s off size lanes := by
  unfold State.readData
  split
  next hacc =>
    have hat := decodeOffset_at s.params.log2Nmax (wellFormedAccess_iff.1 hacc).2.1
    rw [readFails_iff_of_wellFormed hacc]
    cases hd : decodeOffset s.params.log2Nmax off <;> rw [hd] at hat
    case rom => simp [mapped_rom hat]
    case ram => simp [show MappedRam s.params.log2Nmax off from hat, Mapped]
    case reserved => simpa using .inl hat
    case id | config | cmd | status | ctrl | winTag =>
      obtain rfl : off = _ := hat
      simp [mapped_register]
  next hacc => simpa using readFails_of_illFormed hacc

/-- A write has no effect exactly for a cause of R381's table. -/
theorem State.writeEffect_eq_none_iff (s : State) (off size : Nat) (lanes : BitVec 4) (w : Word) :
    s.writeEffect off size lanes w = none ↔ WriteFails s off size lanes := by
  unfold State.writeEffect WriteFails
  split
  next hacc =>
    have hat := decodeOffset_at s.params.log2Nmax (wellFormedAccess_iff.1 hacc).2.1
    rw [readFails_iff_of_wellFormed hacc]
    cases hd : decodeOffset s.params.log2Nmax off <;> rw [hd] at hat
    case rom => simp [show InRomWindow off from hat]
    case ram =>
      have hram : MappedRam s.params.log2Nmax off := hat
      have hoff := hram.le_offset
      have habove (c : Nat) (hc : c < 0x20000) : off ≠ c := by omega
      have hrom : ¬ InRomWindow off := fun h => by have := h.2; omega
      simp [hram, Mapped, hrom, habove]
    case reserved => simp [show ¬ Mapped s.params.log2Nmax off from hat]
    case id | config | cmd | status | ctrl | winTag =>
      obtain rfl : off = _ := hat
      simp [mapped_register, InRomWindow]
  next hacc => simpa using .inl (readFails_of_illFormed hacc)

/-- The effect of a write answers nothing by itself: the host port records the response. -/
theorem State.writeEffect_responses {s t : State} {off size : Nat} {lanes : BitVec 4} {w : Word}
    (h : s.writeEffect off size lanes w = some t) : t.responses = s.responses := by
  obtain ⟨-, rfl⟩ | rfl | rfl | ⟨r, i, -, -, rfl⟩ := State.writeEffect_cases h
  · rfl
  · rfl
  · obtain ⟨-, he⟩ | ⟨-, he⟩ := s.writeCtrl_cases w <;> rw [he]
    exact s.softReset_responses
  · rw [State.hostRamWrite_eq]
    rfl

/-- The step whose turn is a read that fails, at an offset of the core's window. -/
theorem step_read_fails {s : State} {ts : List Turn} {off size : Nat} {lanes : BitVec 4} (ho : off < 0x100000)
    (ht : s.turns = .read (s.params.coreBase + off) size lanes :: ts) (hf : ReadFails s off size lanes) :
    step s = .next { s with turns := ts, responses := s.responses ++ [.read 0 false] } := by
  rw [step_turn ht]
  have hd := (State.readData_eq_none_iff { s with turns := ts } off size lanes).2 hf
  exact congrArg Host.Outcome.next (State.hostRead_error (s := { s with turns := ts }) ho hd)

/-- The step whose turn is a write that fails, at an offset of the core's window. -/
theorem step_write_fails {s : State} {ts : List Turn} {off size : Nat} {lanes : BitVec 4} {w : Word}
    (ho : off < 0x100000) (ht : s.turns = .write (s.params.coreBase + off) size lanes w :: ts)
    (hf : WriteFails s off size lanes) :
    step s = .next { s with turns := ts, responses := s.responses ++ [.write false] } :=
  step_write_error ho ht ((State.writeEffect_eq_none_iff { s with turns := ts } off size lanes w).2 hf)

/-- Settles O42: a read has data, and a write an effect, unless a listed cause holds. -/
theorem busErrorsHaveExactlyTheListedCauses : Obligations.BusErrorsHaveExactlyTheListedCauses := by
  refine fun s ts off size lanes ho => ⟨fun h => ⟨step_read_fails ho h, fun hf => ?_⟩,
    fun v h => ⟨step_write_fails ho h, fun hf => ?_⟩⟩
  · obtain ⟨w, hw⟩ := Option.ne_none_iff_exists'.1
      (mt (State.readData_eq_none_iff { s with turns := ts } off size lanes).1 hf)
    exact ⟨w, step_read_okay ho h hw⟩
  · obtain ⟨t, ht⟩ := Option.ne_none_iff_exists'.1
      (mt (State.writeEffect_eq_none_iff { s with turns := ts } off size lanes v).1 hf)
    exact ⟨_, step_write_okay ho h ht, by rw [State.respond_responses, State.writeEffect_responses ht]⟩

/-- In the RAM windows of a busy core every access has a cause of ERROR: a word that exists is closed, and elsewhere
nothing is there (R425). -/
theorem readFails_of_busy {s : State} {off : Nat} (size : Nat) (lanes : BitVec 4) (hb : s.busy = true)
    (hlo : 0x20000 ≤ off) : ReadFails s off size lanes := by
  by_cases hram : MappedRam s.params.log2Nmax off
  · exact .inr (.inr (.inr (.inr ⟨hram, hb⟩)))
  · exact .inr (.inr (.inr (.inl (mt (mapped_iff_mappedRam hlo).1 hram))))

/-- Settles O41: the accesses to the RAM windows of a busy core are among those that fail. -/
theorem ramIsClosedWhileBusy : Obligations.RamIsClosedWhileBusy := by
  intro s ts off size lanes w hb hlo hhi
  have hf := readFails_of_busy size lanes hb hlo
  exact ⟨fun h => step_read_fails (by omega) h hf, fun h => step_write_fails (by omega) h (.inl hf)⟩

end Sys2Proof.Machine

namespace Sys2Proof.Machine

/-! ## The free bytes a draw leaves (spec/00_scope.md R13, spec/93_implementation_defined.md U3) -/

/-- Lane k of a free word is the free byte of its address. -/
theorem laneByte_freeWord (d a : Nat) {k : Nat} (hk : k < 4) :
    laneByte (freeWord d a) k = Config.freeByte d (a + k) := by
  apply BitVec.eq_of_getLsbD_eq
  intro i hi
  simp only [laneByte, freeWord, BitVec.getLsbD_append, BitVec.getLsbD_extractLsb', hi, decide_true, Bool.true_and]
  rcases (by omega : k = 0 ∨ k = 1 ∨ k = 2 ∨ k = 3) with rfl | rfl | rfl | rfl
  · simp [hi]
  · simp [hi]
  · simp [show ¬ 16 + i < 8 by omega, show ¬ 16 + i - 8 < 8 by omega, show 16 + i - 8 - 8 = i by omega, hi]
  · simp [show ¬ 24 + i < 8 by omega, show ¬ 24 + i - 8 < 8 by omega, show ¬ 24 + i - 8 - 8 < 8 by omega,
      show 24 + i - 8 - 8 - 8 = i by omega]

/-- A word whose four bytes are the free ones of their addresses is the free word. -/
theorem State.wordAt_eq_freeWord {s : State} {a d : Nat}
    (h : ∀ k, k < 4 → s.byteAt (a + k) = Config.freeByte d (a + k)) : s.wordAt a = freeWord d a := by
  have h0 : s.byteAt a = Config.freeByte d a := h 0 (by omega)
  rw [State.wordAt, freeWord, h 3 (by omega), h 2 (by omega), h 1 (by omega), h0]

/-- A byte of a block just drawn is the free one of the current draw. -/
theorem State.byteAt_drawRam_inside (s : State) {r : Ram} {n a : Nat} (h : r.base ≤ a ∧ a < r.base + 4 * n) :
    (s.drawRam r n).byteAt a = Config.freeByte s.draws a := by
  obtain ⟨i, k, hk, rfl⟩ : ∃ i k, k < 4 ∧ a = r.base + 4 * i + k :=
    ⟨(a - r.base) / 4, (a - r.base) % 4, by omega, by omega⟩
  rw [State.byteAt, State.drawRam_mem_eq, Memory.readByte_writeWords_lane _ _ _ (by omega) hk]
  exact laneByte_freeWord _ _ hk

/-- A byte of one of the blocks just drawn is the free one of the current draw, though blocks overlap. -/
theorem State.byteAt_drawBlocks_inside (s : State) {bs : List (Ram × Nat)} {a : Nat} (h : ¬ outsideBlocks bs a) :
    (s.drawBlocks bs).byteAt a = Config.freeByte s.draws a := by
  induction bs generalizing s with
  | nil => exact absurd (fun _ hb => nomatch hb) h
  | cons b bs ih =>
    obtain ⟨r, n⟩ := b
    by_cases hbs : outsideBlocks bs a
    · have hhead : r.base ≤ a ∧ a < r.base + 4 * n := by
        by_contra hout
        exact h (List.forall_mem_cons.2 ⟨hout, hbs⟩)
      rw [State.drawBlocks, State.drawBlocks_outside _ _ hbs, State.byteAt_drawRam_inside s hhead]
    · exact ih (s.drawRam r n) hbs

/-! ## Reset (spec/70_reset_and_hazards.md R420 to R422) -/

/-- The write set of a latched word that is a command is that command's (R422). -/
theorem State.latchedWriteSet_decoded {s : State} {i : Instr} (hd : decode s.cmd = .ok i) :
    s.latchedWriteSet = s.writeSetOf i := by
  simp [State.latchedWriteSet, hd]

/-- The write set of a latched word that R151 rejects is empty (R422). -/
theorem State.latchedWriteSet_illegal {s : State} (h : classify s.params.log2Nmax s.cmd ≠ none) :
    s.latchedWriteSet = [] := by
  cases hd : decode s.cmd with
  | error e => simp [State.latchedWriteSet, hd]
  | ok i =>
    rw [classify_of_decode_ok _ hd] at h
    obtain ⟨e, he⟩ := Option.ne_none_iff_exists'.1 h
    rw [State.latchedWriteSet_decoded hd, State.writeSetOf_rejected he]

/-- A soft reset leaves every register field 0 (R421). -/
theorem State.softReset_fields (s : State) :
    s.softReset.cmd = 0 ∧ s.softReset.busy = false ∧ s.softReset.done = false ∧ s.softReset.err = false ∧
      s.softReset.errcode = 0 ∧ s.softReset.ie = false ∧ s.softReset.winTag = WinTag.zero := by
  obtain ⟨-, he⟩ | ⟨-, m, he, -⟩ := s.softReset_cases <;> rw [he] <;> exact ⟨rfl, rfl, rfl, rfl, rfl, rfl, rfl⟩

/-- A soft reset of an idle core resets the registers and does nothing else (R422). -/
theorem State.softReset_idle {s : State} (hb : s.busy = false) : s.softReset = s.resetRegisters := by
  simp [State.softReset, hb]

section

variable {s : State} (hb : s.busy = true)
include hb

/-- A soft reset of a busy core uses up a draw (log entry 5). -/
theorem State.softReset_draws_of_busy : s.softReset.draws = s.draws + 1 := by
  obtain ⟨hidle, -⟩ | ⟨-, m, he, -⟩ := s.softReset_cases
  · simp [hb] at hidle
  · rw [he]

/-- A soft reset of a busy core changes the bytes of RAM as the aborted command's draw does (R422). -/
theorem State.byteAt_softReset_of_busy (a : Nat) :
    s.softReset.byteAt a = (s.drawBlocks s.latchedWriteSet).byteAt a := by
  simp only [State.softReset, hb, if_true]
  rfl

/-- The abort keeps every byte outside the latched word's write set. -/
theorem State.softReset_sameBytesOutside : SameBytesOutside s.latchedWriteSet s s.softReset := fun a ha =>
  (State.byteAt_softReset_of_busy hb a).trans (State.drawBlocks_outside _ _ ha)

/-- The abort leaves a free word at each word of the latched word's write set (U3). -/
theorem State.ram_softReset_of_busy {b : Ram × Nat} (hmem : b ∈ s.latchedWriteSet) {k : Nat} (hk : k < b.2) :
    s.softReset.ram b.1 k = freeWord s.draws (b.1.base + 4 * k) := by
  refine State.wordAt_eq_freeWord fun j hj => (State.byteAt_softReset_of_busy hb _).trans ?_
  exact State.byteAt_drawBlocks_inside s fun hout => hout b hmem (by omega)

end

/-- Settles O37: the CTRL write is a soft reset, whose abort draws the latched word's write set and nothing else. -/
theorem softResetKeepsOrAborts : Obligations.SoftResetKeepsOrAborts := by
  intro s ts w h hw
  have hreset : State.writeCtrl { s with turns := ts } w = State.softReset { s with turns := ts } := if_pos hw
  have hstep := step_write_okay (by decide) h (State.writeEffect_ctrl { s with turns := ts } w)
  rw [hreset] at hstep
  obtain ⟨hcmd, hbusy, hdone, herr, hcode, hie, htag⟩ := State.softReset_fields { s with turns := ts }
  refine ⟨_, hstep, ?_, hcmd, hbusy, hdone, herr, hcode, hie, htag, State.softReset_params _, fun hb => ?_,
    fun hb => ?_, fun hb i hd => ⟨?_, fun b hmem k hk => ?_⟩, fun hb hc a => ?_⟩
  · rw [State.respond_responses, State.softReset_responses]
  · rw [State.softReset_idle (s := { s with turns := ts }) hb]
    exact ⟨rfl, fun _ => rfl⟩
  · exact State.softReset_draws_of_busy (s := { s with turns := ts }) hb
  · rw [← State.latchedWriteSet_decoded hd]
    exact State.softReset_sameBytesOutside (s := { s with turns := ts }) hb
  · rw [← State.latchedWriteSet_decoded hd] at hmem
    exact State.ram_softReset_of_busy (s := { s with turns := ts }) hb hmem hk
  · refine State.softReset_sameBytesOutside (s := { s with turns := ts }) hb a ?_
    rw [State.latchedWriteSet_illegal (s := { s with turns := ts }) hc]
    exact fun _ hmem => nomatch hmem

/-- After a hardware reset the registers read 0 and irq is 0 (R421). -/
theorem State.hardReset_registers (s : State) :
    s.hardReset.statusWord = 0 ∧ s.hardReset.ctrlWord = 0 ∧ s.hardReset.winTagWord = 0 ∧ s.hardReset.irq = false := by
  simp [State.statusWord_eq, State.ctrlWord_eq, State.winTagWord_eq, State.irq, WinTag.zero]

/-- Settles O38: the registers reset, and no byte is listed, so each is the free value of the new draw. -/
theorem hardResetFromAnyState : Obligations.HardResetFromAnyState := by
  intro s ts h
  obtain ⟨hstatus, hctrl, htag, hirq⟩ := State.hardReset_registers { s with turns := ts }
  exact ⟨_, step_turn h, rfl, hstatus, hctrl, htag, hirq, rfl, rfl, rfl, rfl, fun _ => rfl⟩

end Sys2Proof.Machine
